-- ==== Sys2Proof/Word.lean ====
section
/-! DEFINITION. The word types of the block: pixels and stream bytes, the 32-bit host registers, bit strings. -/

namespace Sys2Proof

/-- A byte, a natural in 0 .. 255 (R7); also a pixel, PIXEL_BITS = 8 (R6). Bit 0 has weight 1 (R8). -/
abbrev Byte := BitVec 8

/-- A 32-bit register or header integer, DIM_BITS = 32 (R6). -/
abbrev Word := BitVec 32

/-- A bit string in emission order, first emitted bit first (R9). -/
abbrev Bits := List Bool

end Sys2Proof
end

