-- ==== Sys2Proof/Machine/Types.lean ====
section
/-! DEFINITION. The enumerations of the machine: phases, error kinds, causes, variants, group sizes, host moves. -/

namespace Sys2Proof.Machine

/-- PHASE, the control state of the sequencer (R30). -/
inductive Phase where
  | idle | header | classify | rowIndex | payload | flush | done | error
  deriving DecidableEq, Repr, Inhabited

/-- ERR, the error kind (R211). `ioError` and `other` are never raised (R227). -/
inductive ErrKind where
  | none | invalidFormat | outOfMemory | ioError | other
  deriving DecidableEq, Repr, Inhabited

/-- CAUSE, the cause within the kind (R212). -/
inductive Cause where
  | noCause | headerTooShort | rowIndexTruncated | payloadExhausted | negativeDimension | outputFull | rasterTooLarge
  deriving DecidableEq, Repr, Inhabited

/-- VAR, the variant of a group: AllWhite, AllBlack, Mixed (R34). -/
inductive Variant where
  | w | k | m
  deriving DecidableEq, Repr, Inhabited

/-- GSZ, "a natural in 1 .. 4" (R33). -/
inductive GroupSize where
  | one | two | three | four
  deriving DecidableEq, Repr, Inhabited

/-- The decoder's states (R192), with `idle` before the first call of `decode`. -/
inductive DecPhase where
  | idle | readHeader | readRowIndex | decodeRow | done | error
  deriving DecidableEq, Repr, Inhabited

/-- One move of the host (R32, R39, R240, R180). -/
inductive HostMove where
  /-- write of register number `no` of the map of R32; the CTRL register is number 0 -/
  | writeReg (no : Nat) (v : Word)
  /-- write of one byte of PIX (R39) -/
  | writePix (a : Nat) (b : Byte)
  /-- hardware reset (R240) -/
  | reset
  /-- a call `decode(bytes)` of the reference decoder (R180) -/
  | decode (bytes : List Byte)
  /-- the host does nothing in this step -/
  | wait
  deriving DecidableEq, Repr

end Sys2Proof.Machine
end

