-- ==== Sys2Proof/Config.lean ====
section
/-! DEFINITION. The fixed parameters of R6 as named constants (U9), and the free values: constants with no body, of
which nothing can be proved. The open parameters OUT_CAP and MAX_PIXELS are plain constant fields of State (log entry 1). -/

namespace Sys2Proof

/-- WHITE = 255 (R6). -/
def Config.white : Byte := 255#8

/-- BLACK = 0 (R6). -/
def Config.black : Byte := 0#8

/-- GROUP_MAX = 4 pixels (R6). -/
def Config.groupMax : Nat := 4

/-- HEADER_BYTES = 8 (R6). -/
def Config.headerBytes : Nat := 8

/-- PUT_MAX = 32 (R6, D15); the same bound holds for `GET` (R183). -/
def Config.putMax : Nat := 32

/-- FREE VALUE (log entry 3): the byte of PIX at address `a` that nothing has written since the `gen`-th hardware
reset; R40: contents after reset unspecified. -/
opaque Config.freePix (gen a : Nat) : Byte

/-- FREE VALUE (log entry 3): the bit RP[y] that nothing has written since draw number `draw`; R40, R215. -/
opaque Config.freeRp (draw y : Nat) : Bool

/-- FREE VALUE (log entry 3): an unspecified 8-bit register, `slot` naming the register. -/
opaque Config.freeByte (draw slot : Nat) : Byte

/-- FREE VALUE (log entry 3): an unspecified counter, `slot` naming the register. -/
opaque Config.freeNat (draw slot : Nat) : Nat

/-- FREE VALUE (log entry 3): an unspecified NBITS, kept within its range 0 .. 7 (R35). -/
opaque Config.freeBitCount (draw : Nat) : Fin 8

/-- FREE VALUE (log entry 3): an unspecified GSZ, kept within its range 1 .. 4 (R33). -/
opaque Config.freeGroupSize (draw : Nat) : Machine.GroupSize

/-- FREE VALUE (log entry 3): an unspecified VAR, one of its three values (R34). -/
opaque Config.freeVariant (draw : Nat) : Machine.Variant

end Sys2Proof
end

