-- ==== Sys2Proof/Machine/Bits.lean ====
section
/-! DEFINITION. The notation of 00_scope.md R8 to R11: bits of a byte, `lowbits`, `bits8`, `pack`, `le32`, `unle32`. -/

namespace Sys2Proof

/-- `lowbits(v, n)`: the low `n` bits of `v`, most significant of those bits first (R9). -/
def lowbits (v : Nat) : Nat → Bits
  | 0 => []
  | n + 1 => v.testBit n :: lowbits v n

/-- `bits8(p) = lowbits(p, 8)` (R9). -/
def bits8 (p : Byte) : Bits := lowbits p.toNat 8

/-- The natural whose bits are `s`, first bit most significant: `v <- 2*v + bit` for each bit, from `v` (R183). -/
def natOfBits (v : Nat) : Bits → Nat
  | [] => v
  | b :: s => natOfBits (2 * v + b.toNat) s

/-- The byte Σ_{j=0..7} s[j] × 2^(7-j) of eight bits; missing bits count as zero (R10). -/
def byteOfBits (s : Bits) : Byte := BitVec.ofNat 8 (natOfBits 0 ((s ++ List.replicate 8 false).take 8))

/-- `pack(s)` with `k` bytes: bytes 0 to k-1 of MSB-first packing, zero bits after the end of `s` (R10). -/
def packBytes : Nat → Bits → List Byte
  | 0, _ => []
  | k + 1, s => byteOfBits s :: packBytes k (s.drop 8)

/-- `pack(s)`: `ceil(|s| / 8)` bytes, MSB-first, the last zero-filled in its low bits (R10). -/
def pack (s : Bits) : List Byte := packBytes ((s.length + 7) / 8) s

/-- The bits of a byte sequence in reading order: bit position `8a + j` is bit `7 - j` of byte `a` (R76, R181). -/
def bitsOfBytes : List Byte → Bits
  | [] => []
  | b :: bs => bits8 b ++ bitsOfBytes bs

/-- `le32(n)`: four bytes, least significant first (R11, D1). -/
def le32 (v : Word) : List Byte :=
  [v.extractLsb' 0 8, v.extractLsb' 8 8, v.extractLsb' 16 8, v.extractLsb' 24 8]

/-- `unle32([b0, b1, b2, b3])` as the stored 32-bit value; it reads as signed in two's complement (R11, G1). -/
def unle32 (b0 b1 b2 b3 : Byte) : Word :=
  BitVec.ofNat 32 (b0.toNat + 256 * b1.toNat + 65536 * b2.toNat + 16777216 * b3.toNat)

/-- `ceil(a / 8)` is `(a + 7) div 8` (R7). -/
def ceilDiv8 (a : Nat) : Nat := (a + 7) / 8

/-- A dimension as the count a loop runs to: a value below 0 runs no iteration; on the legal range 0 .. 2^31 - 1 it is
the value itself (R21, R22; log entry 7). -/
def dim (v : Word) : Nat := v.toInt.toNat

end Sys2Proof
end

