-- ==== Sys2Proof/Syntax.lean ====
section
/-! DEFINITION. The instructions: one constructor for each row of spec/opcode_table.json, with the operands the spec
gives it. Rows of format `operation` take only the operands their rule lists; every other register they use they read
from the state. -/

namespace Sys2Proof

/-- The 27 rows of the code table and operation list (INDEX: "an instruction is a code word of the payload or an
operation of the block"). -/
inductive Instr where
  /-- `W`, AllWhite code word `0` (R78). -/
  | w
  /-- `K`, AllBlack code word `10` (R78). -/
  | k
  /-- `M1`, Mixed code word of a group of one pixel: `11` `bits8(p0)` (R78, R80). -/
  | m1 (p0 : Byte)
  /-- `M2`, Mixed code word of a group of two pixels (R78, R80). -/
  | m2 (p0 p1 : Byte)
  /-- `M3`, Mixed code word of a group of three pixels (R78, R80). -/
  | m3 (p0 p1 p2 : Byte)
  /-- `M4`, Mixed code word of a group of four pixels (R78, R80). -/
  | m4 (p0 p1 p2 p3 : Byte)
  /-- `HDR`, emit the header; operands read from WIDTH and HEIGHT (R153). -/
  | hdr
  /-- `RIX`, emit row-index byte KIDX; operands read from HEIGHT, KIDX, RP (R155). -/
  | rix
  /-- `PAD`, the final padding: the (8 - P mod 8) mod 8 zero bits, counted from NBITS (R77, R133). -/
  | pad
  /-- `START`, the host command that begins a call (R151). -/
  | start
  /-- `CLS`, classify row Y (R101). -/
  | cls
  /-- `LDG`, load the group at (Y, X) (R111). -/
  | ldg
  /-- `CLSG`, classify the group (R112). -/
  | clsg
  /-- `EMW`, emit AllWhite (R113). -/
  | emw
  /-- `EMK`, emit AllBlack (R114). -/
  | emk
  /-- `EMM`, emit Mixed (R115). -/
  | emm
  /-- `GRP`, encode one group (R116). -/
  | grp
  /-- `PUT(v, n)`, append the low n bits of v (R131); v is below 2^32. -/
  | put (v : Word) (n : Nat)
  /-- `PUTBIT(b)`, append one bit (R132). -/
  | putbit (b : Bool)
  /-- `FLUSH()`, append the partial byte if there is one (R133). -/
  | flush
  /-- `FIN`, the end of the call (R160). -/
  | fin
  /-- `GETBIT()`, the decoder reads one payload bit (R182). -/
  | getbit
  /-- `GET(n)`, the decoder reads n bits (R183). -/
  | get (n : Nat)
  /-- `DHDR`, the decoder reads the header (R184) and checks the dimensions (R185). -/
  | dhdr
  /-- `DRIX`, the decoder locates the row index (R186) and checks the allocation (R187). -/
  | drix
  /-- `DROW`, the decoder decodes row y (R188, R189). -/
  | drow
  /-- `DGRP(n)`, the decoder decodes one group of n pixels (R190). -/
  | dgrp (n : Nat)
  deriving DecidableEq, Repr

end Sys2Proof
end

