-- ==== Sys2Proof/WellFormed.lean ====
section
/-! DEFINITION. Which instructions are well formed: the operand ranges the spec states. -/

namespace Sys2Proof

/-- The operand ranges: `PUT` takes 0 ≤ n ≤ PUT_MAX = 32 (R131), `GET` 0 ≤ n ≤ 32 (R183), `DGRP` 1 ≤ n ≤ 4 (R190).
Every pixel value is a legal raw pixel (R85), so every code word is well formed. -/
def Instr.wf : Instr → Bool
  | .put _ n => decide (n ≤ 32)
  | .get n => decide (n ≤ 32)
  | .dgrp n => decide (1 ≤ n) && decide (n ≤ 4)
  | .w | .k | .m1 _ | .m2 _ _ | .m3 _ _ _ | .m4 _ _ _ _ => true
  | .hdr | .rix | .pad => true
  | .start | .cls | .ldg | .clsg | .emw | .emk | .emm | .grp | .putbit _ | .flush | .fin => true
  | .getbit | .dhdr | .drix | .drow => true

end Sys2Proof
end

