-- ==== Sys2Proof/Decode.lean ====
section
/-! DEFINITION. Decoding: code words by prefix and group size (R78 to R82), container fields by position (R70 to R77);
and after it the encoder, written from the same rules. Operations have no wire encoding (R82): the sequencer's state
selects them (Machine/Sequencer.lean). -/

namespace Sys2Proof

/-- Why bits are no code word or container field at the place they stand. -/
inductive Reject where
  /-- a code word needs a bit at or beyond the end of the input (R190, R212) -/
  | payloadExhausted
  /-- a group has 1 to 4 pixels (R81) -/
  | noSuchGroup (n : Nat)
  /-- fewer than 8 bytes (R184) -/
  | headerTooShort
  /-- no byte where a row-index byte stands (R186) -/
  | rowIndexTruncated
  /-- the final padding has 0 to 7 bits (R77) -/
  | padTooLong (n : Nat)
  /-- fewer bits than the padding has -/
  | padExhausted
  /-- the final padding is zero bits (R77); the reference decoder does not read them at all (R191) -/
  | padNotZero
  /-- no row of the table has this length -/
  | noSuchLength (nbits : Nat)
  deriving DecidableEq, Repr

/-- Where in a stream bits stand: container fields are "not selected by a pattern but by position" (R82), a Mixed word's
length by the group size `n` at its place (R79). -/
inductive Position where
  | header
  | rowIndex
  | payload (n : Nat)
  | padding (n : Nat)
  deriving DecidableEq, Repr

/-- A piece of a stream with everything its bits say: the rows of the table that have an encoding. -/
inductive Field where
  /-- `HDR`: width and height (R71) -/
  | hdr (width height : Word)
  /-- `RIX`: one row-index byte, row `8k + j` at bit `j` (R73) -/
  | rix (b : Byte)
  /-- `PAD`: `n` zero bits (R77) -/
  | pad (n : Nat)
  /-- a code word (R78) -/
  | word (i : Instr)
  deriving DecidableEq, Repr

/-- The instruction whose row of the table the field is. -/
def Field.instr : Field → Instr
  | .hdr _ _ => .hdr
  | .rix _ => .rix
  | .pad _ => .pad
  | .word i => i

/-- One raw byte of the stream, most significant bit first (R80). -/
def takeByte : Bits → Option (Byte × Bits)
  | b7 :: b6 :: b5 :: b4 :: b3 :: b2 :: b1 :: b0 :: s =>
    some (BitVec.ofNat 8 (natOfBits 0 [b7, b6, b5, b4, b3, b2, b1, b0]), s)
  | _ => none

/-- `n` raw bytes in order (R80). -/
def takeBytes : Nat → Bits → Option (List Byte × Bits)
  | 0, s => some ([], s)
  | n + 1, s =>
    match takeByte s with
    | none => none
    | some (p, s') =>
      match takeBytes n s' with
      | none => none
      | some (ps, s'') => some (p :: ps, s'')

/-- The Mixed word of the pixels `ps`, one to four of them (R78). -/
def mixedWord : List Byte → Option Instr
  | [p0] => some (.m1 p0)
  | [p0, p1] => some (.m2 p0 p1)
  | [p0, p1, p2] => some (.m3 p0 p1 p2)
  | [p0, p1, p2, p3] => some (.m4 p0 p1 p2 p3)
  | _ => none

/-- The `n` raw bytes after a prefix `11`, as the Mixed word of a group of `n` pixels (R79). -/
def decodeMixed (n : Nat) (s : Bits) : Except Reject (Instr × Bits) :=
  match takeBytes n s with
  | none => .error .payloadExhausted
  | some (ps, s') =>
    match mixedWord ps with
    | none => .error (.noSuchGroup n)
    | some i => .ok (i, s')

/-- One code word of a group of `n` pixels, and the bits after it: first bit 0 is `W`, `10` is `K`, `11` is `M<n>`
(R78, R79, R82). -/
def decodeWord (n : Nat) (s : Bits) : Except Reject (Instr × Bits) :=
  if n = 0 ∨ Config.groupMax < n then .error (.noSuchGroup n)
  else match s with
    | [] => .error .payloadExhausted
    | false :: s' => .ok (.w, s')
    | true :: [] => .error .payloadExhausted
    | true :: false :: s' => .ok (.k, s')
    | true :: true :: s' => decodeMixed n s'

/-- The header: width and height, four bytes each, least significant byte first (R71, R11). -/
def decodeHeader : List Byte → Except Reject ((Word × Word) × List Byte)
  | a0 :: a1 :: a2 :: a3 :: b0 :: b1 :: b2 :: b3 :: bs => .ok ((unle32 a0 a1 a2 a3, unle32 b0 b1 b2 b3), bs)
  | _ => .error .headerTooShort

/-- The presence bits of one row-index byte: row `8k + j` is bit `j` (R73). -/
def presenceBits (b : Byte) : List Bool :=
  [b.getLsbD 0, b.getLsbD 1, b.getLsbD 2, b.getLsbD 3, b.getLsbD 4, b.getLsbD 5, b.getLsbD 6, b.getLsbD 7]

/-- One field of a stream given as bytes, and what stands after it: bytes for the container fields of whole bytes, bits
for the payload (R70, R76). Total on any bytes. -/
def decodeField : Position → List Byte → Except Reject (Field × Bits)
  | .header, bs =>
    match decodeHeader bs with
    | .error e => .error e
    | .ok ((w, h), r) => .ok (.hdr w h, bitsOfBytes r)
  | .rowIndex, [] => .error .rowIndexTruncated
  | .rowIndex, b :: r => .ok (.rix b, bitsOfBytes r)
  | .payload n, bs =>
    match decodeWord n (bitsOfBytes bs) with
    | .error e => .error e
    | .ok (i, r) => .ok (.word i, r)
  | .padding n, bs =>
    if 7 < n then .error (.padTooLong n)
    else if (bitsOfBytes bs).length < n then .error .padExhausted
    else if ((bitsOfBytes bs).take n).any id then .error .padNotZero
    else .ok (.pad n, (bitsOfBytes bs).drop n)

/-! The encoder. -/

/-- The bit string of a code word (R78); nothing for the other rows, whose content or existence on the wire is no part
of the instruction (R82). -/
def encode : Instr → Option Bits
  | .w => some [false]
  | .k => some [true, false]
  | .m1 p0 => some (true :: true :: bits8 p0)
  | .m2 p0 p1 => some (true :: true :: (bits8 p0 ++ bits8 p1))
  | .m3 p0 p1 p2 => some (true :: true :: (bits8 p0 ++ bits8 p1 ++ bits8 p2))
  | .m4 p0 p1 p2 p3 => some (true :: true :: (bits8 p0 ++ bits8 p1 ++ bits8 p2 ++ bits8 p3))
  | .hdr | .rix | .pad => none
  | .start | .cls | .ldg | .clsg | .emw | .emk | .emm | .grp | .put _ _ | .putbit _ | .flush | .fin => none
  | .getbit | .get _ | .dhdr | .drix | .drow | .dgrp _ => none

/-- The group size a code word is written for: fixed for `M<n>`, any for `W` and `K` (R78). -/
def Instr.fitsGroup (n : Nat) : Instr → Bool
  | .w | .k => decide (1 ≤ n ∧ n ≤ Config.groupMax)
  | .m1 _ => n == 1
  | .m2 _ _ => n == 2
  | .m3 _ _ _ => n == 3
  | .m4 _ _ _ _ => n == 4
  | .hdr | .rix | .pad => false
  | .start | .cls | .ldg | .clsg | .emw | .emk | .emm | .grp | .put _ _ | .putbit _ | .flush | .fin => false
  | .getbit | .get _ | .dhdr | .drix | .drow | .dgrp _ => false

/-- The header's eight bytes, `le32(width) ++ le32(height)` (R71). -/
def encodeHeader (width height : Word) : List Byte := le32 width ++ le32 height

/-- The row-index byte of eight presence bits, item `j` at bit `j` (R73, R155): the sum of `2^j` over the set ones. -/
def encodePresence (f : Nat → Bool) : Nat → Byte
  | 0 => 0
  | j + 1 => if f j then encodePresence f j + BitVec.ofNat 8 (2 ^ j) else encodePresence f j

/-- The bits of a field as they stand in the stream (R71, R73, R77, R78). -/
def Field.bits : Field → Option Bits
  | .hdr w h => some (bitsOfBytes (encodeHeader w h))
  | .rix b => some (bits8 b)
  | .pad n => some (List.replicate n false)
  | .word i => encode i

/-- The code of a group of pixels: `0` if all are 255, else `10` if all are 0, else `11` and the raw bytes (R14, R113,
R114, R115). -/
def codeOfGroup (g : List Byte) : Bits :=
  if g.all (· == Config.white) then [false]
  else if g.all (· == Config.black) then [true, false]
  else true :: true :: g.flatMap bits8

/-! The host's numbering of a table row's bits. -/

/-- The bytes of an instruction whose bits are `w`: byte `k` is bits `8k+7 .. 8k`, and zero bytes after the `nbits`
bits, up to the longest field. -/
def tableBytes (nbits w : Nat) : List Byte :=
  (List.range ((nbits + 7) / 8)).map (fun k => BitVec.ofNat 8 (w / 2 ^ (8 * k))) ++ List.replicate 8 0

/-- Where the row of a given length stands: 64 bits are the header, 8 to 40 bits a code word of the group size whose
Mixed word has that many bytes. A row-index byte (8 bits) and the padding are told from a code word by position only, so
a length alone does not select them (log entry 9). -/
def tablePosition (nbits : Nat) : Option Position :=
  match (nbits + 7) / 8 with
  | 8 => some .header
  | 1 | 2 => some (.payload 1)
  | 3 => some (.payload 2)
  | 4 => some (.payload 3)
  | 5 => some (.payload 4)
  | _ => none

/-- The field the decoder reads from the bits `w`, or why there is none. -/
def fieldOfTable (nbits w : Nat) : Except Reject Field :=
  match tablePosition nbits with
  | none => .error (.noSuchLength nbits)
  | some p =>
    match decodeField p (tableBytes nbits w) with
    | .error e => .error e
    | .ok (f, _) => .ok f

/-- The instruction the decoder reads from an instruction whose bits are `w`. -/
def decodeTableWord (nbits w : Nat) : Option Instr :=
  match fieldOfTable nbits w with
  | .error _ => none
  | .ok f => some f.instr

end Sys2Proof
end

