-- ==== Sys2Proof/Machine/State.lean ====
section
/-! DEFINITION. The state of the machine as plain data, the reasons a step can stop, and the state after reset. -/

namespace Sys2Proof.Machine

/-- Why the machine stops with a fault: an access to an address the spec says does not exist. All are SAFE: the model
stops and claims nothing. No run of the sequencer reaches one of the first three (R51, R101, R111). -/
inductive Fault where
  /-- raised by CLS and LDG: a read of PIX at or above WIDTH × HEIGHT (R23, R51); safe -/
  | pixRange (a : Nat)
  /-- raised by CLS: a write of RP at or above HEIGHT (R26); safe -/
  | rpRange (y : Nat)
  /-- raised by OutAppend: a write of OUT above OUT_CAP, possible only from a state with OUT_LEN > OUT_CAP (R24); safe -/
  | outRange (a : Nat)
  /-- raised by DROW and the decoder's row step: a read of the input at or beyond its length (R193); safe -/
  | inputRange (a : Nat)
  /-- raised by a host write of PIX at or above MAX_PIXELS, the pixels the memory holds (R6); safe -/
  | pixCapacity (a : Nat)
  deriving DecidableEq, Repr

/-- Why a step has no meaning. All are SAFE: the model claims nothing of such a step. -/
inductive Refusal where
  /-- raised by `exec` alone, for an instruction without a meaning yet; safe -/
  | notModelled (mnemonic : String)
  /-- raised by PUT and GET with n > 32 (R131, R183, U14), DGRP with n outside 1 .. 4 (R190), LDG with X ≥ WIDTH
  (its precondition, R111), DROW with y ≥ h (R188); the operation's stated domain ends there; safe -/
  | outsideDomain (operation : String)
  /-- raised by a code word where no group starts (x ≥ w), or an M word whose pixel count is not the group size
  min(4, w - x) at that place: no such word stands there (R79, R81); safe -/
  | wrongGroupSize (word : String)
  /-- raised by the step: the sequencer's counters match no row of the table R161, or the decoder's row is past h; safe -/
  | noTableRow
  /-- raised by the host's write of PIX while the block is busy: "the model has no such host move" (U5, D18); safe -/
  | pixWriteWhileBusy
  /-- raised by the host's write of STATUS or OUT_LEN, which are read-only (R32); safe -/
  | readOnlyRegister (no : Nat)
  /-- raised by the host's write of a register number the map does not have (R32); safe -/
  | noSuchRegister (no : Nat)
  deriving DecidableEq, Repr

/-- The state of the reference decoder, local to a call of `decode` (R181, R192). -/
structure Dec where
  /-- the input `S`, of length `L` -/
  input : List Byte
  /-- `w`, signed 32 bits -/
  width : Word
  /-- `h`, signed 32 bits -/
  height : Word
  /-- `N = ceil(h / 8)` -/
  n : Nat
  /-- `POS`, counting bits from the start of `S` -/
  pos : Nat
  /-- the output pixel sequence `out` -/
  out : List Byte
  /-- the row counter `y` -/
  y : Nat
  /-- the column `x` of the next group of row `y` (R189) -/
  x : Nat
  /-- the state of R192 -/
  phase : DecPhase
  /-- the error kind of the result -/
  err : ErrKind
  /-- the cause of the result -/
  cause : Cause
  /-- the value returned by the last GETBIT or GET -/
  ret : Nat
  deriving DecidableEq, Repr

/-- The decoder before its first call (log entry 8). -/
def Dec.init (bytes : List Byte) : Dec :=
  { input := bytes, width := 0, height := 0, n := 0, pos := 0, out := [], y := 0, x := 0, phase := .idle,
    err := .none, cause := .noCause, ret := 0 }

/-- The state of the machine: the block (R20), the parameters OUT_CAP and MAX_PIXELS as constants (R38), the reference
decoder (R181), the host's pending moves, and the counters of the free values. -/
structure State where
  /-- WIDTH (R21) -/
  width : Word
  /-- HEIGHT (R22) -/
  height : Word
  /-- PIX (R23): the bytes written since reset, by address -/
  pix : List Host.Cell
  /-- RP (R26): the bits written in this call, by row -/
  rp : List (Nat × Bool)
  /-- OUT (R24): the bytes written in this call, by address -/
  out : List Host.Cell
  /-- OUT_LEN (R25) -/
  outLen : Nat
  /-- PHASE (R30) -/
  phase : Phase
  /-- Y (R27) -/
  y : Nat
  /-- X (R28) -/
  x : Nat
  /-- KIDX (R29) -/
  kidx : Nat
  /-- ERR (R31) -/
  err : ErrKind
  /-- CAUSE (R31) -/
  cause : Cause
  /-- G0 (R33) -/
  g0 : Byte
  /-- G1 (R33) -/
  g1 : Byte
  /-- G2 (R33) -/
  g2 : Byte
  /-- G3 (R33) -/
  g3 : Byte
  /-- GSZ (R33) -/
  gsz : GroupSize
  /-- VAR (R34) -/
  var : Variant
  /-- ACC (R35) -/
  acc : Byte
  /-- NBITS (R35) -/
  nbits : Fin 8
  /-- RIXB (R36) -/
  rixb : Byte
  /-- OUT_CAP, `none` for ∞ (R6); never written -/
  outCap : Option Nat
  /-- MAX_PIXELS, `none` for ∞ (R6); never written -/
  maxPixels : Option Nat
  /-- the model's own: how many times registers and RP became unspecified (log entry 3) -/
  draws : Nat
  /-- the model's own: how many times PIX became unspecified (log entry 3) -/
  pixGen : Nat
  /-- the model's own: the host's moves still to come (log entry 5) -/
  inbox : List HostMove
  /-- the reference decoder (R181) -/
  dec : Dec
  deriving DecidableEq, Repr

/-- The machine right after reset (R40). G0..G3, GSZ, VAR and RIXB have no reset value in the spec: log entry 2.
OUT_CAP and MAX_PIXELS are taken as ∞ here: log entry 1. -/
def State.reset : State :=
  { width := 0, height := 0, pix := [], rp := [], out := [], outLen := 0, phase := .idle, y := 0, x := 0, kidx := 0,
    err := .none, cause := .noCause, g0 := 0, g1 := 0, g2 := 0, g3 := 0, gsz := .one, var := .w, acc := 0, nbits := 0,
    rixb := 0, outCap := none, maxPixels := none, draws := 0, pixGen := 0, inbox := [], dec := Dec.init [] }

end Sys2Proof.Machine
end

