-- ==== Sys2Proof/Machine/Ops.lean ====
section
/-! DEFINITION. The named operations over memory and registers: the three memories, `OutAppend` (R55), the bit reader
(R182, R183), and taking an error, `raise` (R215), with the decoder's counterpart (R193). There is no return from an
error (R218): START is what leaves it. -/

namespace Sys2Proof.Machine

/-! How an operation ends. -/

/-- The result of a part of an operation: it goes on, it raises a cause (the operation is then abandoned, R215), it
faults, or it has no meaning. -/
inductive Res (σ : Type) where
  | ok (s : σ)
  | raised (c : Cause)
  | fault (f : Fault)
  | refused (r : Refusal)
  deriving Repr

/-- One part after another; anything but `ok` ends the operation (R217: the first failing check). -/
def Res.bind {σ τ : Type} : Res σ → (σ → Res τ) → Res τ
  | .ok s, f => f s
  | .raised c, _ => .raised c
  | .fault e, _ => .fault e
  | .refused r, _ => .refused r

/-! Memory: a list of address and content pairs, addresses strictly rising; an unlisted address holds nothing. -/

/-- The canonical form: addresses strictly rising. An unlisted address reads as no content (log entry 3), which no
entry equals. -/
def Memory.wf {α : Type} : List (Nat × α) → Bool
  | [] => true
  | (a, _) :: m => m.all (fun c => decide (a < c.1)) && Memory.wf m

/-- What was last written at `a`, if anything. -/
def Memory.read {α : Type} : List (Nat × α) → Nat → Option α
  | [], _ => none
  | (b, v) :: m, a => if b = a then some v else Memory.read m a

/-- Write `v` at `a`, keeping the canonical form. -/
def Memory.write {α : Type} : List (Nat × α) → Nat → α → List (Nat × α)
  | [], a, v => [(a, v)]
  | (b, w) :: m, a, v =>
    if a < b then (a, v) :: (b, w) :: m
    else if a = b then (a, v) :: m
    else (b, w) :: Memory.write m a v

/-- The byte PIX holds at `a`: what the host last wrote there (R52), else a free value (R40). -/
def pixByte (s : State) (a : Nat) : Byte :=
  match Memory.read s.pix a with
  | some b => b
  | none => Config.freePix s.pixGen a

/-- `MemRead(PIX, a, 1)`, for `a` below WIDTH × HEIGHT (R12, R52). -/
def readPix (s : State) (a : Nat) : Res Byte :=
  if a < dim s.width * dim s.height then .ok (pixByte s a) else .fault (.pixRange a)

/-- `MemRead(RP, y, 1 bit)`: the bit the last CLS of this call wrote (R60), else a free value (R40). -/
def rpBit (s : State) (y : Nat) : Bool :=
  match Memory.read s.rp y with
  | some b => b
  | none => Config.freeRp s.draws y

/-- `MemWrite(RP, y, 1 bit, v)`, for a row below HEIGHT (R26, R53). -/
def writeRp (s : State) (y : Nat) (v : Bool) : Res State :=
  if y < dim s.height then .ok { s with rp := Memory.write s.rp y v } else .fault (.rpRange y)

/-- The address `a` exists in OUT (R24). -/
def outExists (s : State) (a : Nat) : Bool :=
  match s.outCap with
  | none => true
  | some cap => decide (a < cap)

/-- `OutAppend(v)` (R55): raise OutputFull when OUT_LEN = OUT_CAP, else write at OUT_LEN and count it. -/
def outAppend (v : Byte) (s : State) : Res State :=
  if s.outCap = some s.outLen then .raised .outputFull
  else if outExists s s.outLen then
    .ok { s with out := Memory.write s.out s.outLen v, outLen := s.outLen + 1 }
  else .fault (.outRange s.outLen)

/-- `OutAppend` of each byte in order. -/
def outAppendAll : List Byte → State → Res State
  | [], s => .ok s
  | v :: vs, s => (outAppend v s).bind (outAppendAll vs)

/-- `w * h > MAX_PIXELS` for the parameter MAX_PIXELS, ∞ if `none` (R152, R187). -/
def exceedsPixels (maxPixels : Option Nat) (w h : Word) : Bool :=
  match maxPixels with
  | none => false
  | some m => decide (m < dim w * dim h)

/-! Unspecified state. -/

/-- G0..G3, GSZ, VAR and RIXB become unspecified, and so do the contents of RP and OUT (R40, R215): the registers take
free values, the memories list nothing, and the draw counter moves on. -/
def State.forgetInternals (s : State) : State :=
  { s with
    g0 := Config.freeByte s.draws 0, g1 := Config.freeByte s.draws 1, g2 := Config.freeByte s.draws 2,
    g3 := Config.freeByte s.draws 3, gsz := Config.freeGroupSize s.draws, var := Config.freeVariant s.draws,
    rixb := Config.freeByte s.draws 4, rp := [], out := [], draws := s.draws + 1 }

/-! Errors. -/

/-- The kind a cause belongs to (R212). -/
def Cause.kind : Cause → ErrKind
  | .noCause => .none
  | .headerTooShort | .rowIndexTruncated | .payloadExhausted | .negativeDimension => .invalidFormat
  | .outputFull | .rasterTooLarge => .outOfMemory

/-- `raise Kind(cause)`, the block's trap entry (R215): ERR and CAUSE are set, OUT_LEN is 0, PHASE is Error; WIDTH,
HEIGHT and PIX are unchanged; every other register and the contents of OUT and RP are unspecified. `s` is the state the
abandoned operation began in. -/
def raise (c : Cause) (s : State) : State :=
  { s.forgetInternals with
    err := c.kind, cause := c, outLen := 0, phase := .error,
    y := Config.freeNat s.draws 0, x := Config.freeNat s.draws 1, kidx := Config.freeNat s.draws 2,
    acc := Config.freeByte s.draws 5, nbits := Config.freeBitCount s.draws }

/-- The outcome of an operation of the block begun in `s`: a raised cause is taken as a next state (R215). -/
def Res.finish (s : State) : Res State → Host.Outcome State Fault Refusal
  | .ok t => .next t
  | .raised c => .next (raise c s)
  | .fault f => .fault f
  | .refused r => .refused r

/-- The decoder ends in `Error(kind)`: it returns kind and cause "and nothing else", the partial output is discarded
(R193). What its local variables held is gone with the call (log entry 8). -/
def Dec.fail (c : Cause) (d : Dec) : Dec :=
  { Dec.init d.input with phase := .error, err := c.kind, cause := c }

/-- The outcome of an operation of the decoder. -/
def Res.finishDec (s : State) : Res Dec → Host.Outcome State Fault Refusal
  | .ok d => .next { s with dec := d }
  | .raised c => .next { s with dec := s.dec.fail c }
  | .fault f => .fault f
  | .refused r => .refused r

/-- The operation ended the call: the sequencer does nothing more (R215, R161 last row). -/
def State.abandoned (s : State) : Bool := s.phase == .error

/-! The bit source of the decoder. -/

/-- The bit of the input at bit position `p`: bit `7 - p mod 8` of byte `p div 8` (R181). -/
def Dec.bitAt (d : Dec) (p : Nat) : Bool := (d.input.getD (p / 8) 0).getLsbD (7 - p % 8)

/-- `GETBIT()` (R182): raise PayloadExhausted at the end of the input, else the bit at POS, and POS moves on. -/
def Dec.getBit (d : Dec) : Res (Bool × Dec) :=
  if 8 * d.input.length ≤ d.pos then .raised .payloadExhausted
  else .ok (d.bitAt d.pos, { d with pos := d.pos + 1 })

/-- `GET(n)` from the value `v` so far: `repeat n times: v <- 2*v + GETBIT()` (R183). -/
def Dec.getBits : Nat → Nat → Dec → Res (Nat × Dec)
  | 0, v, d => .ok (v, d)
  | n + 1, v, d => d.getBit.bind fun (b, d') => Dec.getBits n (2 * v + b.toNat) d'

/-- Append pixels to the decoder's output. -/
def Dec.append (d : Dec) (ps : List Byte) : Dec := { d with out := d.out ++ ps }

end Sys2Proof.Machine
end

