-- ==== Sys2Proof/Machine/Operands.lean ====
section
/-! DEFINITION. What the operations read as operands: pixel addresses, group sizes, the loaded group, row-index bits,
presence bits of the decoder's input, the bits at POS. -/

namespace Sys2Proof.Machine

/-- The count as a natural (R33). -/
def GroupSize.toNat : GroupSize → Nat
  | .one => 1
  | .two => 2
  | .three => 3
  | .four => 4

/-- `gsize(x) = min(4, w - x)` for a row of width `w` (R110). -/
def groupCount (w x : Nat) : Nat := min Config.groupMax (w - x)

/-- The group start columns 0, 4, 8, ... below `w` (R110). -/
def groupStarts (w : Nat) : List Nat := (List.range ((w + 3) / 4)).map (4 * ·)

/-- The address of the first pixel of row `y`: `y × WIDTH` (R51). -/
def rowBase (s : State) (y : Nat) : Nat := y * dim s.width

/-- The `n` pixels of PIX from address `a` on, in order (R111). -/
def readPixels (s : State) : Nat → Nat → Res (List Byte)
  | _, 0 => .ok []
  | a, n + 1 => (readPix s a).bind fun p => (readPixels s (a + 1) n).bind fun ps => .ok (p :: ps)

/-- The loaded group, `G[0 .. GSZ)` (R33). -/
def State.group (s : State) : List Byte := [s.g0, s.g1, s.g2, s.g3].take s.gsz.toNat

/-- `G[i] <- p` for the pixels given, in order; the registers after the last are not written (R111). -/
def State.loadGroup (s : State) : List Byte → State
  | [p0] => { s with gsz := .one, g0 := p0 }
  | [p0, p1] => { s with gsz := .two, g0 := p0, g1 := p1 }
  | [p0, p1, p2] => { s with gsz := .three, g0 := p0, g1 := p1, g2 := p2 }
  | [p0, p1, p2, p3] => { s with gsz := .four, g0 := p0, g1 := p1, g2 := p2, g3 := p3 }
  | _ => s

/-- Row `i` counts in the row index: `i < HEIGHT and MemRead(RP, i, 1 bit) = 1` (R155). -/
def rowIndexBit (s : State) (i : Nat) : Bool := decide (i < dim s.height) && rpBit s i

/-- The row-index byte KIDX: Σ `2^j` over the `j < 8` whose row `8*KIDX + j` is present (R155). -/
def rowIndexByte (s : State) : Byte := encodePresence (fun j => rowIndexBit s (8 * s.kidx + j)) 8

/-- The number of zero bits of the final padding, `(8 - P mod 8) mod 8`, with `P mod 8 = NBITS` (R77, R135). -/
def padCount (s : State) : Nat := (8 - s.nbits.val) % 8

/-- The decoder's presence bit of row `i`: `S[8 + i div 8][i mod 8]`, LSB-first; nothing at or beyond the end of the
input (R186, R193). -/
def Dec.presence (d : Dec) (i : Nat) : Option Bool :=
  match d.input[Config.headerBytes + i / 8]? with
  | none => none
  | some b => some (b.getLsbD (i % 8))

/-- The size of the group at column `x` of the decoder's row (R189). -/
def Dec.groupCount (d : Dec) : Nat := Machine.groupCount (dim d.width) d.x

/-- The bits of the input from POS on (R181). -/
def Dec.rest (d : Dec) : Bits := (bitsOfBytes d.input).drop d.pos

end Sys2Proof.Machine
end

