-- ==== Sys2Proof/Machine/Flags.lean ====
section
/-! DEFINITION. The predicates and status fields: row presence (R100), the variant flag VAR (R112), the codes of PHASE,
ERR and CAUSE and the STATUS word (R30, R32, R211, R212). -/

namespace Sys2Proof.Machine

/-- Some pixel of the `n` from address `a` on differs from 255; every one of them is read (R101, R102). -/
def anyNotWhite (s : State) : Nat → Nat → Res Bool
  | _, 0 => .ok false
  | a, n + 1 => (readPix s a).bind fun p => (anyNotWhite s (a + 1) n).bind fun v => .ok (p != Config.white || v)

/-- The variant of a group, in the priority order of R112: all 255 is `W`, else all 0 is `K`, else `M`. -/
def variantOf (g : List Byte) : Variant :=
  if g.all (· == Config.white) then .w
  else if g.all (· == Config.black) then .k
  else .m

/-- The code of PHASE (R30). -/
def Phase.code : Phase → BitVec 3
  | .idle => 0
  | .header => 1
  | .classify => 2
  | .rowIndex => 3
  | .payload => 4
  | .flush => 5
  | .done => 6
  | .error => 7

/-- The block is busy when PHASE is 1 to 5 (R30). -/
def Phase.busy : Phase → Bool
  | .header | .classify | .rowIndex | .payload | .flush => true
  | .idle | .done | .error => false

/-- The code of ERR (R211). -/
def ErrKind.code : ErrKind → BitVec 3
  | .none => 0
  | .invalidFormat => 1
  | .outOfMemory => 2
  | .ioError => 3
  | .other => 4

/-- The code of CAUSE (R212). -/
def Cause.code : Cause → BitVec 4
  | .noCause => 0
  | .headerTooShort => 1
  | .rowIndexTruncated => 2
  | .payloadExhausted => 3
  | .negativeDimension => 4
  | .outputFull => 5
  | .rasterTooLarge => 6

/-- STATUS: bits 2:0 PHASE, bits 5:3 ERR, bits 9:6 CAUSE (R32). -/
def statusWord (s : State) : BitVec 10 := s.cause.code ++ s.err.code ++ s.phase.code

/-- The decoder runs: it is in one of the three states before a terminal one (R192). -/
def DecPhase.running : DecPhase → Bool
  | .readHeader | .readRowIndex | .decodeRow => true
  | .idle | .done | .error => false

end Sys2Proof.Machine
end

