-- ==== Sys2Proof/Machine/CodeWord.lean ====
section
/-! DEFINITION. The execution of one code word by the reference decoder: W, K, M1, M2, M3, M4. A code word is the body
of the row loop of R189 for the word that stands at POS: DGRP(n) with n = min(4, w - x) (R190), then x <- x + 4. -/

namespace Sys2Proof.Machine

/-- The word has `len` bits, which must be in the input (R212 cause 3); its pixels go to the output and the next group
begins 4 columns on (R189, R190). -/
def Dec.consume (len : Nat) (ps : List Byte) (d : Dec) : Res Dec :=
  if 8 * d.input.length < d.pos + len then .raised .payloadExhausted
  else .ok { d with pos := d.pos + len, out := d.out ++ ps, x := d.x + Config.groupMax }

/-- A word whose group is filled with one value: the count is implied by the position (R80, R81). -/
def Dec.fillWord (name : String) (len : Nat) (v : Byte) (d : Dec) : Res Dec :=
  if d.x < dim d.width then d.consume len (List.replicate d.groupCount v)
  else .refused (.wrongGroupSize name)

/-- A word that carries its pixels: `M<n>` stands only where the group has `n` pixels (R79). -/
def Dec.rawWord (name : String) (ps : List Byte) (d : Dec) : Res Dec :=
  if ps.length = d.groupCount then d.consume (2 + 8 * ps.length) ps
  else .refused (.wrongGroupSize name)

/-- W: fill the group with 255 (R190). -/
def execW (s : State) : Host.Outcome State Fault Refusal := (s.dec.fillWord "W" 1 Config.white).finishDec s

/-- K: fill the group with 0 (R190). -/
def execK (s : State) : Host.Outcome State Fault Refusal := (s.dec.fillWord "K" 2 Config.black).finishDec s

/-- M1: the group is its one raw pixel (R190). -/
def execM1 (p0 : Byte) (s : State) : Host.Outcome State Fault Refusal := (s.dec.rawWord "M1" [p0]).finishDec s

/-- M2: the group is its two raw pixels (R190). -/
def execM2 (p0 p1 : Byte) (s : State) : Host.Outcome State Fault Refusal :=
  (s.dec.rawWord "M2" [p0, p1]).finishDec s

/-- M3: the group is its three raw pixels (R190). -/
def execM3 (p0 p1 p2 : Byte) (s : State) : Host.Outcome State Fault Refusal :=
  (s.dec.rawWord "M3" [p0, p1, p2]).finishDec s

/-- M4: the group is its four raw pixels (R190). -/
def execM4 (p0 p1 p2 p3 : Byte) (s : State) : Host.Outcome State Fault Refusal :=
  (s.dec.rawWord "M4" [p0, p1, p2, p3]).finishDec s

end Sys2Proof.Machine
end

