-- ==== Sys2Proof/Machine/Packer.lean ====
section
/-! DEFINITION. The bit-stream packer, MSB-first: PUT, PUTBIT, FLUSH (R130 to R139). -/

namespace Sys2Proof.Machine

/-- `PUTBIT(b)` (R132): the bit goes to position `7 - NBITS` of ACC; the eighth bit appends the byte at once. -/
def putBit (b : Bool) (s : State) : Res State :=
  let acc := if b then s.acc + BitVec.ofNat 8 (2 ^ (7 - s.nbits.val)) else s.acc
  if s.nbits = 7 then
    (outAppend acc s).bind fun t => .ok { t with acc := 0, nbits := 0 }
  else .ok { s with acc := acc, nbits := s.nbits + 1 }

/-- `PUTBIT` of each bit in order. -/
def putBits : Bits → State → Res State
  | [], s => .ok s
  | b :: bs, s => (putBit b s).bind (putBits bs)

/-- `PUT(v, n)` within its domain (R131): the low `n` bits of `v`, most significant first. -/
def putLow (v n : Nat) (s : State) : Res State := putBits (lowbits v n) s

/-- `FLUSH()` (R133): append the partial byte if there is one. -/
def flushPacker (s : State) : Res State :=
  if s.nbits = 0 then .ok s
  else (outAppend s.acc s).bind fun t => .ok { t with acc := 0, nbits := 0 }

/-- PUT (R131); `n > 32` is outside the operation's domain (D15, U14). -/
def execPut (v : Word) (n : Nat) (s : State) : Host.Outcome State Fault Refusal :=
  if n ≤ Config.putMax then (putLow v.toNat n s).finish s else .refused (.outsideDomain "PUT")

/-- PUTBIT (R132). -/
def execPutbit (b : Bool) (s : State) : Host.Outcome State Fault Refusal := (putBit b s).finish s

/-- FLUSH (R133). -/
def execFlush (s : State) : Host.Outcome State Fault Refusal := (flushPacker s).finish s

end Sys2Proof.Machine
end

