-- ==== Sys2Proof/Machine/Container.lean ====
section
/-! DEFINITION. The container: START with its checks, HDR, RIX, PAD, FIN (R150 to R166). -/

namespace Sys2Proof.Machine

/-- The registers as START sets them before its checks (R151); G0..G3, GSZ, VAR, RIXB, RP and OUT are unspecified at
the start of a call (R40). -/
def State.cleared (s : State) : State :=
  { s.forgetInternals with
    err := .none, cause := .noCause, outLen := 0, acc := 0, nbits := 0, y := 0, x := 0, kidx := 0 }

/-- `START` when not busy (R151) with the checks of R152 in their order. -/
def beginCall (s : State) : Res State :=
  if s.width.msb || s.height.msb then .raised .negativeDimension
  else if exceedsPixels s.maxPixels s.width s.height then .raised .rasterTooLarge
  else .ok { s.cleared with phase := .header }

/-- `HDR` (R153): the eight header bytes, then Y is 0 and the phase is Classify. -/
def emitHeader (s : State) : Res State :=
  (outAppendAll (encodeHeader s.width s.height) s).bind fun t => .ok { t with y := 0, phase := .classify }

/-- `RIX` (R155): build row-index byte KIDX, append it whole, and KIDX moves on. -/
def emitRowIndex (s : State) : Res State :=
  (outAppend (rowIndexByte s) { s with rixb := rowIndexByte s }).bind fun t => .ok { t with kidx := t.kidx + 1 }

/-- `PAD` (R77): the zero bits that complete the last payload byte, appended through the packer. -/
def emitPadding (s : State) : Res State := putBits (List.replicate (padCount s) false) s

/-- START (R151); while busy it has no effect (R163). -/
def execStart (s : State) : Host.Outcome State Fault Refusal :=
  if s.phase.busy then .next s else (beginCall s).finish s

/-- HDR (R153). -/
def execHdr (s : State) : Host.Outcome State Fault Refusal := (emitHeader s).finish s

/-- RIX (R155). -/
def execRix (s : State) : Host.Outcome State Fault Refusal := (emitRowIndex s).finish s

/-- PAD (R77, R133). -/
def execPad (s : State) : Host.Outcome State Fault Refusal := (emitPadding s).finish s

/-- FIN (R160): the phase is Done. -/
def execFin (s : State) : Host.Outcome State Fault Refusal := .next { s with phase := .done }

end Sys2Proof.Machine
end

