-- ==== Sys2Proof/Machine/Decoder.lean ====
section
/-! DEFINITION. The reference decoder's operations: GETBIT, GET, DHDR, DRIX, DROW, DGRP (R180 to R193). -/

namespace Sys2Proof.Machine

/-- `append GET(8) to out`, `n` times (R190). -/
def Dec.getPixels : Nat → Dec → Res Dec
  | 0, d => .ok d
  | n + 1, d => (Dec.getBits 8 0 d).bind fun (v, d') => Dec.getPixels n (d'.append [BitVec.ofNat 8 v])

/-- `DGRP(n)` (R190): one code word read bit by bit, its `n` pixels appended. -/
def Dec.group (n : Nat) (d : Dec) : Res Dec :=
  d.getBit.bind fun (b, d1) =>
    if b then
      d1.getBit.bind fun (c, d2) =>
        if c then Dec.getPixels n d2
        else .ok (d2.append (List.replicate n Config.black))
    else .ok (d1.append (List.replicate n Config.white))

/-- The groups of a row of width `w` at the start columns given (R189). -/
def Dec.groups (w : Nat) : List Nat → Dec → Res Dec
  | [], d => .ok d
  | x :: xs, d => (d.group (Machine.groupCount w x)).bind (Dec.groups w xs)

/-- The row is decoded: the next one begins at column 0 (R188, R189). -/
def Dec.nextRow (d : Dec) : Dec := { d with y := d.y + 1, x := 0 }

/-- `DROW` (R188, R189): a row of 255 for an absent row, the groups of the row otherwise. -/
def Dec.row (d : Dec) : Res Dec :=
  if d.y < dim d.height then
    match d.presence d.y with
    | none => .fault (.inputRange (Config.headerBytes + d.y / 8))
    | some false => .ok (d.append (List.replicate (dim d.width) Config.white)).nextRow
    | some true => (Dec.groups (dim d.width) (groupStarts (dim d.width)) d).bind fun d' => .ok d'.nextRow
  else .refused (.outsideDomain "DROW")

/-- `DHDR` (R184), directly followed by the dimension check (R185). -/
def Dec.header (d : Dec) : Res Dec :=
  match decodeHeader d.input with
  | .error _ => .raised .headerTooShort
  | .ok ((w, h), _) =>
    if w.msb || h.msb then .raised .negativeDimension
    else .ok { d with width := w, height := h, phase := .readRowIndex }

/-- `DRIX` (R186), followed by the allocation check (R187). -/
def Dec.rowIndex (maxPixels : Option Nat) (d : Dec) : Res Dec :=
  let n := ceilDiv8 (dim d.height)
  if d.input.length < Config.headerBytes + n then .raised .rowIndexTruncated
  else if exceedsPixels maxPixels d.width d.height then .raised .rasterTooLarge
  else .ok { d with n := n, pos := 8 * (Config.headerBytes + n), out := [], y := 0, x := 0, phase := .decodeRow }

/-- GETBIT (R182): the bit is returned. -/
def execGetbit (s : State) : Host.Outcome State Fault Refusal :=
  (s.dec.getBit.bind fun (b, d) => .ok { d with ret := b.toNat }).finishDec s

/-- GET(n), 0 ≤ n ≤ 32 (R183): the value is returned. -/
def execGet (n : Nat) (s : State) : Host.Outcome State Fault Refusal :=
  if n ≤ Config.putMax then ((Dec.getBits n 0 s.dec).bind fun (v, d) => .ok { d with ret := v }).finishDec s
  else .refused (.outsideDomain "GET")

/-- DHDR (R184, R185). -/
def execDhdr (s : State) : Host.Outcome State Fault Refusal := s.dec.header.finishDec s

/-- DRIX (R186, R187). -/
def execDrix (s : State) : Host.Outcome State Fault Refusal := (s.dec.rowIndex s.maxPixels).finishDec s

/-- DROW (R188, R189). -/
def execDrow (s : State) : Host.Outcome State Fault Refusal := s.dec.row.finishDec s

/-- DGRP(n), 1 ≤ n ≤ 4 (R190). -/
def execDgrp (n : Nat) (s : State) : Host.Outcome State Fault Refusal :=
  if 1 ≤ n ∧ n ≤ Config.groupMax then (s.dec.group n).finishDec s else .refused (.outsideDomain "DGRP")

end Sys2Proof.Machine
end

