-- ==== Sys2Proof/Machine/GroupCoder.lean ====
section
/-! DEFINITION. The group coder: LDG, CLSG, EMW, EMK, EMM, GRP (R110 to R119). -/

namespace Sys2Proof.Machine

/-- `LDG` (R111): GSZ and the pixels of the group at (Y, X). The precondition X < WIDTH bounds its domain. -/
def loadGroup (s : State) : Res State :=
  if s.x < dim s.width then
    (readPixels s (rowBase s s.y + s.x) (groupCount (dim s.width) s.x)).bind fun ps => .ok (s.loadGroup ps)
  else .refused (.outsideDomain "LDG")

/-- `CLSG` (R112): VAR is the variant of the loaded group. -/
def classifyGroup (s : State) : State := { s with var := variantOf s.group }

/-- `EMW` (R113): `PUT(0, 1)`. -/
def emitWhite (s : State) : Res State := putLow 0 1 s

/-- `EMK` (R114): `PUT(2, 2)`. -/
def emitBlack (s : State) : Res State := putLow 2 2 s

/-- `PUT(p, 8)` for each pixel in order (R115). -/
def putPixels : List Byte → State → Res State
  | [], s => .ok s
  | p :: ps, s => (putLow p.toNat 8 s).bind (putPixels ps)

/-- `EMM` (R115): `PUT(3, 2)`, then the pixels of the loaded group, all 8 bits each. -/
def emitMixed (s : State) : Res State := (putLow 3 2 s).bind (putPixels s.group)

/-- The emit operation VAR selects (R116). -/
def emitGroup (s : State) : Res State :=
  match s.var with
  | .w => emitWhite s
  | .k => emitBlack s
  | .m => emitMixed s

/-- `GRP` (R116): load, classify, emit by VAR, and X moves on by 4. -/
def encodeGroup (s : State) : Res State :=
  (loadGroup s).bind fun t => (emitGroup (classifyGroup t)).bind fun u => .ok { u with x := u.x + Config.groupMax }

/-- LDG (R111). -/
def execLdg (s : State) : Host.Outcome State Fault Refusal := (loadGroup s).finish s

/-- CLSG (R112). -/
def execClsg (s : State) : Host.Outcome State Fault Refusal := .next (classifyGroup s)

/-- EMW (R113). -/
def execEmw (s : State) : Host.Outcome State Fault Refusal := (emitWhite s).finish s

/-- EMK (R114). -/
def execEmk (s : State) : Host.Outcome State Fault Refusal := (emitBlack s).finish s

/-- EMM (R115). -/
def execEmm (s : State) : Host.Outcome State Fault Refusal := (emitMixed s).finish s

/-- GRP (R116). -/
def execGrp (s : State) : Host.Outcome State Fault Refusal := (encodeGroup s).finish s

end Sys2Proof.Machine
end

