-- ==== Sys2Proof/Machine/RowClassifier.lean ====
section
/-! DEFINITION. The row classifier: CLS (R100 to R106). -/

namespace Sys2Proof.Machine

/-- `CLS` (R101): the presence bit of row Y goes to `RP[Y]`, and Y moves on. -/
def classifyRow (s : State) : Res State :=
  (anyNotWhite s (rowBase s s.y) (dim s.width)).bind fun v =>
    (writeRp s s.y v).bind fun t => .ok { t with y := t.y + 1 }

/-- CLS (R101). -/
def execCls (s : State) : Host.Outcome State Fault Refusal := (classifyRow s).finish s

end Sys2Proof.Machine
end

