-- ==== Sys2Proof/Machine/Dispatch.lean ====
section
/-! DEFINITION. One arm per row of spec/opcode_table.json. -/

namespace Sys2Proof.Machine

def exec (i : Instr) (s : State) : Host.Outcome State Fault Refusal :=
  match i with
  | .w => Sys2Proof.Machine.execW s
  | .k => Sys2Proof.Machine.execK s
  | .m1 p0 => Sys2Proof.Machine.execM1 p0 s
  | .m2 p0 p1 => Sys2Proof.Machine.execM2 p0 p1 s
  | .m3 p0 p1 p2 => Sys2Proof.Machine.execM3 p0 p1 p2 s
  | .m4 p0 p1 p2 p3 => Sys2Proof.Machine.execM4 p0 p1 p2 p3 s
  | .hdr => Sys2Proof.Machine.execHdr s
  | .rix => Sys2Proof.Machine.execRix s
  | .pad => Sys2Proof.Machine.execPad s
  | .start => Sys2Proof.Machine.execStart s
  | .cls => Sys2Proof.Machine.execCls s
  | .ldg => Sys2Proof.Machine.execLdg s
  | .clsg => Sys2Proof.Machine.execClsg s
  | .emw => Sys2Proof.Machine.execEmw s
  | .emk => Sys2Proof.Machine.execEmk s
  | .emm => Sys2Proof.Machine.execEmm s
  | .grp => Sys2Proof.Machine.execGrp s
  | .put v n => Sys2Proof.Machine.execPut v n s
  | .putbit b => Sys2Proof.Machine.execPutbit b s
  | .flush => Sys2Proof.Machine.execFlush s
  | .fin => Sys2Proof.Machine.execFin s
  | .getbit => Sys2Proof.Machine.execGetbit s
  | .get n => Sys2Proof.Machine.execGet n s
  | .dhdr => Sys2Proof.Machine.execDhdr s
  | .drix => Sys2Proof.Machine.execDrix s
  | .drow => Sys2Proof.Machine.execDrow s
  | .dgrp n => Sys2Proof.Machine.execDgrp n s

end Sys2Proof.Machine
end

