-- ==== Sys2Proof/Machine/HostPort.lean ====
section
/-! DEFINITION. What the host reads and writes (R32, R39), and hardware reset (R240). START is an instruction of its own
(Machine/Container.lean); the step performs it when the host writes 1 to CTRL. -/

namespace Sys2Proof.Machine

/-- Hardware reset, possible in any state (R240): every register of the block takes its reset value (R40), a running
call is abandoned, the contents of PIX, RP and OUT are unspecified. The parameters, the decoder (which is no part of the
block) and the host's later moves are not touched. -/
def State.hardReset (s : State) : State :=
  { State.reset with
    outCap := s.outCap, maxPixels := s.maxPixels, draws := s.draws + 1, pixGen := s.pixGen + 1, inbox := s.inbox,
    dec := s.dec }

/-- A host write of WIDTH: ignored while busy (R32). -/
def State.writeWidth (v : Word) (s : State) : State := if s.phase.busy then s else { s with width := v }

/-- A host write of HEIGHT: ignored while busy (R32). -/
def State.writeHeight (v : Word) (s : State) : State := if s.phase.busy then s else { s with height := v }

/-- PIX has a byte at address `a`: MAX_PIXELS is the largest raster the memory holds (R6). -/
def pixExists (s : State) (a : Nat) : Bool :=
  match s.maxPixels with
  | none => true
  | some m => decide (a < m)

/-- A host write of one byte of PIX (R39). -/
def State.pokePix (a : Nat) (b : Byte) (s : State) : State := { s with pix := Memory.write s.pix a b }

/-- A host read of register `no` (R32): CTRL reads as 0; no register beyond number 4. DESIGN CHOICE (log entry 19): a
read of WIDTH or HEIGHT while the block is busy, which R32 and R39 leave open, gives the register's value. -/
def hostReadReg (s : State) : Nat → Option Nat
  | 0 => some 0
  | 1 => some (statusWord s).toNat
  | 2 => some s.width.toNat
  | 3 => some s.height.toNat
  | 4 => some s.outLen
  | _ => none

/-- A host read of `OUT[a]`: allowed only when PHASE is Done and below OUT_LEN (R39, R64). Elsewhere, where the host must
not read, it gives no byte: log entry 12. -/
def hostReadOut (s : State) (a : Nat) : Option Byte :=
  if s.phase = .done ∧ a < s.outLen then Memory.read s.out a else none

/-- `OUT[0 .. OUT_LEN)`, the bytes appended in this call (R24, R160). -/
def outBytes (s : State) : List Byte := (List.range s.outLen).filterMap (Memory.read s.out)

/-- The beginning of a call `decode(bytes)`: a fresh decoder (R180, R192). -/
def State.callDecode (bytes : List Byte) (s : State) : State :=
  { s with dec := { Dec.init bytes with phase := .readHeader } }

end Sys2Proof.Machine
end

