-- ==== Sys2Proof/Machine/Sequencer.lean ====
section
/-! DEFINITION. What the next step does: the transition table of R161 for the block, the state machine of R192 for the
reference decoder (which fetches its code words here), and the host's pending move. -/

namespace Sys2Proof.Machine

/-- What a step does. -/
inductive Action where
  /-- run the instruction in the state -/
  | perform (i : Instr) (s : State)
  /-- run the first, and, unless it ended the call, the second in the state it left -/
  | performBoth (i j : Instr) (s : State)
  /-- a row of the table that performs no operation -/
  | become (s : State)
  | fault (f : Fault)
  | refuse (r : Refusal)

/-- The block's row of R161 for its state. -/
def blockAction (s : State) : Action :=
  match s.phase with
  | .idle | .done | .error => .become s
  | .header => .perform .hdr s
  | .classify =>
    if s.y < dim s.height then .perform .cls s
    else if s.y = dim s.height then .become { s with kidx := 0, phase := .rowIndex }
    else .refuse .noTableRow
  | .rowIndex =>
    if s.kidx < ceilDiv8 (dim s.height) then .perform .rix s
    else if s.kidx = ceilDiv8 (dim s.height) then .become { s with y := 0, x := 0, phase := .payload }
    else .refuse .noTableRow
  | .payload =>
    if s.y = dim s.height then .become { s with phase := .flush }
    else if dim s.height < s.y then .refuse .noTableRow
    else if !rpBit s s.y then .become { s with y := s.y + 1 }
    else if s.x < dim s.width then .perform .grp s
    else .become { s with y := s.y + 1, x := 0 }
  | .flush => .performBoth .flush .fin s

/-- The decoder in the middle of a present row: fetch the code word at POS for the group size there (R189, R190). Bits
running out are PayloadExhausted (R182). -/
def fetchAction (s : State) : Action :=
  match decodeWord s.dec.groupCount s.dec.rest with
  | .ok (i, _) => .perform i s
  | .error .payloadExhausted => .become { s with dec := s.dec.fail .payloadExhausted }
  | .error _ => .refuse .noTableRow

/-- The decoder's step (R192): ReadHeader, ReadRowIndex, the rows, Done. -/
def decAction (s : State) : Action :=
  match s.dec.phase with
  | .idle | .done | .error => .become s
  | .readHeader => .perform .dhdr s
  | .readRowIndex => .perform .drix s
  | .decodeRow =>
    if s.dec.y = dim s.dec.height then .become { s with dec := { s.dec with phase := .done } }
    else if dim s.dec.height < s.dec.y then .refuse .noTableRow
    else match s.dec.presence s.dec.y with
      | none => .fault (.inputRange (Config.headerBytes + s.dec.y / 8))
      | some false => .perform .drow s
      | some true =>
        if s.dec.x < dim s.dec.width then fetchAction s
        else .become { s with dec := s.dec.nextRow }

/-- A quiet host: the block goes on while it is busy, else the decoder while it runs, else nothing changes (R161 row 2;
log entry 6). -/
def machineAction (s : State) : Action :=
  if s.phase.busy then blockAction s
  else if s.dec.phase.running then decAction s
  else .become s

/-- One move of the host (R32, R39, R240, R180); `s` is the state without it. -/
def hostAction (m : HostMove) (s : State) : Action :=
  match m with
  | .writeReg 0 v => if v.getLsbD 0 then .perform .start s else .become s
  | .writeReg 2 v => .become (s.writeWidth v)
  | .writeReg 3 v => .become (s.writeHeight v)
  | .writeReg 1 _ => .refuse (.readOnlyRegister 1)
  | .writeReg 4 _ => .refuse (.readOnlyRegister 4)
  | .writeReg no _ => .refuse (.noSuchRegister no)
  | .writePix a b =>
    if s.phase.busy then .refuse .pixWriteWhileBusy
    else if pixExists s a then .become (s.pokePix a b)
    else .fault (.pixCapacity a)
  | .reset => .become s.hardReset
  | .decode bytes => .become (s.callDecode bytes)
  | .wait => machineAction s

/-- What the next step does: the host's next move if one is pending (log entry 5). -/
def nextAction (s : State) : Action :=
  match s.inbox with
  | [] => machineAction s
  | m :: rest => hostAction m { s with inbox := rest }

/-! Placing an instruction where the next step runs it. -/

/-- A decoder at the first and only group of a present row of `n` pixels, its payload beginning with `bytes` (R70). -/
def Dec.atWord (n : Nat) (bytes : List Byte) : Dec :=
  { Dec.init (encodeHeader (BitVec.ofNat 32 n) 1 ++ 1#8 :: bytes) with
    width := BitVec.ofNat 32 n, height := 1, n := 1, pos := 8 * (Config.headerBytes + 1), phase := .decodeRow }

/-- The state `s` with a code word of a group of `n` pixels at the decoder's POS, the decoder's turn being next. -/
def State.placeWord (n : Nat) (bytes : List Byte) (s : State) : State :=
  { s with phase := if s.phase.busy then .idle else s.phase, inbox := [], dec := Dec.atWord n bytes }

/-- The state `s` about to perform HDR with the field's integers in WIDTH and HEIGHT. -/
def State.placeHeader (w h : Word) (s : State) : State :=
  { s with width := w, height := h, phase := .header, inbox := [] }

/-- The state `s` with the instruction whose bits are `w` where the next step runs it: a code word at the decoder's POS,
the header's integers in the registers HDR reads. Bits that are no instruction leave `s` as it is (log entry 9). -/
def State.placeTableWord (s : State) (nbits w : Nat) : State :=
  match tablePosition nbits, fieldOfTable nbits w with
  | some .header, .ok (.hdr width height) => s.placeHeader width height
  | some (.payload n), .ok (.word _) => s.placeWord n (tableBytes nbits w)
  | _, _ => s

end Sys2Proof.Machine
end

