-- ==== Sys2Proof/Machine/Step.lean ====
section
/-! DEFINITION. One step: what the sequencer selects, run by exec. -/

namespace Sys2Proof.Machine

/-- Run what a step does. -/
def runAction : Action → Host.Outcome State Fault Refusal
  | .perform i s => exec i s
  | .performBoth i j s =>
    match exec i s with
    | .next t => if t.abandoned then .next t else exec j t
    | o => o
  | .become s => .next s
  | .fault f => .fault f
  | .refuse r => .refused r

/-- One step of the machine (R161, R192). -/
def step (s : State) : Host.Outcome State Fault Refusal := runAction (nextAction s)

/-- The state with an instruction's bits where the next step fetches them (log entry 9). -/
def State.withFetchWord (s : State) (nbits w : Nat) : State := s.placeTableWord nbits w

end Sys2Proof.Machine
end

