-- ==== Sys2Proof/Machine/Functional.lean ====
section
/-! DEFINITION. The functional definition of the result of a call, `encode(w, h, pix)` (R14), and the reference decoder
as one function, `decode(bytes)` (R180): what the step-by-step machine is held to (R13, R165, R192). -/

namespace Sys2Proof.Machine

/-- `present(y)`: some pixel of the row differs from 255 (R14, R100). `px` gives the pixel at an address. -/
def presentRow (px : Nat → Byte) (w y : Nat) : Bool := (List.range w).any fun x => px (y * w + x) != Config.white

/-- `group(y, x)`: the pixels of the group at column `x` of row `y` (R14, R110). -/
def groupAt (px : Nat → Byte) (w y x : Nat) : List Byte :=
  (List.range (groupCount w x)).map fun i => px (y * w + x + i)

/-- `rowbits(y)`: the codes of the row's groups, left to right (R14, R158). -/
def rowBits (px : Nat → Byte) (w y : Nat) : Bits := (groupStarts w).flatMap fun x => codeOfGroup (groupAt px w y x)

/-- `payload`: the bits of the present rows, ascending (R14, R75). -/
def payloadBits (px : Nat → Byte) (w h : Nat) : Bits :=
  (List.range h).flatMap fun y => if presentRow px w y then rowBits px w y else []

/-- `rowindex`: the row-index bytes (R14, R73, R74). -/
def rowIndexBytes (px : Nat → Byte) (w h : Nat) : List Byte :=
  (List.range (ceilDiv8 h)).map fun k =>
    encodePresence (fun j => decide (8 * k + j < h) && presentRow px w (8 * k + j)) 8

/-- `encode(w, h, pix)` (R14). -/
def encodeRaster (width height : Word) (px : Nat → Byte) : List Byte :=
  encodeHeader width height ++ rowIndexBytes px (dim width) (dim height)
    ++ pack (payloadBits px (dim width) (dim height))

/-- A decoded raster (R191). -/
structure Raster where
  width : Word
  height : Word
  pixels : List Byte
  deriving DecidableEq, Repr

/-- `DROW` for `n` rows (R192). -/
def Dec.rows : Nat → Dec → Res Dec
  | 0, d => .ok d
  | n + 1, d => d.row.bind (Dec.rows n)

/-- `decode(bytes)`: DHDR, DRIX, then DROW for each row (R192); the result is the raster, or the cause raised (R191,
R193). -/
def decodeStream (maxPixels : Option Nat) (bytes : List Byte) : Res Raster :=
  (Dec.header (Dec.init bytes)).bind fun d =>
    (d.rowIndex maxPixels).bind fun d =>
      (Dec.rows (dim d.height) d).bind fun d => .ok ⟨d.width, d.height, d.out⟩

end Sys2Proof.Machine
end

