-- ==== Sys2Proof/Safety.lean ====
section
/-! DEFINITION. What the claims speak of: room in OUT, the packer's invariant, the bits that reached the sink, the
invariants of the block and of the decoder. -/

namespace Sys2Proof.Machine

/-- OUT can take `k` more bytes (R55). -/
def State.room (s : State) (k : Nat) : Prop := ∀ cap, s.outCap = some cap → s.outLen + k ≤ cap

/-- R37: `ACC[7 - NBITS : 0] = 0`, every position not yet filled is zero. -/
def State.packerClean (s : State) : Prop := ∀ i, i < 8 - s.nbits.val → s.acc.getLsbD i = false

/-- OUT holds the bytes at 0, 1, ..., OUT_LEN - 1 (R24, R55) and, the model's choice of log entry 3, no other: R24 leaves
the bytes at and above OUT_LEN unspecified. -/
def State.outDense (s : State) : Prop := s.out.map Prod.fst = List.range s.outLen

/-- OUT_LEN does not exceed OUT_CAP (R24). -/
def State.outWithinCap (s : State) : Prop := s.room 0

/-- The bits received so far: those of the appended bytes, then the NBITS bits in the high positions of ACC (R35, R135). -/
def State.sink (s : State) : Bits := bitsOfBytes (outBytes s) ++ (bits8 s.acc).take s.nbits.val

/-- The packer and OUT are in order: R37, and OUT append-only from 0 on. -/
def State.sinkReady (s : State) : Prop := s.packerClean ∧ s.outDense

/-- Every address of OUT outside the bytes stored from `s` to `t`, which are those from the old OUT_LEN up to the new,
reads in `t` as in `s` (R55; of the addresses at and above the new OUT_LEN, unspecified by R24, log entry 3). -/
def OutKept (s t : State) : Prop :=
  ∀ a, a < s.outLen ∨ t.outLen ≤ a → Memory.read t.out a = Memory.read s.out a

/-- `t` is `s` after the packer has received `bits` and nothing else has happened: the bits are appended, ACC, NBITS, OUT
and OUT_LEN are all that changed, OUT reads as before outside the appended bytes, and the sink is again in order. -/
def Emits (s t : State) (bits : Bits) : Prop :=
  t.sink = s.sink ++ bits ∧ t.sinkReady ∧ s.outLen ≤ t.outLen ∧
  OutKept s t ∧
  t = { s with acc := t.acc, nbits := t.nbits, out := t.out, outLen := t.outLen }

/-- The instruction emits `bits`: where they fit, the next state is `s` with exactly those bits received; where a byte they
complete does not fit, the call ends in OutputFull (R131, R137, R213). -/
def EmitsOrRaises (i : Instr) (s : State) (bits : Bits) : Prop :=
  (s.sinkReady → s.room ((s.nbits.val + bits.length) / 8) → ∃ t, exec i s = .next t ∧ Emits s t bits) ∧
  (∀ cap, s.outCap = some cap → s.outLen ≤ cap → cap < s.outLen + (s.nbits.val + bits.length) / 8 →
    exec i s = .next (raise .outputFull s))

/-- The three memories are in their canonical form. -/
def State.memoryCanonical (s : State) : Prop :=
  Memory.wf s.pix = true ∧ Memory.wf s.rp = true ∧ Memory.wf s.out = true

/-- R31: ERR is not 0 exactly when PHASE is Error, and ERR is the kind of CAUSE (R212). -/
def State.statusConsistent (s : State) : Prop :=
  (s.err ≠ .none ↔ s.phase = .error) ∧ s.err = s.cause.kind

/-- R27, R28, R29: in every busy phase Y, KIDX and X are in their ranges, X a multiple of 4. -/
def State.countersInRange (s : State) : Prop :=
  s.phase.busy = true →
    s.y ≤ dim s.height ∧ s.kidx ≤ ceilDiv8 (dim s.height) ∧ s.x ≤ dim s.width + 3 ∧ s.x % 4 = 0

/-- What the rows of R161 need of the counters: the ranges of Y, KIDX and X in the phases whose rows read them. -/
def State.countersFitTable (s : State) : Prop :=
  (s.phase = .classify → s.y ≤ dim s.height) ∧
  (s.phase = .rowIndex → s.kidx ≤ ceilDiv8 (dim s.height)) ∧
  (s.phase = .payload → s.y ≤ dim s.height ∧ s.x ≤ dim s.width + 3 ∧ s.x % 4 = 0)

/-- The pixels a code word gives a group of `n` pixels (R119, R190). -/
def wordPixels (n : Nat) : Instr → List Byte
  | .w => List.replicate n Config.white
  | .k => List.replicate n Config.black
  | .m1 p0 => [p0]
  | .m2 p0 p1 => [p0, p1]
  | .m3 p0 p1 p2 => [p0, p1, p2]
  | .m4 p0 p1 p2 p3 => [p0, p1, p2, p3]
  | _ => []

/-- The length in bits of a code word (R78, R118). -/
def wordLength : Instr → Nat
  | .w => 1
  | .k => 2
  | .m1 _ => 10
  | .m2 _ _ => 18
  | .m3 _ _ _ => 26
  | .m4 _ _ _ _ => 34
  | _ => 0

/-- What the bits `s` give the groups at the columns listed, in a row of width `w`, one code word a group: their pixels
and the number of bits read, or why the words cannot be read (R189, R190; any words, R196). -/
def rowWords (w : Nat) : List Nat → Bits → Except Reject (List Byte × Nat)
  | [], _ => .ok ([], 0)
  | x :: xs, s =>
    match decodeWord (groupCount w x) s with
    | .error e => .error e
    | .ok (i, r) =>
      match rowWords w xs r with
      | .error e => .error e
      | .ok (ps, k) => .ok (wordPixels (groupCount w x) i ++ ps, wordLength i + k)

/-- Where the decoder stands in its input and its output while it decodes rows: POS is within the input, the row-index
bytes are there, and the output holds whole rows and whole groups (R181, R186, R189). -/
def Dec.rowsInOrder (d : Dec) : Prop :=
  d.phase = .decodeRow →
    d.pos ≤ 8 * d.input.length ∧ Config.headerBytes + ceilDiv8 (dim d.height) ≤ d.input.length ∧
    d.y ≤ dim d.height ∧ (d.y = dim d.height → d.x = 0) ∧ (d.presence d.y = some false → d.x = 0) ∧
    d.out.length = d.y * dim d.width + min d.x (dim d.width)

/-- The number of table rows of R161 taken from phase Header to the end of the call, at most: the bound of R162 without
the row of START. -/
def callBound (w h : Nat) : Nat := 1 + (h + 1) + (ceilDiv8 h + 1) + (h * ((w + 3) / 4 + 1) + 1) + 1

/-- The block has just taken START successfully (R151), with a quiet host; that OUT then lists nothing is log entry 3. -/
def State.callBegun (s : State) : Prop :=
  s.phase = .header ∧ s.inbox = [] ∧ s.outLen = 0 ∧ s.out = [] ∧ s.acc = 0 ∧ s.nbits = 0

/-- A finished decoding holds `w × h` pixels (R191). -/
def Dec.resultComplete (d : Dec) : Prop :=
  d.phase = .done → d.out.length = dim d.width * dim d.height

end Sys2Proof.Machine
end

