-- ==== Sys2Proof/Certificates/Slice0/Obligations.lean ====
section
/-! DEFINITION. The statements for the provers, each naming the rules of spec/ it formalises. -/

open Sys2Proof Sys2Proof.Machine

/-! ## Encodings -/

/-- R78, R79, R81, R82: the bits of a code word, followed by anything, decode at a group of its size to that word, with
every operand, and leave what followed. -/
def Obligations.CodeWordDecodesBack : Prop :=
  ∀ (i : Instr) (bits rest : Bits) (n : Nat), encode i = some bits → i.fitsGroup n = true →
    decodeWord n (bits ++ rest) = .ok (i, rest)

/-- R78, R79, R82: what decodes to a code word is that word's bits followed by the rest, at a group of its size. -/
def Obligations.DecodedWordIsItsBits : Prop :=
  ∀ (n : Nat) (s rest : Bits) (i : Instr), decodeWord n s = .ok (i, rest) →
    ∃ bits, encode i = some bits ∧ s = bits ++ rest ∧ i.fitsGroup n = true

/-- R79, R85: the prefix set is complete and no code word is reserved, so at a group of 1 to 4 pixels every bit string
of at least 2 + 8n bits begins with a code word. -/
def Obligations.EveryBitStringHasAWord : Prop :=
  ∀ (n : Nat) (s : Bits), 1 ≤ n → n ≤ 4 → 2 + 8 * n ≤ s.length →
    ∃ i rest, decodeWord n s = .ok (i, rest) ∧ i.fitsGroup n = true

/-- Words written out bit by bit from R78, R71 and R73 (95_test_vectors.md 2.2, 2.4, 2.5). -/
def Obligations.SpecWordsDecode : Prop :=
  decodeWord 4 [false] = .ok (.w, []) ∧
  decodeWord 3 [true, false] = .ok (.k, []) ∧
  decodeWord 1 [true, true, false, true, false, true, true, false, true, false] = .ok (.m1 0x5A#8, []) ∧
  decodeWord 2 [true, true, true, true, true, true, true, true, true, true, false, false, false, false, false, false,
    false, false] = .ok (.m2 255#8 0#8, []) ∧
  decodeHeader [0x80#8, 0x07#8, 0#8, 0#8, 0x38#8, 0x04#8, 0#8, 0#8] = .ok ((1920#32, 1080#32), []) ∧
  presenceBits 0x0A#8 = [false, true, false, true, false, false, false, false]

/-- R71, R11 (the byte order is the spec's own decision D1): the header's eight bytes are the two integers, least
significant byte first, and read back as the two integers, whatever follows. -/
def Obligations.HeaderIsLittleEndian : Prop :=
  ∀ (w h : Word) (rest : List Byte),
    (encodeHeader w h).map BitVec.toNat =
      [w.toNat % 256, w.toNat / 256 % 256, w.toNat / 65536 % 256, w.toNat / 16777216,
       h.toNat % 256, h.toNat / 256 % 256, h.toNat / 65536 % 256, h.toNat / 16777216] ∧
    decodeHeader (encodeHeader w h ++ rest) = .ok ((w, h), rest)

/-- R73: the row-index byte of eight presence bits reads back as those bits, item `j` at bit `j`. -/
def Obligations.PresenceByteReadsBack : Prop :=
  ∀ f : Nat → Bool, presenceBits (encodePresence f 8) = (List.range 8).map f

/-- R119 (the spec's own derivation): where the code of a group of `n` pixels stands at the decoder's POS, DGRP(n) gives
the group back, whatever the group, and consumes exactly the code; the decoder's other variables and all of the block
are unchanged. -/
def Obligations.GroupCodeIsLossless : Prop :=
  ∀ (s : State) (g : List Byte) (r : Bits), 1 ≤ g.length → g.length ≤ 4 → s.dec.rest = codeOfGroup g ++ r →
    exec (.dgrp g.length) s = .next { s with dec := { s.dec with
      pos := s.dec.pos + (codeOfGroup g).length, out := s.dec.out ++ g } }

/-! ## The packer -/

/-- R131: PUT(v, n) appends the low n bits of v, most significant first, and changes nothing but the packer and OUT; a
byte that does not fit ends the call in OutputFull; PUT(v, 0) changes nothing. -/
def Obligations.PutAppendsLowBits : Prop :=
  (∀ (s : State) (v : Word) (n : Nat), n ≤ 32 → EmitsOrRaises (.put v n) s (lowbits v.toNat n)) ∧
  (∀ (s : State) (v : Word), exec (.put v 0) s = .next s)

/-- R132: PUTBIT(b) adds b at position 7 - NBITS and counts it; the eighth bit appends the byte at once and empties the
packer, or raises OutputFull when OUT is full. Nothing else changes. -/
def Obligations.PutbitPlacesOneBit : Prop :=
  ∀ (s : State) (b : Bool) (acc : Byte), acc = s.acc + BitVec.ofNat 8 (b.toNat * 2 ^ (7 - s.nbits.val)) →
    (s.nbits.val < 7 → ∃ t, exec (.putbit b) s = .next t ∧ t.nbits.val = s.nbits.val + 1 ∧
      t = { s with acc := acc, nbits := t.nbits }) ∧
    (s.nbits.val = 7 → s.room 1 → exec (.putbit b) s = .next { s with
      out := Memory.write s.out s.outLen acc, outLen := s.outLen + 1, acc := 0, nbits := 0 }) ∧
    (s.nbits.val = 7 → s.outCap = some s.outLen → exec (.putbit b) s = .next (raise .outputFull s))

/-- R133: FLUSH appends ACC and empties the packer when NBITS > 0, does nothing when NBITS = 0, and raises OutputFull
when the byte does not fit; nothing else changes. -/
def Obligations.FlushAppendsThePartialByte : Prop :=
  ∀ s : State,
    (s.nbits.val = 0 → exec .flush s = .next s) ∧
    (0 < s.nbits.val → s.room 1 → exec .flush s = .next { s with
      out := Memory.write s.out s.outLen s.acc, outLen := s.outLen + 1, acc := 0, nbits := 0 }) ∧
    (0 < s.nbits.val → s.outCap = some s.outLen → exec .flush s = .next (raise .outputFull s))

/-- R77, R133, R134: the final padding fills the low positions of the last byte with zeros. PAD appends (8 - NBITS) mod
8 zero bits and nothing else, which is what FLUSH does; with NBITS = 0 there is no padding, else the byte ACC, its
filled positions high, is appended. That the row PAD is executed so is the model's reading, log entry 13. -/
def Obligations.PaddingCompletesTheLastByte : Prop :=
  ∀ s : State,
    EmitsOrRaises .pad s (List.replicate ((8 - s.nbits.val) % 8) false) ∧
    exec .pad s = exec .flush s ∧
    (s.nbits.val = 0 → exec .pad s = .next s) ∧
    (0 < s.nbits.val → s.room 1 → exec .pad s = .next { s with
      out := Memory.write s.out s.outLen s.acc, outLen := s.outLen + 1, acc := 0, nbits := 0 })

/-- R136 (the spec's own derivation): PUT(v, a + b) has the same effect as PUT(v div 2^b, a); PUT(v, b), the second not
performed when the first ended the call. -/
def Obligations.PutSplits : Prop :=
  ∀ (s t : State) (v : Word) (a b : Nat), a + b ≤ 32 → s.phase ≠ .error → exec (.put (v >>> b) a) s = .next t →
    exec (.put v (a + b)) s = if t.phase = .error then .next t else exec (.put v b) t

/-! ## The group coder and the row classifier -/

/-- R113, R114: EMW emits the single bit 0, EMK the bits 1 0; nothing else changes, and a byte that does not fit ends
the call in OutputFull. -/
def Obligations.ShortWordsAreEmitted : Prop :=
  ∀ s : State, EmitsOrRaises .emw s [false] ∧ EmitsOrRaises .emk s [true, false]

/-- R115: EMM emits 1 1 and the pixels of the loaded group in order, all 8 bits of each. -/
def Obligations.EmmEmitsRawPixels : Prop :=
  ∀ s : State, EmitsOrRaises .emm s (true :: true :: s.group.flatMap bits8)

/-- R111: within its precondition LDG loads GSZ = min(4, WIDTH - X) and the pixels at (Y, X) from PIX; it writes no
register Gi with i ≥ GSZ (log entry 16) and nothing else. -/
def Obligations.LdgLoadsTheGroup : Prop :=
  ∀ s : State, s.y < dim s.height → s.x < dim s.width →
    ∃ t, exec .ldg s = .next t ∧ t.gsz.toNat = min 4 (dim s.width - s.x) ∧
      t.group = (List.range (min 4 (dim s.width - s.x))).map (fun i => pixByte s (s.y * dim s.width + s.x + i)) ∧
      (t.gsz.toNat ≤ 1 → t.g1 = s.g1) ∧ (t.gsz.toNat ≤ 2 → t.g2 = s.g2) ∧ (t.gsz.toNat ≤ 3 → t.g3 = s.g3) ∧
      t = { s with gsz := t.gsz, g0 := t.g0, g1 := t.g1, g2 := t.g2, g3 := t.g3 }

/-- R112: CLSG sets VAR to W when every pixel of the group is 255, else to K when every one is 0, else to M, and changes
nothing else. -/
def Obligations.ClsgClassifiesTheGroup : Prop :=
  ∀ s : State, ∃ t, exec .clsg s = .next t ∧ t = { s with var := t.var } ∧
    (t.var = .w ↔ ∀ p ∈ s.group, p = 255#8) ∧
    (t.var = .k ↔ (∃ p ∈ s.group, p ≠ 255#8) ∧ ∀ p ∈ s.group, p = 0#8) ∧
    (t.var = .m ↔ (∃ p ∈ s.group, p ≠ 255#8) ∧ ∃ p ∈ s.group, p ≠ 0#8)

/-- R116: GRP loads and classifies the group at (Y, X), emits its code, and adds 4 to X; when the code does not fit the
call ends in OutputFull (X is then unspecified like every internal register, R215). It changes only the group coder, the
packer, OUT and X. -/
def Obligations.GrpEncodesOneGroup : Prop :=
  ∀ (s : State) (g : List Byte), s.y < dim s.height → s.x < dim s.width →
    g = groupAt (pixByte s) (dim s.width) s.y s.x →
    (s.sinkReady → s.room ((s.nbits.val + (codeOfGroup g).length) / 8) →
      ∃ t, exec .grp s = .next t ∧ t.x = s.x + 4 ∧ t.group = g ∧ t.gsz.toNat = min 4 (dim s.width - s.x) ∧
        t.var = variantOf g ∧ t.sink = s.sink ++ codeOfGroup g ∧ t.sinkReady ∧ OutKept s t ∧
        t = { s with gsz := t.gsz, g0 := t.g0, g1 := t.g1, g2 := t.g2, g3 := t.g3, var := t.var, acc := t.acc,
                     nbits := t.nbits, out := t.out, outLen := t.outLen, x := t.x }) ∧
    (∀ cap, s.outCap = some cap → s.outLen ≤ cap → cap < s.outLen + (s.nbits.val + (codeOfGroup g).length) / 8 →
      exec .grp s = .next (raise .outputFull s))

/-- R100, R101: for a row of the raster CLS writes RP[Y], 1 exactly when some pixel of the row differs from 255, and
adds 1 to Y; every other bit of RP, all of PIX and OUT and every other register are unchanged. -/
def Obligations.ClsWritesThePresenceBit : Prop :=
  ∀ s : State, s.y < dim s.height →
    ∃ t, exec .cls s = .next t ∧ t.y = s.y + 1 ∧
      (rpBit t s.y = true ↔ ∃ x, x < dim s.width ∧ pixByte s (s.y * dim s.width + x) ≠ 255#8) ∧
      (∀ i, i ≠ s.y → Memory.read t.rp i = Memory.read s.rp i) ∧
      t = { s with rp := t.rp, y := t.y }

/-- R106 (the spec's own derivation): a row is present exactly when some group of it is not AllWhite. -/
def Obligations.PresentRowHasANonWhiteGroup : Prop :=
  ∀ (px : Nat → Byte) (w y : Nat),
    presentRow px w y = true ↔ ∃ x ∈ groupStarts w, variantOf (groupAt px w y x) ≠ .w

/-! ## The container -/

/-- R151 (the spec's decision D8): START, when not busy and when the checks of R152 pass, begins a call: ERR, CAUSE,
OUT_LEN, ACC, NBITS, Y, X and KIDX are 0 and PHASE is Header; WIDTH, HEIGHT, PIX, the parameters and the decoder are
unchanged. OUT, which R40 leaves unspecified, lists nothing: the model's choice, log entry 3. With no host move pending
the state is one in which a call has begun, from which the statements about whole calls go on. -/
def Obligations.StartBeginsACall : Prop :=
  ∀ s : State, s.phase.busy = false → 0 ≤ s.width.toInt → 0 ≤ s.height.toInt →
    (∀ m, s.maxPixels = some m → s.width.toNat * s.height.toNat ≤ m) →
    ∃ t, exec .start s = .next t ∧ t.phase = .header ∧ t.err = .none ∧ t.cause = .noCause ∧ t.outLen = 0 ∧
      t.acc = 0 ∧ t.nbits = 0 ∧ t.y = 0 ∧ t.x = 0 ∧ t.kidx = 0 ∧ t.width = s.width ∧ t.height = s.height ∧
      t.pix = s.pix ∧ t.pixGen = s.pixGen ∧ t.outCap = s.outCap ∧ t.maxPixels = s.maxPixels ∧ t.inbox = s.inbox ∧
      t.dec = s.dec ∧ t.out = [] ∧ (s.inbox = [] → t.callBegun)

/-- R152, R163, R217 (the spec's decisions D3, D5, D8, D10): START while busy changes nothing; otherwise a negative
dimension raises NegativeDimension, which has priority, and a raster beyond MAX_PIXELS raises RasterTooLarge. -/
def Obligations.StartChecksInOrder : Prop :=
  ∀ s : State,
    (s.phase.busy = true → exec .start s = .next s) ∧
    (s.phase.busy = false → (s.width.toInt < 0 ∨ s.height.toInt < 0) →
      exec .start s = .next (raise .negativeDimension s)) ∧
    (s.phase.busy = false → 0 ≤ s.width.toInt → 0 ≤ s.height.toInt →
      (∃ m, s.maxPixels = some m ∧ m < s.width.toNat * s.height.toNat) →
      exec .start s = .next (raise .rasterTooLarge s))

/-- R153 (byte order: the spec's decision D1): HDR appends the eight header bytes, sets Y to 0 and PHASE to Classify,
and changes nothing else; when they do not all fit the call ends in OutputFull. -/
def Obligations.HdrEmitsTheHeader : Prop :=
  ∀ s : State,
    (s.room 8 → ∃ t, exec .hdr s = .next t ∧ outBytes t = outBytes s ++ le32 s.width ++ le32 s.height ∧
      t.outLen = s.outLen + 8 ∧ t.y = 0 ∧ t.phase = .classify ∧ OutKept s t ∧
      t = { s with out := t.out, outLen := t.outLen, y := t.y, phase := t.phase }) ∧
    (∀ cap, s.outCap = some cap → s.outLen ≤ cap → cap < s.outLen + 8 →
      exec .hdr s = .next (raise .outputFull s))

/-- R155 (the zero bits above HEIGHT are the spec's decision D2): RIX builds the byte whose bit j is 1 exactly when row
8*KIDX + j is below HEIGHT and present, leaves it in RIXB, appends it, and adds 1 to KIDX, changing nothing else; when
it does not fit the call ends in OutputFull. -/
def Obligations.RixEmitsTheRowIndexByte : Prop :=
  ∀ s : State,
    (s.room 1 → ∃ t, exec .rix s = .next t ∧ outBytes t = outBytes s ++ [t.rixb] ∧ t.outLen = s.outLen + 1 ∧
      (∀ j, j < 8 → (t.rixb.getLsbD j = true ↔ 8 * s.kidx + j < dim s.height ∧ rpBit s (8 * s.kidx + j) = true)) ∧
      t.kidx = s.kidx + 1 ∧ OutKept s t ∧
      t = { s with rixb := t.rixb, out := t.out, outLen := t.outLen, kidx := t.kidx }) ∧
    (s.outCap = some s.outLen → exec .rix s = .next (raise .outputFull s))

/-- R160: FIN sets PHASE to Done and changes nothing else; with a quiet host and no decoding running, the machine then
stays as it is. -/
def Obligations.FinEndsTheCall : Prop :=
  ∀ s : State, ∃ t, exec .fin s = .next t ∧ t.phase = .done ∧ t = { s with phase := t.phase } ∧
    (s.inbox = [] → s.dec.phase.running = false → step t = .next t)

/-! ## The reference decoder -/

/-- R182: GETBIT returns the next bit of the input, MSB-first within each byte, and moves POS on by one; at the end of
the input the decoding ends in PayloadExhausted. -/
def Obligations.GetbitReadsTheNextBit : Prop :=
  ∀ s : State,
    (∀ (a j : Nat) (byte : Byte), s.dec.input[a]? = some byte → j < 8 → s.dec.pos = 8 * a + j →
      exec .getbit s = .next { s with dec := { s.dec with
        pos := s.dec.pos + 1, ret := (byte.getLsbD (7 - j)).toNat } }) ∧
    (8 * s.dec.input.length ≤ s.dec.pos →
      exec .getbit s = .next { s with dec := s.dec.fail .payloadExhausted })

/-- R183: GET(n) where the bits that PUT(v, n) appends stand at POS returns v mod 2^n and moves POS on by n; with fewer
than n bits left the decoding ends in PayloadExhausted. -/
def Obligations.GetReadsBackPut : Prop :=
  ∀ (s : State) (n : Nat), n ≤ 32 →
    (∀ (v : Nat) (r : Bits), s.dec.rest = lowbits v n ++ r →
      exec (.get n) s = .next { s with dec := { s.dec with pos := s.dec.pos + n, ret := v % 2 ^ n } }) ∧
    (s.dec.rest.length < n → exec (.get n) s = .next { s with dec := s.dec.fail .payloadExhausted })

/-- R184, R185 (the spec's decisions D1, D3): DHDR takes width and height from the first eight bytes; fewer bytes end in
HeaderTooShort, a negative integer in NegativeDimension. -/
def Obligations.DhdrReadsTheHeader : Prop :=
  ∀ s : State,
    (s.dec.input.length < 8 → exec .dhdr s = .next { s with dec := s.dec.fail .headerTooShort }) ∧
    (∀ (w h : Word) (rest : List Byte), s.dec.input = encodeHeader w h ++ rest →
      (w.toInt < 0 ∨ h.toInt < 0 → exec .dhdr s = .next { s with dec := s.dec.fail .negativeDimension }) ∧
      (0 ≤ w.toInt → 0 ≤ h.toInt → exec .dhdr s = .next { s with dec := { s.dec with
        width := w, height := h, phase := .readRowIndex } }))

/-- R186, R187 (the order of the checks is the spec's decision D22): DRIX sets N = ceil(h / 8) and POS to the payload's
first bit and begins the rows; a row index that is not all there ends in RowIndexTruncated, and then a raster beyond
MAX_PIXELS in RasterTooLarge. -/
def Obligations.DrixLocatesTheRowIndex : Prop :=
  ∀ (s : State) (n : Nat), 0 ≤ s.dec.width.toInt → 0 ≤ s.dec.height.toInt → n = (s.dec.height.toNat + 7) / 8 →
    (s.dec.input.length < 8 + n → exec .drix s = .next { s with dec := s.dec.fail .rowIndexTruncated }) ∧
    (8 + n ≤ s.dec.input.length → (∃ m, s.maxPixels = some m ∧ m < s.dec.width.toNat * s.dec.height.toNat) →
      exec .drix s = .next { s with dec := s.dec.fail .rasterTooLarge }) ∧
    (8 + n ≤ s.dec.input.length → (∀ m, s.maxPixels = some m → s.dec.width.toNat * s.dec.height.toNat ≤ m) →
      exec .drix s = .next { s with dec := { s.dec with
        n := n, pos := 8 * (8 + n), out := [], y := 0, x := 0, phase := .decodeRow } })

/-- R188: DROW on a row whose presence bit, bit `y mod 8` of byte `8 + y div 8`, is 0 appends w bytes 255 and moves to
the next row; POS is unchanged. -/
def Obligations.DrowFillsAnAbsentRow : Prop :=
  ∀ (s : State) (b : Byte), s.dec.y < dim s.dec.height → s.dec.input[8 + s.dec.y / 8]? = some b →
    b.getLsbD (s.dec.y % 8) = false →
    exec .drow s = .next { s with dec := { s.dec with
      out := s.dec.out ++ List.replicate (dim s.dec.width) 255#8, y := s.dec.y + 1, x := 0 } }

/-- R189, R190, R196: DROW on a present row reads one code word for each group, left to right. Where the codes of a row
of pixels stand at POS it appends those pixels and consumes exactly the codes; where any words stand there, canonical or
not, it appends their pixels and consumes exactly them; and it moves to the next row. Where the bits of a word run out
the decoding ends in PayloadExhausted. -/
def Obligations.DrowDecodesAPresentRow : Prop :=
  ∀ (s : State) (b : Byte), s.dec.y < dim s.dec.height →
    s.dec.input[8 + s.dec.y / 8]? = some b → b.getLsbD (s.dec.y % 8) = true →
    (∀ (px : Nat → Byte) (y : Nat) (r : Bits), s.dec.rest = rowBits px (dim s.dec.width) y ++ r →
      exec .drow s = .next { s with dec := { s.dec with
        pos := s.dec.pos + (rowBits px (dim s.dec.width) y).length,
        out := s.dec.out ++ (List.range (dim s.dec.width)).map (fun x => px (y * dim s.dec.width + x)),
        y := s.dec.y + 1, x := 0 } }) ∧
    (∀ (ps : List Byte) (k : Nat),
      rowWords (dim s.dec.width) (groupStarts (dim s.dec.width)) s.dec.rest = .ok (ps, k) →
      exec .drow s = .next { s with dec := { s.dec with
        pos := s.dec.pos + k, out := s.dec.out ++ ps, y := s.dec.y + 1, x := 0 } }) ∧
    (∀ e, rowWords (dim s.dec.width) (groupStarts (dim s.dec.width)) s.dec.rest = .error e →
      exec .drow s = .next { s with dec := s.dec.fail .payloadExhausted })

/-- R190: DGRP(n) reads the code word at POS and appends its pixels; when the bits of the word run out the decoding ends
in PayloadExhausted. -/
def Obligations.DgrpReadsOneWord : Prop :=
  ∀ (s : State) (n : Nat), 1 ≤ n → n ≤ 4 →
    (∀ i r, decodeWord n s.dec.rest = .ok (i, r) →
      exec (.dgrp n) s = .next { s with dec := { s.dec with
        pos := s.dec.pos + wordLength i, out := s.dec.out ++ wordPixels n i } }) ∧
    (∀ e, decodeWord n s.dec.rest = .error e →
      exec (.dgrp n) s = .next { s with dec := s.dec.fail .payloadExhausted })

/-- R189, R190 with log entry 10: W and K fill the min(4, w - x) pixels of the group with 255 and 0, consume 1 and 2
bits, and move x by 4; where the bits are not in the input the decoding ends in PayloadExhausted. -/
def Obligations.FillWordsExecute : Prop :=
  ∀ (s : State) (n : Nat), s.dec.x < dim s.dec.width → n = min 4 (dim s.dec.width - s.dec.x) →
    (s.dec.pos + 1 ≤ 8 * s.dec.input.length → exec .w s = .next { s with dec := { s.dec with
      pos := s.dec.pos + 1, out := s.dec.out ++ List.replicate n 255#8, x := s.dec.x + 4 } }) ∧
    (s.dec.pos + 2 ≤ 8 * s.dec.input.length → exec .k s = .next { s with dec := { s.dec with
      pos := s.dec.pos + 2, out := s.dec.out ++ List.replicate n 0#8, x := s.dec.x + 4 } }) ∧
    (8 * s.dec.input.length < s.dec.pos + 1 → exec .w s = .next { s with dec := s.dec.fail .payloadExhausted }) ∧
    (8 * s.dec.input.length < s.dec.pos + 2 → exec .k s = .next { s with dec := s.dec.fail .payloadExhausted })

/-- R189, R190 with log entry 10: M1 to M4, at a group of as many pixels, append their raw pixels in order, consume 2 +
8n bits, and move x by 4; where the bits are not in the input the decoding ends in PayloadExhausted. -/
def Obligations.RawWordsExecute : Prop :=
  ∀ (s : State) (i : Instr) (n : Nat) (ps : List Byte), n = min 4 (dim s.dec.width - s.dec.x) → ps.length = n →
    (∃ p0, i = .m1 p0 ∧ ps = [p0]) ∨ (∃ p0 p1, i = .m2 p0 p1 ∧ ps = [p0, p1]) ∨
      (∃ p0 p1 p2, i = .m3 p0 p1 p2 ∧ ps = [p0, p1, p2]) ∨
      (∃ p0 p1 p2 p3, i = .m4 p0 p1 p2 p3 ∧ ps = [p0, p1, p2, p3]) →
    (s.dec.pos + (2 + 8 * n) ≤ 8 * s.dec.input.length → exec i s = .next { s with dec := { s.dec with
      pos := s.dec.pos + (2 + 8 * n), out := s.dec.out ++ ps, x := s.dec.x + 4 } }) ∧
    (8 * s.dec.input.length < s.dec.pos + (2 + 8 * n) →
      exec i s = .next { s with dec := s.dec.fail .payloadExhausted })

/-- R79, R81 with log entry 10: a code word where it cannot stand is refused: W and K where no group starts, M<n> where
the group has not n pixels. -/
def Obligations.MisplacedWordsAreRefused : Prop :=
  ∀ s : State,
    (dim s.dec.width ≤ s.dec.x →
      exec .w s = .refused (.wrongGroupSize "W") ∧ exec .k s = .refused (.wrongGroupSize "K")) ∧
    (∀ p0, min 4 (dim s.dec.width - s.dec.x) ≠ 1 → exec (.m1 p0) s = .refused (.wrongGroupSize "M1")) ∧
    (∀ p0 p1, min 4 (dim s.dec.width - s.dec.x) ≠ 2 → exec (.m2 p0 p1) s = .refused (.wrongGroupSize "M2")) ∧
    (∀ p0 p1 p2, min 4 (dim s.dec.width - s.dec.x) ≠ 3 →
      exec (.m3 p0 p1 p2) s = .refused (.wrongGroupSize "M3")) ∧
    (∀ p0 p1 p2 p3, min 4 (dim s.dec.width - s.dec.x) ≠ 4 →
      exec (.m4 p0 p1 p2 p3) s = .refused (.wrongGroupSize "M4"))

/-- R189, R190 with log entry 10: the code word at POS, executed, does what DGRP of the group there does, and moves x by
4. -/
def Obligations.CodeWordIsTheGroupOperation : Prop :=
  ∀ (s : State) (n : Nat) (i : Instr) (r : Bits), s.dec.x < dim s.dec.width →
    n = min 4 (dim s.dec.width - s.dec.x) → decodeWord n s.dec.rest = .ok (i, r) →
    ∃ t, exec (.dgrp n) s = .next t ∧ exec i s = .next { t with dec := { t.dec with x := t.dec.x + 4 } }

/-! ## The step -/

/-- R161: with a quiet host, one step is the row of the transition table for the state. -/
def Obligations.StepFollowsTheTransitionTable : Prop :=
  ∀ s : State, s.inbox = [] →
    (s.phase = .header → step s = exec .hdr s) ∧
    (s.phase = .classify → s.y < dim s.height → step s = exec .cls s) ∧
    (s.phase = .classify → s.y = dim s.height → step s = .next { s with kidx := 0, phase := .rowIndex }) ∧
    (s.phase = .rowIndex → s.kidx < (dim s.height + 7) / 8 → step s = exec .rix s) ∧
    (s.phase = .rowIndex → s.kidx = (dim s.height + 7) / 8 →
      step s = .next { s with y := 0, x := 0, phase := .payload }) ∧
    (s.phase = .payload → s.y = dim s.height → step s = .next { s with phase := .flush }) ∧
    (s.phase = .payload → s.y < dim s.height → rpBit s s.y = false → step s = .next { s with y := s.y + 1 }) ∧
    (s.phase = .payload → s.y < dim s.height → rpBit s s.y = true → s.x < dim s.width → step s = exec .grp s) ∧
    (s.phase = .payload → s.y < dim s.height → rpBit s s.y = true → dim s.width ≤ s.x →
      step s = .next { s with y := s.y + 1, x := 0 }) ∧
    (s.phase = .flush → ∀ t, exec .flush s = .next t →
      step s = if t.phase = .error then .next t else exec .fin t) ∧
    (s.phase = .idle ∨ s.phase = .done ∨ s.phase = .error → s.dec.phase.running = false → step s = .next s)

/-- R189, R190, R192; one code word a step is the model's granularity, log entry 17: with a quiet host and the block not
busy, a decoder in the middle of a present row whose bits at
POS decode to a code word runs that code word; the step adds nothing around it. -/
def Obligations.StepRunsTheFetchedCodeWord : Prop :=
  ∀ (s : State) (i : Instr) (r : Bits), s.inbox = [] → s.phase.busy = false → s.dec.phase = .decodeRow →
    s.dec.y < dim s.dec.height → s.dec.presence s.dec.y = some true → s.dec.x < dim s.dec.width →
    decodeWord s.dec.groupCount s.dec.rest = .ok (i, r) → step s = exec i s

/-- R192, at the granularity of log entry 17: the decoder's other steps: ReadHeader runs DHDR, ReadRowIndex runs DRIX,
an absent row runs DROW, a finished row moves to the next, bits that run out end in PayloadExhausted, and after the last
row the decoding is Done. -/
def Obligations.DecoderStepsItsStates : Prop :=
  ∀ s : State, s.inbox = [] → s.phase.busy = false →
    (s.dec.phase = .readHeader → step s = exec .dhdr s) ∧
    (s.dec.phase = .readRowIndex → step s = exec .drix s) ∧
    (s.dec.phase = .decodeRow → s.dec.y < dim s.dec.height → s.dec.presence s.dec.y = some false →
      step s = exec .drow s) ∧
    (s.dec.phase = .decodeRow → s.dec.y < dim s.dec.height → s.dec.presence s.dec.y = some true →
      dim s.dec.width ≤ s.dec.x → step s = .next { s with dec := { s.dec with y := s.dec.y + 1, x := 0 } }) ∧
    (s.dec.phase = .decodeRow → s.dec.y < dim s.dec.height → s.dec.presence s.dec.y = some true →
      s.dec.x < dim s.dec.width → decodeWord s.dec.groupCount s.dec.rest = .error .payloadExhausted →
      step s = .next { s with dec := s.dec.fail .payloadExhausted }) ∧
    (s.dec.phase = .decodeRow → s.dec.y = dim s.dec.height →
      step s = .next { s with dec := { s.dec with phase := .done } })

/-- R32, R39, R163 (the spec's decision D8; the list of moves is log entry 5): the host's moves. A 1 written to bit 0 of
CTRL performs START, a 0 does nothing; WIDTH and HEIGHT are written when the block is not busy and the write is ignored
when it is; a PIX byte is written when the block is not busy. Each move takes one step. -/
def Obligations.HostMovesAreGuarded : Prop :=
  ∀ (s u : State) (m : HostMove) (rest : List HostMove), s.inbox = m :: rest → u = { s with inbox := rest } →
    (∀ v : Word, m = .writeReg 0 v → step s = if v.getLsbD 0 then exec .start u else .next u) ∧
    (∀ v : Word, m = .writeReg 2 v → step s = .next (if s.phase.busy then u else { u with width := v })) ∧
    (∀ v : Word, m = .writeReg 3 v → step s = .next (if s.phase.busy then u else { u with height := v })) ∧
    (∀ a b, m = .writePix a b → s.phase.busy = false → (∀ c, s.maxPixels = some c → a < c) →
      ∃ t, step s = .next t ∧ pixByte t a = b ∧ (∀ a', a' ≠ a → pixByte t a' = pixByte s a') ∧
        t = { u with pix := t.pix })

/-- R240 (the spec's decision D14): hardware reset, in any state, puts the block's registers at the values of R40 the
spec gives, and leaves the decoder alone (log entry 15). -/
def Obligations.HardwareResetAbandonsTheCall : Prop :=
  ∀ (s : State) (rest : List HostMove), s.inbox = .reset :: rest →
    ∃ t, step s = .next t ∧ t.phase = .idle ∧ t.err = .none ∧ t.cause = .noCause ∧ t.width = 0 ∧ t.height = 0 ∧
      t.outLen = 0 ∧ t.acc = 0 ∧ t.nbits = 0 ∧ t.y = 0 ∧ t.x = 0 ∧ t.kidx = 0 ∧ t.dec = s.dec ∧ t.inbox = rest

/-- R30, R32, R211, R212 (the spec's decisions D8, D9): the codes of PHASE, of ERR and of CAUSE with its kind are those
of the tables, the block is busy in codes 1 to 5, and the host reads STATUS as PHASE in bits 2:0, ERR in bits 5:3 and
CAUSE in bits 9:6. -/
def Obligations.StatusHoldsItsFields : Prop :=
  ([.idle, .header, .classify, .rowIndex, .payload, .flush, .done, .error] : List Phase).map Phase.code =
    [0, 1, 2, 3, 4, 5, 6, 7] ∧
  ([.idle, .header, .classify, .rowIndex, .payload, .flush, .done, .error] : List Phase).map Phase.busy =
    [false, true, true, true, true, true, false, false] ∧
  ([.none, .invalidFormat, .outOfMemory, .ioError, .other] : List ErrKind).map ErrKind.code = [0, 1, 2, 3, 4] ∧
  ([.noCause, .headerTooShort, .rowIndexTruncated, .payloadExhausted, .negativeDimension, .outputFull,
    .rasterTooLarge] : List Cause).map (fun c => (c.code, c.kind)) =
    [(0, .none), (1, .invalidFormat), (2, .invalidFormat), (3, .invalidFormat), (4, .invalidFormat), (5, .outOfMemory),
     (6, .outOfMemory)] ∧
  ∀ s : State, ∃ v : BitVec 10, hostReadReg s 1 = some v.toNat ∧ v.extractLsb' 0 3 = s.phase.code ∧
    v.extractLsb' 3 3 = s.err.code ∧ v.extractLsb' 6 4 = s.cause.code ∧
    (s.phase = .error → s.cause = .outputFull → s.err = .outOfMemory → v.toNat = 343)

/-! ## The whole machine -/

/-- R21, R22, R23, R38, R39: no instruction writes WIDTH, HEIGHT, PIX or a parameter, or takes a host move. -/
def Obligations.InputsAreNeverWritten : Prop :=
  ∀ (i : Instr) (s t : State), exec i s = .next t →
    t.width = s.width ∧ t.height = s.height ∧ t.pix = s.pix ∧ t.pixGen = s.pixGen ∧ t.outCap = s.outCap ∧
    t.maxPixels = s.maxPixels ∧ t.inbox = s.inbox

/-- R213 (the spec's own derivation), R215 (the spec's decision D11): an instruction that ends the call in Error is START,
for one of its two causes, or, for OutputFull, one that appends to OUT: those R213 names, GRP, whose exceptions are those
of its emit operation (R116), or PAD, by the model's reading in log entry 13. ERR is the kind of the cause, OUT_LEN is 0
and the raster is unchanged. That the host's read of OUT then gives no byte is the model's choice, log entry 12: R39 and
R64 say that the host must not read there. -/
def Obligations.ErrorsDiscardTheCall : Prop :=
  ∀ (i : Instr) (s t : State), exec i s = .next t → s.phase ≠ .error → t.phase = .error →
    t.err = t.cause.kind ∧ t.outLen = 0 ∧ t.width = s.width ∧ t.height = s.height ∧ t.pix = s.pix ∧
    (∀ a, hostReadOut t a = none) ∧
    ((i = .start ∧ (t.cause = .negativeDimension ∨ t.cause = .rasterTooLarge)) ∨
     ((i = .hdr ∨ i = .rix ∨ i = .pad ∨ i = .emw ∨ i = .emk ∨ i = .emm ∨ i = .grp ∨ i = .flush ∨
       (∃ v n, i = .put v n) ∨ (∃ b, i = .putbit b)) ∧ t.cause = .outputFull))

/-- R20, R181 (the spec's decision D21): an instruction touches the block or the decoder, never both. -/
def Obligations.BlockAndDecoderAreApart : Prop :=
  ∀ (i : Instr) (s t : State), exec i s = .next t → t.dec = s.dec ∨ t = { s with dec := t.dec }

/-- R55: within a call OUT is append-only: an instruction that neither begins nor ends a call in error leaves every byte
of OUT outside the newly appended ones as it was, and OUT_LEN never goes down. Of the bytes at and above the new OUT_LEN,
which R24 leaves unspecified, this is the model's choice, log entry 3. -/
def Obligations.OutputIsAppendOnly : Prop :=
  ∀ (i : Instr) (s t : State), exec i s = .next t → i ≠ .start → s.phase ≠ .error → t.phase ≠ .error →
    s.outLen ≤ t.outLen ∧ OutKept s t

/-- R34, R26: VAR is written by CLSG (alone or within GRP) and RP by CLS only; START and an error make both unspecified
(R40, R215). -/
def Obligations.PredicatesHaveOneWriter : Prop :=
  ∀ (i : Instr) (s t : State), exec i s = .next t → i ≠ .start → s.phase ≠ .error → t.phase ≠ .error →
    (i ≠ .clsg → i ≠ .grp → t.var = s.var) ∧ (i ≠ .cls → t.rp = s.rp)

/-! ## Invariants -/

/-- The three memories stay in canonical form, the model's own representation (log entry 3), whatever the step. -/
def Obligations.MemoryStaysCanonical : Prop :=
  ∀ s t : State, s.memoryCanonical → step s = .next t → t.memoryCanonical

/-- R31 (the spec's decision D9): ERR ≠ 0 exactly in phase Error, and ERR is the kind of CAUSE, kept by every step. -/
def Obligations.StatusStaysConsistent : Prop :=
  ∀ s t : State, s.statusConsistent → step s = .next t → t.statusConsistent

/-- R37 (the spec's own derivation): outside phase Error, where ACC and NBITS are unspecified (R215), the positions of
ACC not yet filled are zero, kept by every step. -/
def Obligations.PackerStaysClean : Prop :=
  ∀ s t : State, (s.phase ≠ .error → s.packerClean) → step s = .next t → t.phase ≠ .error → t.packerClean

/-- R24, R25, R55: OUT holds the bytes at 0 to OUT_LEN - 1, and OUT_LEN does not exceed OUT_CAP, kept by every step. That
OUT holds no byte at or above OUT_LEN is the model's choice of listing nothing after START, an error and reset, log entry
3: R24 leaves those bytes unspecified. -/
def Obligations.OutputStaysDense : Prop :=
  ∀ s t : State, s.outDense → s.outWithinCap → step s = .next t → t.outDense ∧ t.outWithinCap

/-- R27, R28, R29: in every busy phase Y, KIDX and X stay in their ranges, X a multiple of 4, kept by every step; and
every step keeps the weaker ranges that the rows of R161 need. -/
def Obligations.CountersStayInRange : Prop :=
  ∀ s t : State, step s = .next t →
    (s.countersInRange → t.countersInRange) ∧ (s.countersFitTable → t.countersFitTable)

/-- R181, R186, R189, R191, R193: the decoder's POS stays within its input and its output holds whole rows and groups,
so that a finished decoding has w × h pixels; kept by every step. -/
def Obligations.DecodingStaysInOrder : Prop :=
  ∀ s t : State, s.dec.rowsInOrder → s.dec.resultComplete → step s = .next t →
    t.dec.rowsInOrder ∧ t.dec.resultComplete

/-- R40 (the spec's decision D14): after reset the registers to which the spec gives a reset value hold it, and the
machine meets every invariant above; that OUT then lists nothing is the model's choice, log entry 3. -/
def Obligations.ResetMeetsTheInvariants : Prop :=
  (State.reset.phase = .idle ∧ State.reset.err = .none ∧ State.reset.cause = .noCause ∧ State.reset.width = 0 ∧
    State.reset.height = 0 ∧ State.reset.outLen = 0 ∧ State.reset.acc = 0 ∧ State.reset.nbits = 0 ∧
    State.reset.y = 0 ∧ State.reset.x = 0 ∧ State.reset.kidx = 0) ∧
  State.reset.memoryCanonical ∧ State.reset.statusConsistent ∧ State.reset.packerClean ∧ State.reset.outDense ∧
  State.reset.outWithinCap ∧ State.reset.countersInRange ∧ State.reset.countersFitTable ∧
  State.reset.dec.rowsInOrder ∧ State.reset.dec.resultComplete

/-! ## Whole calls -/

/-- R162: a busy block whose counters fit the table, as they do when in range, is never stuck: with a quiet host its
step gives a next state. -/
def Obligations.BusyBlockIsNeverStuck : Prop :=
  ∀ s : State, s.phase.busy = true → s.inbox = [] → s.countersFitTable → s.outWithinCap → ∃ t, step s = .next t

/-- R162 (the spec's own derivation): from phase Header the call reaches Done or Error within the bound of R162. -/
def Obligations.CallEndsWithinTheBound : Prop :=
  ∀ s : State, s.phase = .header → s.inbox = [] → s.outWithinCap →
    ∃ (k : Nat) (t : State), k ≤ callBound (dim s.width) (dim s.height) ∧ Sys2Proof.core.run k s = .next t ∧
      (t.phase = .done ∨ t.phase = .error)

/-- R165 (the spec's own derivation), R39, R64, R166: a call that has begun, with room for the whole stream, ends in
Done with `OUT[0 .. OUT_LEN)` equal to `encode(w, h, pix)` of R14, and the host reads byte `a` of it at `OUT[a]` for
every `a` below OUT_LEN, which is its length. -/
def Obligations.SequencerComputesEncode : Prop :=
  ∀ s : State, s.callBegun → s.room (encodeRaster s.width s.height (pixByte s)).length →
    ∃ (k : Nat) (t : State), Sys2Proof.core.run k s = .next t ∧ t.phase = .done ∧
      outBytes t = encodeRaster s.width s.height (pixByte s) ∧
      t.outLen = (encodeRaster s.width s.height (pixByte s)).length ∧
      ∀ a, a < t.outLen → hostReadOut t a = (encodeRaster s.width s.height (pixByte s))[a]?

/-- R165 (the spec's own derivation): a call that has begun, with an OUT_CAP smaller than the stream, ends in Error,
cause OutputFull, with no output. -/
def Obligations.SequencerReportsOutputFull : Prop :=
  ∀ (s : State) (cap : Nat), s.callBegun → s.outCap = some cap →
    cap < (encodeRaster s.width s.height (pixByte s)).length →
    ∃ (k : Nat) (t : State), Sys2Proof.core.run k s = .next t ∧ t.phase = .error ∧ t.cause = .outputFull ∧
      t.err = .outOfMemory ∧ t.outLen = 0

/-- R194 (the spec's own derivation): for every raster with dimensions in range and no more pixels than MAX_PIXELS,
`decode(encode(R))` is R. -/
def Obligations.DecodeInvertsEncode : Prop :=
  ∀ (maxPixels : Option Nat) (w h : Word) (px : Nat → Byte), 0 ≤ w.toInt → 0 ≤ h.toInt →
    (∀ m, maxPixels = some m → w.toNat * h.toNat ≤ m) →
    decodeStream maxPixels (encodeRaster w h px) =
      .ok { width := w, height := h, pixels := (List.range (w.toNat * h.toNat)).map px }

/-- R195 (the spec's own derivation): the encoded stream of a raster the decoder can hold, without its last byte, fails
to decode: HeaderTooShort when there is no row, RowIndexTruncated when there are rows and no payload, PayloadExhausted
otherwise, all of kind InvalidFormat. -/
def Obligations.TruncationIsDetected : Prop :=
  ∀ (maxPixels : Option Nat) (w h : Word) (px : Nat → Byte), 0 ≤ w.toInt → 0 ≤ h.toInt →
    (∀ m, maxPixels = some m → w.toNat * h.toNat ≤ m) →
    ∃ c, decodeStream maxPixels (encodeRaster w h px).dropLast = .raised c ∧ c.kind = .invalidFormat ∧
      (h.toNat = 0 → c = .headerTooShort) ∧
      (0 < h.toNat → payloadBits px (dim w) (dim h) = [] → c = .rowIndexTruncated) ∧
      (payloadBits px (dim w) (dim h) ≠ [] → c = .payloadExhausted)

/-- R192, R193: with a quiet host and the block not busy, a decoder that begins a call on `bytes` reaches, step by step,
Done with the raster of `decode(bytes)`, or Error with its cause and no output. -/
def Obligations.DecoderStepsComputeDecode : Prop :=
  ∀ (s : State) (bytes : List Byte), s.inbox = [] → s.phase.busy = false →
    s.dec = { Dec.init bytes with phase := .readHeader } →
    ∃ (k : Nat) (t : State), Sys2Proof.core.run k s = .next t ∧
      ((∃ r, decodeStream s.maxPixels bytes = .ok r ∧ t.dec.phase = .done ∧ t.dec.width = r.width ∧
          t.dec.height = r.height ∧ t.dec.out = r.pixels) ∨
       (∃ c, decodeStream s.maxPixels bytes = .raised c ∧ t.dec.phase = .error ∧ t.dec.cause = c ∧
          t.dec.err = c.kind ∧ t.dec.out = []))
end

