-- ==== Sys2Proof/Laws/Bits.lean ====
section
/-! SUPPORT. The laws of the bit notation: lengths, splitting, reading back, packing. -/

namespace Sys2Proof

@[simp] theorem lowbits_length (v n : Nat) : (lowbits v n).length = n := by
  induction n with
  | zero => rfl
  | succ n ih => simp [lowbits, ih]

@[simp] theorem bits8_length (p : Byte) : (bits8 p).length = 8 := lowbits_length _ _

theorem lowbits_add (v a b : Nat) : lowbits v (a + b) = lowbits (v / 2 ^ b) a ++ lowbits v b := by
  induction a with
  | zero => simp [lowbits]
  | succ a ih =>
    rw [Nat.succ_add]
    simp [lowbits, ih, Nat.testBit_div_two_pow]

theorem natOfBits_append (v : Nat) (s t : Bits) : natOfBits v (s ++ t) = natOfBits (natOfBits v s) t := by
  induction s generalizing v with
  | nil => rfl
  | cons b s ih => simp [natOfBits, ih]

theorem natOfBits_from (v : Nat) (s : Bits) : natOfBits v s = v * 2 ^ s.length + natOfBits 0 s := by
  induction s generalizing v with
  | nil => simp [natOfBits]
  | cons b s ih =>
    simp only [natOfBits, List.length_cons]
    rw [ih, ih (2 * 0 + b.toNat)]
    ring

theorem natOfBits_lt (s : Bits) : natOfBits 0 s < 2 ^ s.length := by
  induction s with
  | nil => simp [natOfBits]
  | cons b s ih =>
    simp only [natOfBits, List.length_cons]
    rw [natOfBits_from]
    cases b <;> simp [pow_succ] <;> omega

theorem natOfBits_lowbits (v n : Nat) : natOfBits 0 (lowbits v n) = v % 2 ^ n := by
  induction n with
  | zero => simp [lowbits, natOfBits, Nat.mod_one]
  | succ n ih =>
    simp only [lowbits, natOfBits]
    rw [natOfBits_from, ih, lowbits_length, Nat.mod_pow_succ, ← Nat.toNat_testBit]
    simp only [Nat.mul_zero, Nat.zero_add]
    ring

theorem lowbits_mod (v n : Nat) : lowbits (v % 2 ^ n) n = lowbits v n := by
  have h : ∀ m, m ≤ n → lowbits (v % 2 ^ n) m = lowbits v m := by
    intro m
    induction m with
    | zero => intro; rfl
    | succ m ih =>
      intro hm
      simp only [lowbits, ih (by omega), Nat.testBit_mod_two_pow]
      simp [show m < n by omega]
  exact h n le_rfl

theorem lowbits_natOfBits (s : Bits) : lowbits (natOfBits 0 s) s.length = s := by
  induction s with
  | nil => rfl
  | cons b s ih =>
    simp only [natOfBits, List.length_cons, lowbits]
    rw [natOfBits_from]
    have hlt := natOfBits_lt s
    have h1 : ((2 * 0 + b.toNat) * 2 ^ s.length + natOfBits 0 s).testBit s.length = b := by
      rw [Nat.mul_comm, Nat.testBit_two_pow_mul_add _ hlt]
      cases b <;> simp
    have h2 : lowbits ((2 * 0 + b.toNat) * 2 ^ s.length + natOfBits 0 s) s.length = s := by
      rw [← lowbits_mod, Nat.mul_add_mod_self_right, Nat.mod_eq_of_lt hlt, ih]
    rw [h1, h2]

theorem natOfBits_bits8 (p : Byte) : natOfBits 0 (bits8 p) = p.toNat := by
  rw [bits8, natOfBits_lowbits, Nat.mod_eq_of_lt p.isLt]

/-- Eight bits are the bits of one byte. -/
theorem bits8_ofNat_natOfBits (s : Bits) (h : s.length = 8) : bits8 (BitVec.ofNat 8 (natOfBits 0 s)) = s := by
  have hlt := natOfBits_lt s
  rw [h] at hlt
  have := lowbits_natOfBits s
  rw [h] at this
  rw [bits8, BitVec.toNat_ofNat, Nat.mod_eq_of_lt hlt]
  exact this

theorem takeByte_bits8 (p : Byte) (s : Bits) : takeByte (bits8 p ++ s) = some (p, s) := by
  have h := natOfBits_bits8 p
  simp only [bits8, lowbits, List.cons_append, List.nil_append, takeByte] at h ⊢
  rw [h]
  simp

theorem takeByte_eq_some {s r : Bits} {p : Byte} (h : takeByte s = some (p, r)) : s = bits8 p ++ r := by
  unfold takeByte at h
  split at h
  · obtain ⟨rfl, rfl⟩ : _ ∧ _ := by simpa using h
    rw [bits8_ofNat_natOfBits _ rfl]
    rfl
  · simp at h

theorem takeByte_isSome {s : Bits} (h : 8 ≤ s.length) : ∃ p r, takeByte s = some (p, r) := by
  match s, h with
  | a :: b :: c :: d :: e :: f :: g :: i :: s, _ => exact ⟨_, _, rfl⟩

theorem takeBytes_flatMap (ps : List Byte) (s : Bits) :
    takeBytes ps.length (ps.flatMap bits8 ++ s) = some (ps, s) := by
  induction ps with
  | nil => rfl
  | cons p ps ih => simp [takeBytes, takeByte_bits8, ih]

theorem takeBytes_eq_some {n : Nat} {s r : Bits} {ps : List Byte} (h : takeBytes n s = some (ps, r)) :
    ps.length = n ∧ s = ps.flatMap bits8 ++ r := by
  induction n generalizing s ps r with
  | zero =>
    obtain ⟨rfl, rfl⟩ : _ ∧ _ := by simpa [takeBytes] using h
    simp
  | succ n ih =>
    simp only [takeBytes] at h
    split at h
    · simp at h
    · rename_i p s' hp
      split at h
      · simp at h
      · rename_i ps' s'' hps
        obtain ⟨rfl, rfl⟩ : _ ∧ _ := by simpa using h
        obtain ⟨h1, h2⟩ := ih hps
        have := takeByte_eq_some hp
        subst this
        rw [h2]
        simp [h1]

theorem takeBytes_isSome {n : Nat} {s : Bits} (h : 8 * n ≤ s.length) : ∃ ps r, takeBytes n s = some (ps, r) := by
  induction n generalizing s with
  | zero => exact ⟨_, _, rfl⟩
  | succ n ih =>
    obtain ⟨p, r, hp⟩ := takeByte_isSome (s := s) (by omega)
    have hl : s.length = 8 + r.length := by rw [takeByte_eq_some hp]; simp
    obtain ⟨ps, r', hps⟩ := ih (s := r) (by omega)
    exact ⟨p :: ps, r', by simp [takeBytes, hp, hps]⟩

/-! Byte sequences as bits. -/

@[simp] theorem bitsOfBytes_nil : bitsOfBytes [] = [] := rfl

@[simp] theorem bitsOfBytes_cons (b : Byte) (bs : List Byte) : bitsOfBytes (b :: bs) = bits8 b ++ bitsOfBytes bs := rfl

@[simp] theorem bitsOfBytes_length (bs : List Byte) : (bitsOfBytes bs).length = 8 * bs.length := by
  induction bs with
  | nil => rfl
  | cons b bs ih => simp [ih]; omega

@[simp] theorem bitsOfBytes_append (bs cs : List Byte) :
    bitsOfBytes (bs ++ cs) = bitsOfBytes bs ++ bitsOfBytes cs := by
  induction bs with
  | nil => rfl
  | cons b bs ih => simp [ih]

theorem bitsOfBytes_drop (bs : List Byte) (k : Nat) : (bitsOfBytes bs).drop (8 * k) = bitsOfBytes (bs.drop k) := by
  induction k generalizing bs with
  | zero => rfl
  | succ k ih =>
    cases bs with
    | nil => simp
    | cons b bs =>
      rw [bitsOfBytes_cons, show 8 * (k + 1) = (bits8 b).length + 8 * k by simp; omega, List.drop_append]
      simp [ih]

theorem lowbits_getElem (v n i : Nat) (h : i < n) : (lowbits v n)[i]? = some (v.testBit (n - 1 - i)) := by
  induction n generalizing i with
  | zero => omega
  | succ n ih =>
    cases i with
    | zero => simp [lowbits]
    | succ i =>
      simp only [lowbits, List.getElem?_cons_succ]
      rw [ih i (by omega)]
      congr 2
      omega

theorem bits8_getElem (p : Byte) (i : Nat) (h : i < 8) : (bits8 p)[i]? = some (p.getLsbD (7 - i)) := by
  rw [bits8, lowbits_getElem _ _ _ h]
  rfl

theorem bitsOfBytes_getElem (bs : List Byte) (p : Nat) (h : p < 8 * bs.length) :
    (bitsOfBytes bs)[p]? = some ((bs.getD (p / 8) 0).getLsbD (7 - p % 8)) := by
  induction bs generalizing p with
  | nil => simp at h
  | cons b bs ih =>
    by_cases hp : p < 8
    · rw [bitsOfBytes_cons, List.getElem?_append_left (by simpa using hp), bits8_getElem _ _ hp,
        Nat.div_eq_of_lt hp, Nat.mod_eq_of_lt hp]
      rfl
    · rw [bitsOfBytes_cons, List.getElem?_append_right (by simpa using hp), bits8_length,
        ih (p - 8) (by simp at h; omega)]
      have h1 : p / 8 = (p - 8) / 8 + 1 := by omega
      have h2 : (p - 8) % 8 = p % 8 := by omega
      rw [h1, h2]
      simp

/-! Packing. -/

theorem byteOfBits_append (s t : Bits) (h : s.length = 8) : byteOfBits (s ++ t) = BitVec.ofNat 8 (natOfBits 0 s) := by
  simp [byteOfBits, List.append_assoc, h]

theorem bits8_byteOfBits (s : Bits) : bits8 (byteOfBits s) = (s ++ List.replicate 8 false).take 8 :=
  bits8_ofNat_natOfBits _ (by simp)

theorem byteOfBits_bits8 (p : Byte) : byteOfBits (bits8 p) = p := by
  have := byteOfBits_append (bits8 p) [] (by simp)
  rw [List.append_nil] at this
  rw [this, natOfBits_bits8]
  simp

theorem bitsOfBytes_packBytes (k : Nat) (s : Bits) (h : s.length ≤ 8 * k) :
    bitsOfBytes (packBytes k s) = s ++ List.replicate (8 * k - s.length) false := by
  induction k generalizing s with
  | zero =>
    have : s = [] := by simpa using h
    simp [packBytes, this]
  | succ k ih =>
    simp only [packBytes, bitsOfBytes_cons, bits8_byteOfBits]
    rw [ih _ (by simp; omega)]
    by_cases h8 : s.length ≤ 8
    · rw [List.drop_eq_nil_of_le h8, List.take_append, List.take_of_length_le h8]
      simp only [List.length_nil, Nat.sub_zero, List.nil_append, List.take_replicate, List.append_assoc,
        List.replicate_append_replicate]
      congr 2
      omega
    · rw [List.take_append_of_le_length (by omega), ← List.append_assoc, List.take_append_drop]
      congr 2
      simp
      omega

/-- The bits of `pack(s)` are `s` and the final padding (R10). -/
theorem bitsOfBytes_pack (s : Bits) :
    bitsOfBytes (pack s) = s ++ List.replicate ((8 - s.length % 8) % 8) false := by
  rw [pack, bitsOfBytes_packBytes _ _ (by omega)]
  congr 2
  omega

theorem packBytes_length (k : Nat) (s : Bits) : (packBytes k s).length = k := by
  induction k generalizing s with
  | zero => rfl
  | succ k ih => simp [packBytes, ih]

@[simp] theorem pack_length (s : Bits) : (pack s).length = (s.length + 7) / 8 := packBytes_length _ _

theorem bitsOfBytes_inj {bs cs : List Byte} (h : bitsOfBytes bs = bitsOfBytes cs) : bs = cs := by
  induction bs generalizing cs with
  | nil =>
    cases cs with
    | nil => rfl
    | cons c cs => have := congrArg List.length h; simp at this; omega
  | cons b bs ih =>
    cases cs with
    | nil => have := congrArg List.length h; simp at this
    | cons c cs =>
      simp only [bitsOfBytes_cons] at h
      have h1 := List.append_inj h (by simp)
      have h2 : b = c := by rw [← byteOfBits_bits8 b, h1.1, byteOfBits_bits8]
      rw [h2, ih h1.2]

/-! Dimensions. -/

theorem dim_of_nonneg {v : Word} (h : v.msb = false) : dim v = v.toNat := by
  rw [dim, BitVec.toInt_eq_toNat_of_msb h]
  rfl

theorem dim_of_neg {v : Word} (h : v.msb = true) : dim v = 0 := by
  have := BitVec.toInt_neg_of_msb_true h
  simp only [dim]
  omega

theorem dim_lt (v : Word) : dim v < 2 ^ 31 := by
  have := @BitVec.toInt_lt 32 v
  simp only [dim]
  omega

/-- A dimension is in its legal range exactly when bit 31 is clear (R21, R22). -/
theorem toInt_nonneg {v : Word} : 0 ≤ v.toInt ↔ v.msb = false := by
  cases h : v.msb with
  | false => simp [BitVec.toInt_eq_toNat_of_msb h]
  | true => have := BitVec.toInt_neg_of_msb_true h; simp; omega

theorem toInt_neg {v : Word} : v.toInt < 0 ↔ v.msb = true := by
  have := @toInt_nonneg v
  cases h : v.msb <;> simp_all

/-! The header's integers and the row-index bytes. -/

/-- The four bytes of `le32`, least significant first (R11). -/
theorem le32_toNat (w : Word) : (le32 w).map BitVec.toNat = [w.toNat % 256, w.toNat / 256 % 256, w.toNat / 65536 % 256, w.toNat / 16777216] := by
  have := w.isLt
  simp [le32, BitVec.extractLsb'_toNat, Nat.shiftRight_eq_div_pow]
  omega

/-- `unle32` reads back what `le32` wrote (R11). -/
theorem unle32_le32 (w : Word) (rest : List Byte) : ∃ a b c d, le32 w ++ rest = a :: b :: c :: d :: rest ∧ unle32 a b c d = w := by
  refine ⟨_, _, _, _, rfl, ?_⟩
  apply BitVec.eq_of_toNat_eq
  have := w.isLt
  simp [unle32, BitVec.extractLsb'_toNat, Nat.shiftRight_eq_div_pow]
  omega

/-- Bit `j` of a row-index byte is item `j` (R73). -/
theorem encodePresence_getLsbD (f : Nat → Bool) (j : Nat) (hj : j < 8) : (encodePresence f 8).getLsbD j = f j := by
  have h : ∀ a b c d e g i k : Bool, ∀ j : Fin 8,
      (encodePresence (fun n => [a, b, c, d, e, g, i, k].getD n false) 8).getLsbD j.val
        = [a, b, c, d, e, g, i, k].getD j.val false := by decide
  have h2 : encodePresence f 8
      = encodePresence (fun n => [f 0, f 1, f 2, f 3, f 4, f 5, f 6, f 7].getD n false) 8 := by
    simp [encodePresence]
  rw [h2, h _ _ _ _ _ _ _ _ ⟨j, hj⟩]
  interval_cases j <;> rfl

end Sys2Proof
end

