-- ==== Sys2Proof/Laws/Memory.lean ====
section
/-! SUPPORT. The laws of memory: a read after a write, the canonical form kept, writing at the end. -/

namespace Sys2Proof.Machine

variable {α : Type}

@[simp] theorem Memory.read_nil (a : Nat) : Memory.read ([] : List (Nat × α)) a = none := rfl

/-- A read at the written address gives the value written. -/
@[simp] theorem Memory.read_write_same (m : List (Nat × α)) (a : Nat) (v : α) :
    Memory.read (Memory.write m a v) a = some v := by
  induction m with
  | nil => simp [Memory.write, Memory.read]
  | cons c m ih =>
    obtain ⟨b, w⟩ := c
    simp only [Memory.write]
    split
    · simp [Memory.read]
    · split
      · simp [Memory.read]
      · rename_i h1 h2
        simp [Memory.read, Ne.symm h2, ih]

/-- A write leaves every other address alone. -/
theorem Memory.read_write_other (m : List (Nat × α)) {a b : Nat} (v : α) (h : b ≠ a) :
    Memory.read (Memory.write m a v) b = Memory.read m b := by
  induction m with
  | nil => simp [Memory.write, Memory.read, Ne.symm h]
  | cons c m ih =>
    obtain ⟨e, w⟩ := c
    simp only [Memory.write]
    split
    · simp [Memory.read, Ne.symm h]
    · split
      · rename_i _ hae
        subst hae
        simp [Memory.read, Ne.symm h]
      · simp only [Memory.read, ih]

theorem Memory.read_write (m : List (Nat × α)) (a b : Nat) (v : α) :
    Memory.read (Memory.write m a v) b = if b = a then some v else Memory.read m b := by
  split
  · rename_i h; subst h; simp
  · rename_i h; exact Memory.read_write_other m v h

theorem Memory.mem_write {m : List (Nat × α)} {a : Nat} {v : α} {c : Nat × α} (h : c ∈ Memory.write m a v) :
    c = (a, v) ∨ c ∈ m := by
  induction m with
  | nil => simpa [Memory.write] using h
  | cons d m ih =>
    obtain ⟨b, w⟩ := d
    simp only [Memory.write] at h
    split at h
    · simpa using h
    · split at h
      · simp only [List.mem_cons] at h ⊢
        tauto
      · simp only [List.mem_cons] at h ⊢
        rcases h with h | h
        · tauto
        · have := ih h
          tauto

/-- A write keeps the canonical form. -/
theorem Memory.wf_write {m : List (Nat × α)} (a : Nat) (v : α) (h : Memory.wf m = true) :
    Memory.wf (Memory.write m a v) = true := by
  induction m with
  | nil => rfl
  | cons d m ih =>
    obtain ⟨b, w⟩ := d
    simp only [Memory.wf, Bool.and_eq_true, List.all_eq_true, decide_eq_true_eq] at h
    obtain ⟨h1, h2⟩ := h
    simp only [Memory.write]
    split
    · rename_i hab
      simp only [Memory.wf, Bool.and_eq_true, List.all_eq_true, decide_eq_true_eq, List.mem_cons]
      refine ⟨?_, h1, h2⟩
      rintro c (rfl | hc)
      · exact hab
      · exact lt_trans hab (h1 c hc)
    · split
      · rename_i _ hab
        subst hab
        simp only [Memory.wf, Bool.and_eq_true, List.all_eq_true, decide_eq_true_eq]
        exact ⟨h1, h2⟩
      · rename_i h3 h4
        simp only [Memory.wf, Bool.and_eq_true, List.all_eq_true, decide_eq_true_eq]
        refine ⟨?_, ih h2⟩
        intro c hc
        rcases Memory.mem_write hc with rfl | hc
        · simp; omega
        · exact h1 c hc

/-- A write above every listed address goes to the end. -/
theorem Memory.write_append {m : List (Nat × α)} {a : Nat} (v : α) (h : ∀ c ∈ m, c.1 < a) :
    Memory.write m a v = m ++ [(a, v)] := by
  induction m with
  | nil => rfl
  | cons d m ih =>
    obtain ⟨b, w⟩ := d
    have hb : b < a := h (b, w) (by simp)
    simp only [Memory.write, List.cons_append]
    rw [if_neg (by omega), if_neg (by omega), ih fun c hc => h c (by simp [hc])]

theorem Memory.wf_nil : Memory.wf ([] : List (Nat × α)) = true := rfl

/-- Addresses that are exactly 0, 1, ..., n-1 are in canonical form. -/
theorem Memory.wf_of_pairwise {m : List (Nat × α)} (h : (m.map Prod.fst).Pairwise (· < ·)) :
    Memory.wf m = true := by
  induction m with
  | nil => rfl
  | cons d m ih =>
    obtain ⟨b, w⟩ := d
    simp only [List.map_cons, List.pairwise_cons, List.mem_map, forall_exists_index, and_imp,
      forall_apply_eq_imp_iff₂] at h
    simp only [Memory.wf, Bool.and_eq_true, List.all_eq_true, decide_eq_true_eq]
    exact ⟨h.1, ih h.2⟩

end Sys2Proof.Machine
end

