-- ==== Sys2Proof/Laws/Res.lean ====
section
/-! SUPPORT. The laws of results: what running one part after another gives. -/

namespace Sys2Proof.Machine

variable {σ τ ρ : Type}

@[simp] theorem Res.bind_ok (s : σ) (f : σ → Res τ) : (Res.ok s).bind f = f s := rfl

@[simp] theorem Res.bind_raised (c : Cause) (f : σ → Res τ) : (Res.raised c).bind f = .raised c := rfl

@[simp] theorem Res.bind_fault (e : Fault) (f : σ → Res τ) : (Res.fault e).bind f = .fault e := rfl

@[simp] theorem Res.bind_refused (r : Refusal) (f : σ → Res τ) : (Res.refused r).bind f = .refused r := rfl

theorem Res.bind_assoc (m : Res σ) (f : σ → Res τ) (g : τ → Res ρ) :
    (m.bind f).bind g = m.bind fun a => (f a).bind g := by
  cases m <;> rfl

/-- A sequence that goes on went on in both parts. -/
theorem Res.bind_eq_ok {m : Res σ} {f : σ → Res τ} {t : τ} :
    m.bind f = .ok t ↔ ∃ s, m = .ok s ∧ f s = .ok t := by
  cases m <;> simp [Res.bind]

/-- A sequence that raises raised in one of its parts. -/
theorem Res.bind_eq_raised {m : Res σ} {f : σ → Res τ} {c : Cause} :
    m.bind f = .raised c ↔ m = .raised c ∨ ∃ s, m = .ok s ∧ f s = .raised c := by
  cases m <;> simp [Res.bind]

@[simp] theorem Res.finish_ok (s t : State) : (Res.ok t).finish s = .next t := rfl

@[simp] theorem Res.finish_raised (s : State) (c : Cause) : (Res.raised c : Res State).finish s = .next (raise c s) := rfl

@[simp] theorem Res.finish_fault (s : State) (f : Fault) : (Res.fault f : Res State).finish s = .fault f := rfl

@[simp] theorem Res.finish_refused (s : State) (r : Refusal) : (Res.refused r : Res State).finish s = .refused r := rfl

/-- An operation of the block gives a next state by going on or by raising a cause. -/
theorem Res.finish_eq_next {s t : State} {m : Res State} :
    m.finish s = .next t ↔ m = .ok t ∨ ∃ c, m = .raised c ∧ t = raise c s := by
  cases m <;> simp [Res.finish, eq_comm]

@[simp] theorem Res.finishDec_ok (s : State) (d : Dec) : (Res.ok d).finishDec s = .next { s with dec := d } := rfl

@[simp] theorem Res.finishDec_raised (s : State) (c : Cause) :
    (Res.raised c : Res Dec).finishDec s = .next { s with dec := s.dec.fail c } := rfl

@[simp] theorem Res.finishDec_fault (s : State) (f : Fault) : (Res.fault f : Res Dec).finishDec s = .fault f := rfl

@[simp] theorem Res.finishDec_refused (s : State) (r : Refusal) :
    (Res.refused r : Res Dec).finishDec s = .refused r := rfl

/-- An operation of the decoder changes the decoder only. -/
theorem Res.finishDec_eq_next {s t : State} {m : Res Dec} :
    m.finishDec s = .next t ↔
      ∃ d, t = { s with dec := d } ∧ (m = .ok d ∨ ∃ c, m = .raised c ∧ d = s.dec.fail c) := by
  cases m with
  | ok d => simp [Res.finishDec, eq_comm]
  | raised c => simp [Res.finishDec, eq_comm]
  | fault f => simp [Res.finishDec]
  | refused r => simp [Res.finishDec]

end Sys2Proof.Machine
end

