-- ==== Sys2Proof/Laws/State.lean ====
section
/-! SUPPORT. One lemma per field for each named update of the state, true by unfolding the update once. -/

namespace Sys2Proof.Machine

variable (s : State)

@[simp] theorem forgetInternals_width : (s.forgetInternals).width = s.width := rfl
@[simp] theorem forgetInternals_height : (s.forgetInternals).height = s.height := rfl
@[simp] theorem forgetInternals_pix : (s.forgetInternals).pix = s.pix := rfl
@[simp] theorem forgetInternals_rp : (s.forgetInternals).rp = [] := rfl
@[simp] theorem forgetInternals_out : (s.forgetInternals).out = [] := rfl
@[simp] theorem forgetInternals_outLen : (s.forgetInternals).outLen = s.outLen := rfl
@[simp] theorem forgetInternals_phase : (s.forgetInternals).phase = s.phase := rfl
@[simp] theorem forgetInternals_y : (s.forgetInternals).y = s.y := rfl
@[simp] theorem forgetInternals_x : (s.forgetInternals).x = s.x := rfl
@[simp] theorem forgetInternals_kidx : (s.forgetInternals).kidx = s.kidx := rfl
@[simp] theorem forgetInternals_err : (s.forgetInternals).err = s.err := rfl
@[simp] theorem forgetInternals_cause : (s.forgetInternals).cause = s.cause := rfl
@[simp] theorem forgetInternals_g0 : (s.forgetInternals).g0 = Config.freeByte s.draws 0 := rfl
@[simp] theorem forgetInternals_g1 : (s.forgetInternals).g1 = Config.freeByte s.draws 1 := rfl
@[simp] theorem forgetInternals_g2 : (s.forgetInternals).g2 = Config.freeByte s.draws 2 := rfl
@[simp] theorem forgetInternals_g3 : (s.forgetInternals).g3 = Config.freeByte s.draws 3 := rfl
@[simp] theorem forgetInternals_gsz : (s.forgetInternals).gsz = Config.freeGroupSize s.draws := rfl
@[simp] theorem forgetInternals_var : (s.forgetInternals).var = Config.freeVariant s.draws := rfl
@[simp] theorem forgetInternals_acc : (s.forgetInternals).acc = s.acc := rfl
@[simp] theorem forgetInternals_nbits : (s.forgetInternals).nbits = s.nbits := rfl
@[simp] theorem forgetInternals_rixb : (s.forgetInternals).rixb = Config.freeByte s.draws 4 := rfl
@[simp] theorem forgetInternals_outCap : (s.forgetInternals).outCap = s.outCap := rfl
@[simp] theorem forgetInternals_maxPixels : (s.forgetInternals).maxPixels = s.maxPixels := rfl
@[simp] theorem forgetInternals_draws : (s.forgetInternals).draws = s.draws + 1 := rfl
@[simp] theorem forgetInternals_pixGen : (s.forgetInternals).pixGen = s.pixGen := rfl
@[simp] theorem forgetInternals_inbox : (s.forgetInternals).inbox = s.inbox := rfl
@[simp] theorem forgetInternals_dec : (s.forgetInternals).dec = s.dec := rfl

@[simp] theorem raise_width (c : Cause) : (raise c s).width = s.width := rfl
@[simp] theorem raise_height (c : Cause) : (raise c s).height = s.height := rfl
@[simp] theorem raise_pix (c : Cause) : (raise c s).pix = s.pix := rfl
@[simp] theorem raise_rp (c : Cause) : (raise c s).rp = [] := rfl
@[simp] theorem raise_out (c : Cause) : (raise c s).out = [] := rfl
@[simp] theorem raise_outLen (c : Cause) : (raise c s).outLen = 0 := rfl
@[simp] theorem raise_phase (c : Cause) : (raise c s).phase = .error := rfl
@[simp] theorem raise_y (c : Cause) : (raise c s).y = Config.freeNat s.draws 0 := rfl
@[simp] theorem raise_x (c : Cause) : (raise c s).x = Config.freeNat s.draws 1 := rfl
@[simp] theorem raise_kidx (c : Cause) : (raise c s).kidx = Config.freeNat s.draws 2 := rfl
@[simp] theorem raise_err (c : Cause) : (raise c s).err = c.kind := rfl
@[simp] theorem raise_cause (c : Cause) : (raise c s).cause = c := rfl
@[simp] theorem raise_g0 (c : Cause) : (raise c s).g0 = Config.freeByte s.draws 0 := rfl
@[simp] theorem raise_g1 (c : Cause) : (raise c s).g1 = Config.freeByte s.draws 1 := rfl
@[simp] theorem raise_g2 (c : Cause) : (raise c s).g2 = Config.freeByte s.draws 2 := rfl
@[simp] theorem raise_g3 (c : Cause) : (raise c s).g3 = Config.freeByte s.draws 3 := rfl
@[simp] theorem raise_gsz (c : Cause) : (raise c s).gsz = Config.freeGroupSize s.draws := rfl
@[simp] theorem raise_var (c : Cause) : (raise c s).var = Config.freeVariant s.draws := rfl
@[simp] theorem raise_acc (c : Cause) : (raise c s).acc = Config.freeByte s.draws 5 := rfl
@[simp] theorem raise_nbits (c : Cause) : (raise c s).nbits = Config.freeBitCount s.draws := rfl
@[simp] theorem raise_rixb (c : Cause) : (raise c s).rixb = Config.freeByte s.draws 4 := rfl
@[simp] theorem raise_outCap (c : Cause) : (raise c s).outCap = s.outCap := rfl
@[simp] theorem raise_maxPixels (c : Cause) : (raise c s).maxPixels = s.maxPixels := rfl
@[simp] theorem raise_draws (c : Cause) : (raise c s).draws = s.draws + 1 := rfl
@[simp] theorem raise_pixGen (c : Cause) : (raise c s).pixGen = s.pixGen := rfl
@[simp] theorem raise_inbox (c : Cause) : (raise c s).inbox = s.inbox := rfl
@[simp] theorem raise_dec (c : Cause) : (raise c s).dec = s.dec := rfl

@[simp] theorem cleared_width : (s.cleared).width = s.width := rfl
@[simp] theorem cleared_height : (s.cleared).height = s.height := rfl
@[simp] theorem cleared_pix : (s.cleared).pix = s.pix := rfl
@[simp] theorem cleared_rp : (s.cleared).rp = [] := rfl
@[simp] theorem cleared_out : (s.cleared).out = [] := rfl
@[simp] theorem cleared_outLen : (s.cleared).outLen = 0 := rfl
@[simp] theorem cleared_phase : (s.cleared).phase = s.phase := rfl
@[simp] theorem cleared_y : (s.cleared).y = 0 := rfl
@[simp] theorem cleared_x : (s.cleared).x = 0 := rfl
@[simp] theorem cleared_kidx : (s.cleared).kidx = 0 := rfl
@[simp] theorem cleared_err : (s.cleared).err = .none := rfl
@[simp] theorem cleared_cause : (s.cleared).cause = .noCause := rfl
@[simp] theorem cleared_g0 : (s.cleared).g0 = Config.freeByte s.draws 0 := rfl
@[simp] theorem cleared_g1 : (s.cleared).g1 = Config.freeByte s.draws 1 := rfl
@[simp] theorem cleared_g2 : (s.cleared).g2 = Config.freeByte s.draws 2 := rfl
@[simp] theorem cleared_g3 : (s.cleared).g3 = Config.freeByte s.draws 3 := rfl
@[simp] theorem cleared_gsz : (s.cleared).gsz = Config.freeGroupSize s.draws := rfl
@[simp] theorem cleared_var : (s.cleared).var = Config.freeVariant s.draws := rfl
@[simp] theorem cleared_acc : (s.cleared).acc = 0 := rfl
@[simp] theorem cleared_nbits : (s.cleared).nbits = 0 := rfl
@[simp] theorem cleared_rixb : (s.cleared).rixb = Config.freeByte s.draws 4 := rfl
@[simp] theorem cleared_outCap : (s.cleared).outCap = s.outCap := rfl
@[simp] theorem cleared_maxPixels : (s.cleared).maxPixels = s.maxPixels := rfl
@[simp] theorem cleared_draws : (s.cleared).draws = s.draws + 1 := rfl
@[simp] theorem cleared_pixGen : (s.cleared).pixGen = s.pixGen := rfl
@[simp] theorem cleared_inbox : (s.cleared).inbox = s.inbox := rfl
@[simp] theorem cleared_dec : (s.cleared).dec = s.dec := rfl

@[simp] theorem hardReset_width : (s.hardReset).width = 0 := rfl
@[simp] theorem hardReset_height : (s.hardReset).height = 0 := rfl
@[simp] theorem hardReset_pix : (s.hardReset).pix = [] := rfl
@[simp] theorem hardReset_rp : (s.hardReset).rp = [] := rfl
@[simp] theorem hardReset_out : (s.hardReset).out = [] := rfl
@[simp] theorem hardReset_outLen : (s.hardReset).outLen = 0 := rfl
@[simp] theorem hardReset_phase : (s.hardReset).phase = .idle := rfl
@[simp] theorem hardReset_y : (s.hardReset).y = 0 := rfl
@[simp] theorem hardReset_x : (s.hardReset).x = 0 := rfl
@[simp] theorem hardReset_kidx : (s.hardReset).kidx = 0 := rfl
@[simp] theorem hardReset_err : (s.hardReset).err = .none := rfl
@[simp] theorem hardReset_cause : (s.hardReset).cause = .noCause := rfl
@[simp] theorem hardReset_g0 : (s.hardReset).g0 = 0 := rfl
@[simp] theorem hardReset_g1 : (s.hardReset).g1 = 0 := rfl
@[simp] theorem hardReset_g2 : (s.hardReset).g2 = 0 := rfl
@[simp] theorem hardReset_g3 : (s.hardReset).g3 = 0 := rfl
@[simp] theorem hardReset_gsz : (s.hardReset).gsz = .one := rfl
@[simp] theorem hardReset_var : (s.hardReset).var = .w := rfl
@[simp] theorem hardReset_acc : (s.hardReset).acc = 0 := rfl
@[simp] theorem hardReset_nbits : (s.hardReset).nbits = 0 := rfl
@[simp] theorem hardReset_rixb : (s.hardReset).rixb = 0 := rfl
@[simp] theorem hardReset_outCap : (s.hardReset).outCap = s.outCap := rfl
@[simp] theorem hardReset_maxPixels : (s.hardReset).maxPixels = s.maxPixels := rfl
@[simp] theorem hardReset_draws : (s.hardReset).draws = s.draws + 1 := rfl
@[simp] theorem hardReset_pixGen : (s.hardReset).pixGen = s.pixGen + 1 := rfl
@[simp] theorem hardReset_inbox : (s.hardReset).inbox = s.inbox := rfl
@[simp] theorem hardReset_dec : (s.hardReset).dec = s.dec := rfl

@[simp] theorem pokePix_width (a : Nat) (b : Byte) : (State.pokePix a b s).width = s.width := rfl
@[simp] theorem pokePix_height (a : Nat) (b : Byte) : (State.pokePix a b s).height = s.height := rfl
@[simp] theorem pokePix_pix (a : Nat) (b : Byte) : (State.pokePix a b s).pix = Memory.write s.pix a b := rfl
@[simp] theorem pokePix_rp (a : Nat) (b : Byte) : (State.pokePix a b s).rp = s.rp := rfl
@[simp] theorem pokePix_out (a : Nat) (b : Byte) : (State.pokePix a b s).out = s.out := rfl
@[simp] theorem pokePix_outLen (a : Nat) (b : Byte) : (State.pokePix a b s).outLen = s.outLen := rfl
@[simp] theorem pokePix_phase (a : Nat) (b : Byte) : (State.pokePix a b s).phase = s.phase := rfl
@[simp] theorem pokePix_y (a : Nat) (b : Byte) : (State.pokePix a b s).y = s.y := rfl
@[simp] theorem pokePix_x (a : Nat) (b : Byte) : (State.pokePix a b s).x = s.x := rfl
@[simp] theorem pokePix_kidx (a : Nat) (b : Byte) : (State.pokePix a b s).kidx = s.kidx := rfl
@[simp] theorem pokePix_err (a : Nat) (b : Byte) : (State.pokePix a b s).err = s.err := rfl
@[simp] theorem pokePix_cause (a : Nat) (b : Byte) : (State.pokePix a b s).cause = s.cause := rfl
@[simp] theorem pokePix_g0 (a : Nat) (b : Byte) : (State.pokePix a b s).g0 = s.g0 := rfl
@[simp] theorem pokePix_g1 (a : Nat) (b : Byte) : (State.pokePix a b s).g1 = s.g1 := rfl
@[simp] theorem pokePix_g2 (a : Nat) (b : Byte) : (State.pokePix a b s).g2 = s.g2 := rfl
@[simp] theorem pokePix_g3 (a : Nat) (b : Byte) : (State.pokePix a b s).g3 = s.g3 := rfl
@[simp] theorem pokePix_gsz (a : Nat) (b : Byte) : (State.pokePix a b s).gsz = s.gsz := rfl
@[simp] theorem pokePix_var (a : Nat) (b : Byte) : (State.pokePix a b s).var = s.var := rfl
@[simp] theorem pokePix_acc (a : Nat) (b : Byte) : (State.pokePix a b s).acc = s.acc := rfl
@[simp] theorem pokePix_nbits (a : Nat) (b : Byte) : (State.pokePix a b s).nbits = s.nbits := rfl
@[simp] theorem pokePix_rixb (a : Nat) (b : Byte) : (State.pokePix a b s).rixb = s.rixb := rfl
@[simp] theorem pokePix_outCap (a : Nat) (b : Byte) : (State.pokePix a b s).outCap = s.outCap := rfl
@[simp] theorem pokePix_maxPixels (a : Nat) (b : Byte) : (State.pokePix a b s).maxPixels = s.maxPixels := rfl
@[simp] theorem pokePix_draws (a : Nat) (b : Byte) : (State.pokePix a b s).draws = s.draws := rfl
@[simp] theorem pokePix_pixGen (a : Nat) (b : Byte) : (State.pokePix a b s).pixGen = s.pixGen := rfl
@[simp] theorem pokePix_inbox (a : Nat) (b : Byte) : (State.pokePix a b s).inbox = s.inbox := rfl
@[simp] theorem pokePix_dec (a : Nat) (b : Byte) : (State.pokePix a b s).dec = s.dec := rfl

@[simp] theorem callDecode_width (bs : List Byte) : (State.callDecode bs s).width = s.width := rfl
@[simp] theorem callDecode_height (bs : List Byte) : (State.callDecode bs s).height = s.height := rfl
@[simp] theorem callDecode_pix (bs : List Byte) : (State.callDecode bs s).pix = s.pix := rfl
@[simp] theorem callDecode_rp (bs : List Byte) : (State.callDecode bs s).rp = s.rp := rfl
@[simp] theorem callDecode_out (bs : List Byte) : (State.callDecode bs s).out = s.out := rfl
@[simp] theorem callDecode_outLen (bs : List Byte) : (State.callDecode bs s).outLen = s.outLen := rfl
@[simp] theorem callDecode_phase (bs : List Byte) : (State.callDecode bs s).phase = s.phase := rfl
@[simp] theorem callDecode_y (bs : List Byte) : (State.callDecode bs s).y = s.y := rfl
@[simp] theorem callDecode_x (bs : List Byte) : (State.callDecode bs s).x = s.x := rfl
@[simp] theorem callDecode_kidx (bs : List Byte) : (State.callDecode bs s).kidx = s.kidx := rfl
@[simp] theorem callDecode_err (bs : List Byte) : (State.callDecode bs s).err = s.err := rfl
@[simp] theorem callDecode_cause (bs : List Byte) : (State.callDecode bs s).cause = s.cause := rfl
@[simp] theorem callDecode_g0 (bs : List Byte) : (State.callDecode bs s).g0 = s.g0 := rfl
@[simp] theorem callDecode_g1 (bs : List Byte) : (State.callDecode bs s).g1 = s.g1 := rfl
@[simp] theorem callDecode_g2 (bs : List Byte) : (State.callDecode bs s).g2 = s.g2 := rfl
@[simp] theorem callDecode_g3 (bs : List Byte) : (State.callDecode bs s).g3 = s.g3 := rfl
@[simp] theorem callDecode_gsz (bs : List Byte) : (State.callDecode bs s).gsz = s.gsz := rfl
@[simp] theorem callDecode_var (bs : List Byte) : (State.callDecode bs s).var = s.var := rfl
@[simp] theorem callDecode_acc (bs : List Byte) : (State.callDecode bs s).acc = s.acc := rfl
@[simp] theorem callDecode_nbits (bs : List Byte) : (State.callDecode bs s).nbits = s.nbits := rfl
@[simp] theorem callDecode_rixb (bs : List Byte) : (State.callDecode bs s).rixb = s.rixb := rfl
@[simp] theorem callDecode_outCap (bs : List Byte) : (State.callDecode bs s).outCap = s.outCap := rfl
@[simp] theorem callDecode_maxPixels (bs : List Byte) : (State.callDecode bs s).maxPixels = s.maxPixels := rfl
@[simp] theorem callDecode_draws (bs : List Byte) : (State.callDecode bs s).draws = s.draws := rfl
@[simp] theorem callDecode_pixGen (bs : List Byte) : (State.callDecode bs s).pixGen = s.pixGen := rfl
@[simp] theorem callDecode_inbox (bs : List Byte) : (State.callDecode bs s).inbox = s.inbox := rfl
@[simp] theorem callDecode_dec (bs : List Byte) : (State.callDecode bs s).dec = { Dec.init bs with phase := .readHeader } := rfl

end Sys2Proof.Machine
end

