-- ==== Sys2Proof/Laws/Output.lean ====
section
/-! SUPPORT. `OutAppend`: everything it can do, and what it does to the bytes of OUT (R55). -/

namespace Sys2Proof.Machine

/-- The state after a byte has been appended. -/
def State.appended (s : State) (v : Byte) : State :=
  { s with out := Memory.write s.out s.outLen v, outLen := s.outLen + 1 }

/-- `OutAppend` raises when OUT is full, else appends, and faults only beyond OUT_CAP. -/
theorem outAppend_cases (v : Byte) (s : State) :
    (s.outCap = some s.outLen ∧ outAppend v s = .raised .outputFull) ∨
    (s.room 1 ∧ outAppend v s = .ok (s.appended v)) ∨
    (¬ s.outWithinCap ∧ outAppend v s = .fault (.outRange s.outLen)) := by
  unfold outAppend outExists State.room State.outWithinCap State.room State.appended
  cases hc : s.outCap with
  | none => simp
  | some cap =>
    by_cases h1 : cap = s.outLen
    · simp [h1]
    · by_cases h2 : s.outLen < cap
      · right; left
        simp [h1, h2]
      · right; right
        simp [h1, h2]
        omega

theorem outAppend_of_room {v : Byte} {s : State} (h : s.room 1) : outAppend v s = .ok (s.appended v) := by
  rcases outAppend_cases v s with ⟨hc, _⟩ | ⟨_, he⟩ | ⟨hn, _⟩
  · have := h _ hc; omega
  · exact he
  · exact absurd (fun cap hcap => by have := h cap hcap; omega) hn

theorem outAppend_of_full {v : Byte} {s : State} (h : s.outCap = some s.outLen) :
    outAppend v s = .raised .outputFull := by
  simp [outAppend, h]

theorem outAppend_eq_ok {v : Byte} {s t : State} (h : outAppend v s = .ok t) : t = s.appended v := by
  rcases outAppend_cases v s with ⟨_, he⟩ | ⟨_, he⟩ | ⟨_, he⟩ <;> rw [he] at h <;> simp at h
  exact h.symm

/-- After an append OUT_LEN is within OUT_CAP. -/
theorem outAppend_withinCap {v : Byte} {s t : State} (h : outAppend v s = .ok t) : t.outWithinCap := by
  rcases outAppend_cases v s with ⟨_, he⟩ | ⟨hr, he⟩ | ⟨_, he⟩ <;> rw [he] at h <;> simp at h
  subst h
  exact hr

theorem outAppend_eq_raised {v : Byte} {s : State} {c : Cause} (h : outAppend v s = .raised c) : c = .outputFull := by
  rcases outAppend_cases v s with ⟨_, he⟩ | ⟨_, he⟩ | ⟨_, he⟩ <;> rw [he] at h <;> simp at h
  exact h.symm

/-- The appended byte follows the bytes already there. -/
theorem outBytes_appended (s : State) (v : Byte) : outBytes (s.appended v) = outBytes s ++ [v] := by
  simp only [outBytes, State.appended, List.range_succ, List.filterMap_append]
  congr 1
  · apply List.filterMap_congr
    intro a ha
    exact Memory.read_write_other _ _ (by simp at ha; omega)
  · simp

theorem OutKept.refl (s : State) : OutKept s s := fun _ _ => rfl

theorem OutKept.trans {s t u : State} (h : OutKept s t) (k : OutKept t u) (h1 : s.outLen ≤ t.outLen)
    (h2 : t.outLen ≤ u.outLen) : OutKept s u := by
  intro a ha
  rw [k a (by omega), h a (by omega)]

theorem outKept_appended (s : State) (v : Byte) : OutKept s (s.appended v) := by
  intro a ha
  exact Memory.read_write_other _ _ (by simp [State.appended] at ha; omega)

theorem outDense_lt {s : State} (h : s.outDense) : ∀ c ∈ s.out, c.1 < s.outLen := by
  intro c hc
  have : c.1 ∈ s.out.map Prod.fst := List.mem_map_of_mem hc
  rw [h] at this
  simpa using this

theorem outDense_appended {s : State} (h : s.outDense) (v : Byte) : (s.appended v).outDense := by
  simp only [State.outDense, State.appended, Memory.write_append v (outDense_lt h), List.map_append, List.range_succ]
  rw [h]
  rfl

theorem outDense_read {s : State} (h : s.outDense) {a : Nat} (ha : a < s.outLen) :
    ∃ b, Memory.read s.out a = some b := by
  have hmem : a ∈ s.out.map Prod.fst := by rw [h]; simpa using ha
  generalize s.out = m at hmem
  induction m with
  | nil => simp at hmem
  | cons c m ih =>
    obtain ⟨e, w⟩ := c
    by_cases he : e = a
    · exact ⟨w, by simp [Memory.read, he]⟩
    · simp only [List.map_cons, List.mem_cons] at hmem
      obtain ⟨b, hb⟩ := ih (hmem.resolve_left (Ne.symm he))
      exact ⟨b, by simp [Memory.read, he, hb]⟩

theorem outBytes_length {s : State} (h : s.outDense) : (outBytes s).length = s.outLen := by
  have key : ∀ n, n ≤ s.outLen → ((List.range n).filterMap (Memory.read s.out)).length = n := by
    intro n
    induction n with
    | zero => intro; rfl
    | succ n ih =>
      intro hn
      obtain ⟨b, hb⟩ := outDense_read h (a := n) (by omega)
      simp [List.range_succ, List.filterMap_append, hb, ih (by omega)]
  exact key _ le_rfl

/-- Byte `a` of the appended bytes is what OUT holds at `a`. -/
theorem outBytes_getElem {s : State} (h : s.outDense) {a : Nat} (ha : a < s.outLen) :
    (outBytes s)[a]? = Memory.read s.out a := by
  have hread : ∀ i ∈ List.range s.outLen, Memory.read s.out i = some ((Memory.read s.out i).getD 0) := by
    intro i hi
    obtain ⟨b, hb⟩ := outDense_read h (by simpa using hi)
    rw [hb]
    rfl
  rw [outBytes, List.filterMap_congr hread, ← Function.comp_def some, List.filterMap_eq_map,
    List.getElem?_map, List.getElem?_range ha]
  exact (hread a (by simpa using ha)).symm

/-- What the host reads in Done (R39, R64). -/
theorem hostReadOut_of_done {s : State} (hp : s.phase = .done) (h : s.outDense) {a : Nat} (ha : a < s.outLen) :
    hostReadOut s a = (outBytes s)[a]? := by
  rw [outBytes_getElem h ha, hostReadOut, if_pos ⟨hp, ha⟩]

theorem sink_length {s : State} (h : s.outDense) : s.sink.length = 8 * s.outLen + s.nbits.val := by
  simp [State.sink, outBytes_length h]

/-! Several bytes. -/

/-- What `OutAppend` of each byte does when there is room for all. -/
theorem outAppendAll_of_room (vs : List Byte) (s : State) (h : s.room vs.length) :
    ∃ t, outAppendAll vs s = .ok t ∧ outBytes t = outBytes s ++ vs ∧ t.outLen = s.outLen + vs.length ∧
      (s.outDense → t.outDense) ∧ OutKept s t ∧
      t = { s with out := t.out, outLen := t.outLen } := by
  induction vs generalizing s with
  | nil => exact ⟨s, rfl, by simp, by simp, id, OutKept.refl s, rfl⟩
  | cons v vs ih =>
    have h1 : s.room 1 := fun cap hc => by have := h cap hc; simp at this; omega
    have h2 : (s.appended v).room vs.length := fun cap hc => by
      have := h cap hc
      simp [State.appended] at this ⊢
      omega
    obtain ⟨t, ht, hb, hl, hd, hr, hf⟩ := ih _ h2
    refine ⟨t, by simp [outAppendAll, outAppend_of_room h1, ht], ?_, ?_, ?_, ?_, ?_⟩
    · rw [hb, outBytes_appended]
      simp
    · rw [hl]
      simp [State.appended]
      omega
    · exact fun hs => hd (outDense_appended hs v)
    · exact (outKept_appended s v).trans hr (by simp [State.appended]) (by omega)
    · rw [hf]
      rfl

/-- `OutAppend` of each byte raises OutputFull when they do not all fit. -/
theorem outAppendAll_of_full (vs : List Byte) (s : State) {cap : Nat} (hc : s.outCap = some cap)
    (h1 : s.outLen ≤ cap) (h2 : cap < s.outLen + vs.length) : outAppendAll vs s = .raised .outputFull := by
  induction vs generalizing s with
  | nil => simp at h2; omega
  | cons v vs ih =>
    by_cases he : cap = s.outLen
    · simp [outAppendAll, outAppend_of_full (he ▸ hc)]
    · have h3 : s.room 1 := fun c hcc => by rw [hc] at hcc; simp at hcc; omega
      simp only [outAppendAll, outAppend_of_room h3, Res.bind_ok]
      apply ih
      · exact hc
      · simp [State.appended]; omega
      · simp [State.appended] at h2 ⊢; omega

theorem outAppendAll_eq_raised {vs : List Byte} {s : State} {c : Cause} (h : outAppendAll vs s = .raised c) :
    c = .outputFull := by
  induction vs generalizing s with
  | nil => simp [outAppendAll] at h
  | cons v vs ih =>
    rcases Res.bind_eq_raised.mp h with h | ⟨t, _, h⟩
    · exact outAppend_eq_raised h
    · exact ih h

/-- Everything `OutAppend` of each byte leaves alone. -/
theorem outAppendAll_frame {vs : List Byte} {s t : State} (h : outAppendAll vs s = .ok t) :
    t = { s with out := t.out, outLen := t.outLen } ∧ s.outLen ≤ t.outLen ∧
      OutKept s t ∧
      (s.outDense → t.outDense) ∧ (Memory.wf s.out = true → Memory.wf t.out = true) ∧
      (s.outWithinCap → t.outWithinCap) := by
  induction vs generalizing s with
  | nil =>
    obtain rfl : s = t := by simpa [outAppendAll] using h
    exact ⟨rfl, le_rfl, OutKept.refl s, id, id, id⟩
  | cons v vs ih =>
    obtain ⟨u, hu, h⟩ := Res.bind_eq_ok.mp h
    have hcap := outAppend_withinCap hu
    have := outAppend_eq_ok hu
    subst this
    obtain ⟨hf, hl, hr, hd, hw, hc⟩ := ih h
    refine ⟨by rw [hf]; rfl, ?_, ?_, ?_, ?_, fun _ => hc hcap⟩
    · have : (s.appended v).outLen = s.outLen + 1 := rfl
      omega
    · exact (outKept_appended s v).trans hr (by simp [State.appended]) hl
    · exact fun hs => hd (outDense_appended hs v)
    · exact fun hs => hw (Memory.wf_write _ _ hs)

end Sys2Proof.Machine
end

