-- ==== Sys2Proof/Laws/Packer.lean ====
section
/-! SUPPORT. The packer: what PUTBIT, a run of PUTBITs and FLUSH do to the sink, when they raise, and what they leave
alone (R131 to R137). -/

namespace Sys2Proof.Machine

/-! One bit in ACC. -/

/-- ACC with the bit `b` placed after the `n` bits already there (R132). -/
def placeBit (acc : Byte) (n : Nat) (b : Bool) : Byte :=
  if b then acc + BitVec.ofNat 8 (2 ^ (7 - n)) else acc

/-- Adding at a zero position sets that bit and no other. -/
theorem placeBit_getLsbD {acc : Byte} {n : Nat} (hn : n < 8) (h : ∀ i, i < 8 - n → acc.getLsbD i = false) (b : Bool)
    (i : Nat) : (placeBit acc n b).getLsbD i = (acc.getLsbD i || (b && decide (i = 7 - n))) := by
  cases b with
  | false => simp [placeBit]
  | true =>
    have hz : acc &&& BitVec.twoPow 8 (7 - n) = 0#8 := by
      ext j hj
      simp only [BitVec.getElem_and, BitVec.getElem_zero, BitVec.getElem_twoPow]
      by_cases hjn : j = 7 - n
      · have := h j (by omega)
        rw [BitVec.getLsbD_eq_getElem hj] at this
        simp [this]
      · simp [hjn]
    have htp : BitVec.ofNat 8 (2 ^ (7 - n)) = BitVec.twoPow 8 (7 - n) := by
      apply BitVec.eq_of_toNat_eq
      simp [BitVec.toNat_twoPow]
    simp only [placeBit, if_true, htp, BitVec.add_eq_or_of_and_eq_zero _ _ hz, BitVec.getLsbD_or,
      BitVec.getLsbD_twoPow]
    congr 1
    by_cases hi : i = 7 - n
    · simp [hi]; omega
    · simp [hi, Ne.symm hi]

theorem bits8_placeBit {acc : Byte} {n : Nat} (hn : n < 8) (h : ∀ i, i < 8 - n → acc.getLsbD i = false) (b : Bool) :
    (bits8 (placeBit acc n b)).take (n + 1) = (bits8 acc).take n ++ [b] := by
  apply List.ext_getElem?
  intro i
  rw [List.getElem?_take]
  split
  · rename_i hi
    rw [bits8_getElem _ _ (by omega), placeBit_getLsbD hn h]
    by_cases hin : i = n
    · subst hin
      rw [List.getElem?_append_right (by simp)]
      have h0 := h (7 - i) (by omega)
      simp [h0, Nat.min_eq_left (show i ≤ 8 by omega)]
    · rw [List.getElem?_append_left (by simp; omega), List.getElem?_take, if_pos (by omega),
        bits8_getElem _ _ (by omega)]
      have : ¬ (7 - i = 7 - n) := by omega
      simp [this]
  · rename_i hi
    rw [List.getElem?_eq_none (by simp; omega)]

theorem placeBit_clean {acc : Byte} {n : Nat} (hn : n < 7) (h : ∀ i, i < 8 - n → acc.getLsbD i = false) (b : Bool)
    (i : Nat) (hi : i < 8 - (n + 1)) : (placeBit acc n b).getLsbD i = false := by
  rw [placeBit_getLsbD (by omega) h, h i (by omega)]
  have : ¬ (i = 7 - n) := by omega
  simp [this]

/-! PUTBIT. -/

/-- The state after a bit that does not complete a byte. -/
def State.bitPlaced (s : State) (b : Bool) : State :=
  { s with acc := placeBit s.acc s.nbits.val b, nbits := s.nbits + 1 }

/-- The state after a bit that completes a byte. -/
def State.byteCompleted (s : State) (b : Bool) : State :=
  { s.appended (placeBit s.acc s.nbits.val b) with acc := 0, nbits := 0 }

theorem putBit_of_lt {s : State} (h : s.nbits ≠ 7) (b : Bool) : putBit b s = .ok (s.bitPlaced b) := by
  simp [putBit, h, State.bitPlaced, placeBit]

theorem putBit_of_eq {s : State} (h : s.nbits = 7) (b : Bool) :
    putBit b s = (outAppend (placeBit s.acc s.nbits.val b) s).bind fun t => .ok { t with acc := 0, nbits := 0 } := by
  simp [putBit, h, placeBit]

theorem nbits_succ {n : Fin 8} (h : n ≠ 7) : (n + 1).val = n.val + 1 := by
  have : n.val ≠ 7 := fun hn => h (Fin.ext hn)
  have := n.isLt
  rw [Fin.val_add_one_of_lt' (by omega)]

/-- What a received bit does to the sink, when there is room for the byte it may complete. -/
theorem putBit_emits {s : State} (hs : s.sinkReady) (b : Bool) (hr : s.room ((s.nbits.val + 1) / 8)) :
    ∃ t, putBit b s = .ok t ∧ Emits s t [b] := by
  obtain ⟨hc, hd⟩ := hs
  by_cases h7 : s.nbits = 7
  · have hroom : s.room 1 := by simpa [h7] using hr
    refine ⟨s.byteCompleted b, by rw [putBit_of_eq h7, outAppend_of_room hroom]; rfl, ?_, ⟨?_, ?_⟩, ?_, ?_, ?_⟩
    · have hb : bits8 (placeBit s.acc s.nbits.val b) = (bits8 s.acc).take s.nbits.val ++ [b] := by
        have := bits8_placeBit s.nbits.isLt hc b
        rwa [List.take_of_length_le (by simp [h7])] at this
      have ho : outBytes (s.byteCompleted b) = outBytes s ++ [placeBit s.acc s.nbits.val b] := outBytes_appended s _
      have hn : (s.byteCompleted b).nbits = 0 := rfl
      simp only [State.sink, ho, hn]
      simp [hb]
    · intro i _
      exact BitVec.getLsbD_zero
    · exact outDense_appended hd _
    · exact Nat.le_succ _
    · exact outKept_appended s _
    · rfl
  · refine ⟨s.bitPlaced b, putBit_of_lt h7 b, ?_, ⟨?_, hd⟩, le_rfl, OutKept.refl s, rfl⟩
    · have hn : (s.bitPlaced b).nbits.val = s.nbits.val + 1 := nbits_succ h7
      have ha : (s.bitPlaced b).acc = placeBit s.acc s.nbits.val b := rfl
      have ho : outBytes (s.bitPlaced b) = outBytes s := rfl
      simp only [State.sink, hn, ha, ho, bits8_placeBit s.nbits.isLt hc, List.append_assoc]
    · intro i hi
      have hn : (s.bitPlaced b).nbits.val = s.nbits.val + 1 := nbits_succ h7
      have h7' : s.nbits.val ≠ 7 := fun h => h7 (Fin.ext h)
      rw [hn] at hi
      exact placeBit_clean (by have := s.nbits.isLt; omega) hc b i hi

theorem Emits.refl {s : State} (h : s.sinkReady) : Emits s s [] := ⟨by simp, h, le_rfl, OutKept.refl s, rfl⟩

theorem Emits.trans {s t u : State} {bs cs : Bits} (h : Emits s t bs) (k : Emits t u cs) : Emits s u (bs ++ cs) := by
  obtain ⟨h1, h2, h3, h4, h5⟩ := h
  obtain ⟨k1, k2, k3, k4, k5⟩ := k
  exact ⟨by rw [k1, h1, List.append_assoc], k2, le_trans h3 k3, h4.trans k4 h3 k3, by rw [k5, h5]⟩

/-- How far the sink has moved on. -/
theorem Emits.count {s t : State} {bs : Bits} (hs : s.sinkReady) (h : Emits s t bs) :
    8 * t.outLen + t.nbits.val = 8 * s.outLen + s.nbits.val + bs.length := by
  have h1 := congrArg List.length h.1
  rw [List.length_append, sink_length hs.2, sink_length h.2.1.2] at h1
  exact h1

theorem Emits.outCap {s t : State} {bs : Bits} (h : Emits s t bs) : t.outCap = s.outCap := by
  rw [h.2.2.2.2]

/-- What a run of bits does to the sink, when there is room for the bytes it completes. -/
theorem putBits_emits (bs : Bits) {s : State} (hs : s.sinkReady) (hr : s.room ((s.nbits.val + bs.length) / 8)) :
    ∃ t, putBits bs s = .ok t ∧ Emits s t bs := by
  induction bs generalizing s with
  | nil => exact ⟨s, rfl, Emits.refl hs⟩
  | cons b bs ih =>
    obtain ⟨t, ht, he⟩ := putBit_emits hs b (fun cap hc => by have := hr cap hc; simp at this; omega)
    have hcount := he.count hs
    obtain ⟨u, hu, hk⟩ := ih (s := t) he.2.1 (fun cap hc => by
      have := hr cap (he.outCap ▸ hc)
      have h1 := t.nbits.isLt
      have h2 := s.nbits.isLt
      simp at this hcount
      omega)
    exact ⟨u, by simp [putBits, ht, hu], he.trans hk⟩

/-- A run of bits raises OutputFull when a byte it completes does not fit (R137). -/
theorem putBits_of_full (bs : Bits) {s : State} {cap : Nat} (hc : s.outCap = some cap) (h1 : s.outLen ≤ cap)
    (h2 : cap < s.outLen + (s.nbits.val + bs.length) / 8) : putBits bs s = .raised .outputFull := by
  induction bs generalizing s with
  | nil => have := s.nbits.isLt; simp at h2; omega
  | cons b bs ih =>
    by_cases h7 : s.nbits = 7
    · by_cases he : cap = s.outLen
      · simp [putBits, putBit_of_eq h7, outAppend_of_full (he ▸ hc)]
      · have hroom : s.room 1 := fun c hcc => by rw [hc] at hcc; simp at hcc; omega
        simp only [putBits, putBit_of_eq h7, outAppend_of_room hroom, Res.bind_ok]
        apply ih
        · exact hc
        · simp [State.appended]; omega
        · simp [State.appended, h7] at h2 ⊢; omega
    · simp only [putBits, putBit_of_lt h7, Res.bind_ok]
      apply ih
      · exact hc
      · exact h1
      · have hn : (s.bitPlaced b).nbits.val = s.nbits.val + 1 := nbits_succ h7
        have ho : (s.bitPlaced b).outLen = s.outLen := rfl
        rw [hn, ho]
        simp at h2
        omega

theorem putBits_append (bs cs : Bits) (s : State) : putBits (bs ++ cs) s = (putBits bs s).bind (putBits cs) := by
  induction bs generalizing s with
  | nil => rfl
  | cons b bs ih =>
    simp only [List.cons_append, putBits, Res.bind_assoc]
    congr 1
    funext t
    exact ih t

/-- What the packer never touches, and that OUT only grows. -/
def PackerFrame (s t : State) : Prop :=
  t = { s with acc := t.acc, nbits := t.nbits, out := t.out, outLen := t.outLen } ∧ s.outLen ≤ t.outLen ∧
  OutKept s t ∧
  (s.outDense → t.outDense) ∧ (Memory.wf s.out = true → Memory.wf t.out = true) ∧
  (s.packerClean → t.packerClean) ∧ (s.outWithinCap → t.outWithinCap)

theorem PackerFrame.refl (s : State) : PackerFrame s s := ⟨rfl, le_rfl, OutKept.refl s, id, id, id, id⟩

theorem PackerFrame.trans {s t u : State} (h : PackerFrame s t) (k : PackerFrame t u) : PackerFrame s u := by
  obtain ⟨h1, h2, h3, h4, h5, h6, h7⟩ := h
  obtain ⟨k1, k2, k3, k4, k5, k6, k7⟩ := k
  exact ⟨by rw [k1, h1], le_trans h2 k2, h3.trans k3 h2 k2, k4 ∘ h4, k5 ∘ h5, k6 ∘ h6, k7 ∘ h7⟩

theorem packerClean_of_zero {s : State} (h1 : s.acc = 0) : s.packerClean := by
  intro i _
  rw [h1]
  exact BitVec.getLsbD_zero

theorem putBit_frame {b : Bool} {s t : State} (h : putBit b s = .ok t) : PackerFrame s t := by
  by_cases h7 : s.nbits = 7
  · rw [putBit_of_eq h7] at h
    obtain ⟨u, hu, h⟩ := Res.bind_eq_ok.mp h
    have hcap := outAppend_withinCap hu
    have := outAppend_eq_ok hu
    subst this
    obtain rfl := by simpa using h
    exact ⟨rfl, Nat.le_succ _, outKept_appended s _, fun hd => outDense_appended hd _,
      fun hw => Memory.wf_write _ _ hw, fun _ => packerClean_of_zero rfl, fun _ => hcap⟩
  · rw [putBit_of_lt h7] at h
    obtain rfl := by simpa using h
    refine ⟨rfl, le_rfl, OutKept.refl s, id, id, fun hc i hi => ?_, id⟩
    have hn : (s.bitPlaced b).nbits.val = s.nbits.val + 1 := nbits_succ h7
    have h7' : s.nbits.val ≠ 7 := fun h => h7 (Fin.ext h)
    rw [hn] at hi
    exact placeBit_clean (by have := s.nbits.isLt; omega) hc b i hi

theorem putBits_frame {bs : Bits} {s t : State} (h : putBits bs s = .ok t) : PackerFrame s t := by
  induction bs generalizing s with
  | nil =>
    obtain rfl : s = t := by simpa [putBits] using h
    exact PackerFrame.refl s
  | cons b bs ih =>
    obtain ⟨u, hu, h⟩ := Res.bind_eq_ok.mp h
    exact (putBit_frame hu).trans (ih h)

theorem putBit_eq_raised {b : Bool} {s : State} {c : Cause} (h : putBit b s = .raised c) : c = .outputFull := by
  by_cases h7 : s.nbits = 7
  · rw [putBit_of_eq h7] at h
    rcases Res.bind_eq_raised.mp h with h | ⟨t, _, h⟩
    · exact outAppend_eq_raised h
    · simp at h
  · rw [putBit_of_lt h7] at h
    simp at h

theorem putBits_eq_raised {bs : Bits} {s : State} {c : Cause} (h : putBits bs s = .raised c) : c = .outputFull := by
  induction bs generalizing s with
  | nil => simp [putBits] at h
  | cons b bs ih =>
    rcases Res.bind_eq_raised.mp h with h | ⟨t, _, h⟩
    · exact putBit_eq_raised h
    · exact ih h

/-- The zero bits that complete a byte append ACC as it stands (R77, R134). -/
theorem putBits_zeros (k : Nat) (s : State) (h : s.nbits.val + (k+1) = 8) :
    putBits (List.replicate (k+1) false) s = (outAppend s.acc s).bind fun t => .ok { t with acc := 0, nbits := 0 } := by
  induction k generalizing s with
  | zero =>
    have h7 : s.nbits = 7 := Fin.ext (by simp; omega)
    simp [putBits, putBit_of_eq h7, placeBit]
    cases outAppend s.acc s <;> rfl
  | succ k ih =>
    have h7 : s.nbits ≠ 7 := fun hh => by rw [hh] at h; simp at h; omega
    rw [List.replicate_succ, putBits, putBit_of_lt h7, Res.bind_ok]
    rw [ih (s.bitPlaced false) (by have := nbits_succ h7; show (s.nbits+1).val + _ = _; omega)]
    have : (s.bitPlaced false) = {s with nbits := s.nbits + 1} := rfl
    rw [this]
    unfold outAppend outExists
    simp only
    split
    · rfl
    · split <;> (split <;> rfl)

/-! FLUSH. -/

/-- The state after the partial byte has been appended. -/
def State.flushed (s : State) : State := { s.appended s.acc with acc := 0, nbits := 0 }

/-- FLUSH does nothing at a byte boundary, else appends ACC, or raises when OUT is full (R133). -/
theorem flushPacker_cases (s : State) :
    (s.nbits = 0 ∧ flushPacker s = .ok s) ∨
    (s.nbits ≠ 0 ∧ flushPacker s = (outAppend s.acc s).bind fun t => .ok { t with acc := 0, nbits := 0 }) := by
  by_cases h : s.nbits = 0 <;> simp [flushPacker, h]

theorem flushPacker_of_room {s : State} (h : s.nbits ≠ 0) (hr : s.room 1) : flushPacker s = .ok s.flushed := by
  simp [flushPacker, h, outAppend_of_room hr, State.flushed]

theorem flushPacker_frame {s t : State} (h : flushPacker s = .ok t) : PackerFrame s t := by
  rcases flushPacker_cases s with ⟨_, he⟩ | ⟨_, he⟩
  · rw [he] at h
    obtain rfl : s = t := by simpa using h
    exact PackerFrame.refl s
  · rw [he] at h
    obtain ⟨u, hu, h⟩ := Res.bind_eq_ok.mp h
    have hcap := outAppend_withinCap hu
    have := outAppend_eq_ok hu
    subst this
    obtain rfl := by simpa using h
    exact ⟨rfl, Nat.le_succ _, outKept_appended s _, fun hd => outDense_appended hd _,
      fun hw => Memory.wf_write _ _ hw, fun _ => packerClean_of_zero rfl, fun _ => hcap⟩

theorem flushPacker_eq_raised {s : State} {c : Cause} (h : flushPacker s = .raised c) : c = .outputFull := by
  rcases flushPacker_cases s with ⟨_, he⟩ | ⟨_, he⟩
  · rw [he] at h; simp at h
  · rw [he] at h
    rcases Res.bind_eq_raised.mp h with h | ⟨t, _, h⟩
    · exact outAppend_eq_raised h
    · simp at h

/-- An error taken after the packer has moved on is the error taken before (R215). -/
theorem raise_congr {s t : State} (h : PackerFrame s t) (c : Cause) : raise c t = raise c s := by
  have := h.1
  rw [this]; rfl

theorem finish_eq_of_frame {m : Res State} {s t : State} (h : PackerFrame s t) : m.finish t = m.finish s := by
  cases m <;> simp [raise_congr h]

end Sys2Proof.Machine
end

