-- ==== Sys2Proof/Laws/Coder.lean ====
section
/-! SUPPORT. The row classifier and the group coder: what reading pixels, classifying, loading and emitting give
(R100 to R119). -/

namespace Sys2Proof.Machine

/-! Reading pixels. -/

theorem readPix_of_lt {s : State} {a : Nat} (h : a < dim s.width * dim s.height) : readPix s a = .ok (pixByte s a) := by
  simp [readPix, h]

theorem readPix_ne_raised (s : State) (a : Nat) (c : Cause) : readPix s a ≠ .raised c := by
  unfold readPix
  split <;> simp

/-- The pixels read are those at the addresses in order. -/
theorem readPixels_eq {s : State} (a n : Nat) (h : a + n ≤ dim s.width * dim s.height) :
    readPixels s a n = .ok ((List.range n).map fun i => pixByte s (a + i)) := by
  induction n generalizing a with
  | zero => rfl
  | succ n ih =>
    simp only [readPixels, readPix_of_lt (show a < dim s.width * dim s.height by omega), Res.bind_ok,
      ih (a + 1) (by omega), List.range_succ_eq_map, List.map_cons, List.map_map]
    simp [Function.comp_def, Nat.add_assoc, Nat.add_comm 1]

theorem readPixels_ne_raised (s : State) (a n : Nat) (c : Cause) : readPixels s a n ≠ .raised c := by
  induction n generalizing a with
  | zero => simp [readPixels]
  | succ n ih =>
    intro h
    rcases Res.bind_eq_raised.mp h with h | ⟨p, _, h⟩
    · exact readPix_ne_raised _ _ _ h
    · rcases Res.bind_eq_raised.mp h with h | ⟨ps, _, h⟩
      · exact ih _ h
      · simp at h

theorem anyNotWhite_eq {s : State} (a n : Nat) (h : a + n ≤ dim s.width * dim s.height) :
    anyNotWhite s a n = .ok ((List.range n).any fun i => pixByte s (a + i) != Config.white) := by
  induction n generalizing a with
  | zero => rfl
  | succ n ih =>
    simp only [anyNotWhite, readPix_of_lt (show a < dim s.width * dim s.height by omega), Res.bind_ok,
      ih (a + 1) (by omega), List.range_succ_eq_map, List.any_cons, List.any_map]
    simp [Function.comp_def, Nat.add_assoc, Nat.add_comm 1]

theorem anyNotWhite_ne_raised (s : State) (a n : Nat) (c : Cause) : anyNotWhite s a n ≠ .raised c := by
  induction n generalizing a with
  | zero => simp [anyNotWhite]
  | succ n ih =>
    intro h
    rcases Res.bind_eq_raised.mp h with h | ⟨p, _, h⟩
    · exact readPix_ne_raised _ _ _ h
    · rcases Res.bind_eq_raised.mp h with h | ⟨ps, _, h⟩
      · exact ih _ h
      · simp at h

theorem row_within {y w h : Nat} (hy : y < h) : y * w + w ≤ w * h := by
  have : (y + 1) * w ≤ h * w := Nat.mul_le_mul_right w hy
  rw [Nat.mul_comm w h]
  linarith [Nat.succ_mul y w]

/-! CLS. -/

/-- `CLS` in its phase (R101). -/
theorem classifyRow_eq {s : State} (hy : s.y < dim s.height) :
    classifyRow s = .ok { s with
      rp := Memory.write s.rp s.y (presentRow (pixByte s) (dim s.width) s.y), y := s.y + 1 } := by
  simp only [classifyRow, rowBase, anyNotWhite_eq _ _ (row_within hy), Res.bind_ok, writeRp, hy, if_true, presentRow]

/-- Everything `CLS` leaves alone, wherever it goes on. -/
theorem classifyRow_eq_ok {s t : State} (h : classifyRow s = .ok t) :
    ∃ v, t = { s with rp := Memory.write s.rp s.y v, y := s.y + 1 } ∧ s.y < dim s.height := by
  obtain ⟨v, _, h⟩ := Res.bind_eq_ok.mp h
  obtain ⟨u, hu, h⟩ := Res.bind_eq_ok.mp h
  unfold writeRp at hu
  split at hu
  · rename_i hy
    obtain rfl := by simpa using hu
    obtain rfl := by simpa using h
    exact ⟨v, rfl, hy⟩
  · simp at hu

theorem classifyRow_ne_raised (s : State) (c : Cause) : classifyRow s ≠ .raised c := by
  intro h
  rcases Res.bind_eq_raised.mp h with h | ⟨v, _, h⟩
  · exact anyNotWhite_ne_raised _ _ _ _ h
  · rcases Res.bind_eq_raised.mp h with h | ⟨u, _, h⟩
    · unfold writeRp at h
      split at h <;> simp at h
    · simp at h

/-! LDG. -/

theorem groupCount_le (w x : Nat) : groupCount w x ≤ 4 := Nat.min_le_left _ _

theorem groupCount_pos {w x : Nat} (h : x < w) : 1 ≤ groupCount w x := by
  simp [groupCount, Config.groupMax]
  omega

theorem groupAt_length (px : Nat → Byte) (w y x : Nat) : (groupAt px w y x).length = groupCount w x := by
  simp [groupAt]

/-- What loading one to four pixels leaves in GSZ and the registers. -/
theorem loadGroup_group (s : State) {ps : List Byte} (h1 : 1 ≤ ps.length) (h4 : ps.length ≤ 4) :
    (s.loadGroup ps).group = ps ∧ (s.loadGroup ps).gsz.toNat = ps.length := by
  match ps, h1, h4 with
  | [_], _, _ => exact ⟨rfl, rfl⟩
  | [_, _], _, _ => exact ⟨rfl, rfl⟩
  | [_, _, _], _, _ => exact ⟨rfl, rfl⟩
  | [_, _, _, _], _, _ => exact ⟨rfl, rfl⟩
  | _ :: _ :: _ :: _ :: _ :: _, _, h => simp at h; omega

/-- Loading writes GSZ and G0..G3 only, and no register after the last pixel (R111). -/
theorem loadGroup_frame (s : State) (ps : List Byte) :
    s.loadGroup ps = { s with
      gsz := (s.loadGroup ps).gsz, g0 := (s.loadGroup ps).g0, g1 := (s.loadGroup ps).g1,
      g2 := (s.loadGroup ps).g2, g3 := (s.loadGroup ps).g3 } := by
  unfold State.loadGroup
  split <;> rfl

theorem loadGroup_keeps (s : State) (ps : List Byte) :
    (ps.length ≤ 1 → (s.loadGroup ps).g1 = s.g1) ∧ (ps.length ≤ 2 → (s.loadGroup ps).g2 = s.g2) ∧
      (ps.length ≤ 3 → (s.loadGroup ps).g3 = s.g3) := by
  unfold State.loadGroup
  split <;> simp

theorem group_within {y x w h : Nat} (hy : y < h) : y * w + x + groupCount w x ≤ w * h ∨ w ≤ x := by
  by_cases hx : x < w
  · left
    have := row_within (w := w) hy
    simp only [groupCount, Config.groupMax]
    omega
  · right; omega

/-- `LDG` in its domain (R111). -/
theorem loadGroup_eq {s : State} (hy : s.y < dim s.height) (hx : s.x < dim s.width) :
    loadGroup s = .ok (s.loadGroup (groupAt (pixByte s) (dim s.width) s.y s.x)) := by
  have hb := (group_within (x := s.x) (w := dim s.width) hy).resolve_right (by omega)
  simp only [loadGroup, hx, if_true, rowBase, readPixels_eq _ _ hb, Res.bind_ok, groupAt]

theorem loadGroup_eq_ok {s t : State} (h : loadGroup s = .ok t) : ∃ ps, t = s.loadGroup ps := by
  unfold loadGroup at h
  split at h
  · obtain ⟨ps, _, h⟩ := Res.bind_eq_ok.mp h
    exact ⟨ps, by simpa using h.symm⟩
  · simp at h

theorem loadGroup_ne_raised (s : State) (c : Cause) : loadGroup s ≠ .raised c := by
  unfold loadGroup
  split
  · intro h
    rcases Res.bind_eq_raised.mp h with h | ⟨ps, _, h⟩
    · exact readPixels_ne_raised _ _ _ _ h
    · simp at h
  · simp

/-! Emitting. -/

theorem putPixels_eq (ps : List Byte) (s : State) : putPixels ps s = putBits (ps.flatMap bits8) s := by
  induction ps generalizing s with
  | nil => rfl
  | cons p ps ih =>
    simp only [putPixels, putLow, List.flatMap_cons, putBits_append, bits8]
    congr 1
    funext t
    exact ih t

theorem emitMixed_eq (s : State) : emitMixed s = putBits (true :: true :: s.group.flatMap bits8) s := by
  have h : (true :: true :: s.group.flatMap bits8) = lowbits 3 2 ++ s.group.flatMap bits8 := rfl
  rw [h, putBits_append, emitMixed, putLow]
  congr 1
  funext t
  exact putPixels_eq _ t

theorem emitWhite_eq (s : State) : emitWhite s = putBits [false] s := rfl

theorem emitBlack_eq (s : State) : emitBlack s = putBits [true, false] s := rfl

/-- The emit operation selected for a group emits the group's code (R113 to R116). -/
theorem emitGroup_eq (s : State) : emitGroup (classifyGroup s) = putBits (codeOfGroup s.group) (classifyGroup s) := by
  have hg : (classifyGroup s).group = s.group := rfl
  unfold emitGroup codeOfGroup
  have hv : (classifyGroup s).var = variantOf s.group := rfl
  rw [hv]
  unfold variantOf
  split
  · rename_i h
    split at h
    · rw [emitWhite_eq]
      simp [*]
    · split at h <;> simp at h
  · rename_i h
    split at h
    · simp at h
    · split at h
      · rw [emitBlack_eq]
        simp [*]
      · simp at h
  · rename_i h
    split at h
    · simp at h
    · split at h
      · simp at h
      · rw [emitMixed_eq, hg]
        simp [*]

/-- The state `GRP` has classified, before it emits. -/
def State.grouped (s : State) : State :=
  classifyGroup (s.loadGroup (groupAt (pixByte s) (dim s.width) s.y s.x))

theorem grouped_group {s : State} (hx : s.x < dim s.width) :
    s.grouped.group = groupAt (pixByte s) (dim s.width) s.y s.x :=
  (loadGroup_group s (by rw [groupAt_length]; exact groupCount_pos hx)
    (by rw [groupAt_length]; exact groupCount_le _ _)).1

/-- `GRP` in its domain: load, classify, emit the group's code, move X on (R116). -/
theorem encodeGroup_eq {s : State} (hy : s.y < dim s.height) (hx : s.x < dim s.width) :
    encodeGroup s =
      (putBits (codeOfGroup (groupAt (pixByte s) (dim s.width) s.y s.x)) s.grouped).bind
        fun u => .ok { u with x := u.x + Config.groupMax } := by
  rw [encodeGroup, loadGroup_eq hy hx, Res.bind_ok, emitGroup_eq]
  rw [show (s.loadGroup (groupAt (pixByte s) (dim s.width) s.y s.x)).group
    = groupAt (pixByte s) (dim s.width) s.y s.x from grouped_group hx]
  rfl

theorem grouped_frame (s : State) :
    s.grouped = { s with
      gsz := s.grouped.gsz, g0 := s.grouped.g0, g1 := s.grouped.g1, g2 := s.grouped.g2, g3 := s.grouped.g3,
      var := s.grouped.var } := by
  unfold State.grouped classifyGroup
  rw [loadGroup_frame]

/-- What an emit operation leaves alone. -/
theorem emitGroup_frame {s t : State} (h : emitGroup s = .ok t) : PackerFrame s t := by
  unfold emitGroup at h
  split at h
  · exact putBits_frame h
  · exact putBits_frame h
  · rw [emitMixed_eq] at h
    exact putBits_frame h

theorem emitGroup_eq_raised {s : State} {c : Cause} (h : emitGroup s = .raised c) : c = .outputFull := by
  unfold emitGroup at h
  split at h
  · exact putBits_eq_raised h
  · exact putBits_eq_raised h
  · rw [emitMixed_eq] at h
    exact putBits_eq_raised h

/-- Everything `GRP` can do when it goes on. -/
theorem encodeGroup_eq_ok {s t : State} (h : encodeGroup s = .ok t) :
    ∃ ps u, emitGroup (classifyGroup (s.loadGroup ps)) = .ok u ∧ t = { u with x := u.x + Config.groupMax } := by
  obtain ⟨v, hv, h⟩ := Res.bind_eq_ok.mp h
  obtain ⟨ps, rfl⟩ := loadGroup_eq_ok hv
  obtain ⟨u, hu, h⟩ := Res.bind_eq_ok.mp h
  exact ⟨ps, u, hu, by simpa using h.symm⟩

theorem encodeGroup_eq_raised {s : State} {c : Cause} (h : encodeGroup s = .raised c) : c = .outputFull := by
  rcases Res.bind_eq_raised.mp h with h | ⟨v, _, h⟩
  · exact absurd h (loadGroup_ne_raised _ _)
  · rcases Res.bind_eq_raised.mp h with h | ⟨u, _, h⟩
    · exact emitGroup_eq_raised h
    · simp at h

/-- The group start columns of a row (R110). -/
theorem mem_groupStarts {w x : Nat} : x ∈ groupStarts w ↔ x < w ∧ x % 4 = 0 := by
  simp only [groupStarts, List.mem_map, List.mem_range]
  constructor
  · rintro ⟨k, hk, rfl⟩; omega
  · rintro ⟨h1, h2⟩; exact ⟨x / 4, by omega, by omega⟩

theorem variantOf_ne_w (g : List Byte) : variantOf g ≠ .w ↔ ∃ p ∈ g, p ≠ 255#8 := by
  unfold variantOf Config.white
  split
  · rename_i h; simp at h; simp; exact h
  · rename_i h; simp at h; split <;> simpa using h

theorem rpBit_write (s : State) (y : Nat) (v : Bool) (t : State) (h : t.rp = Memory.write s.rp y v) : rpBit t y = v := by
  simp [rpBit, h]

/-- The groups of a row, in order, are the row (R110). -/
theorem groupsPixels_upto (px : Nat → Byte) (w y k : Nat) :
    ((List.range k).map (4 * ·)).flatMap (groupAt px w y) = (List.range (min w (4 * k))).map (fun x => px (y * w + x)) := by
  induction k with
  | zero => simp
  | succ k ih =>
    rw [List.range_succ, List.map_append, List.flatMap_append, ih]
    simp only [List.map_cons, List.map_nil, List.flatMap_cons, List.flatMap_nil, List.append_nil, groupAt, groupCount, Config.groupMax]
    by_cases h : w ≤ 4 * k
    · have h1 : min w (4 * k) = w := by omega
      have h2 : min w (4 * (k+1)) = w := by omega
      have h3 : min 4 (w - 4 * k) = 0 := by omega
      rw [h1, h2, h3]; simp
    · have h1 : min w (4 * k) = 4 * k := by omega
      have h2 : min w (4 * (k+1)) = 4 * k + min 4 (w - 4 * k) := by omega
      rw [h1, h2, List.range_add, List.map_append, List.map_map]
      simp [Nat.add_assoc]

theorem rowPixels (px : Nat → Byte) (w y : Nat) :
    (groupStarts w).flatMap (groupAt px w y) = (List.range w).map (fun x => px (y * w + x)) := by
  rw [groupStarts, groupsPixels_upto]
  congr 2; omega

end Sys2Proof.Machine
end

