-- ==== Sys2Proof/Laws/Container.lean ====
section
/-! SUPPORT. The container's operations: the checks at START, the header, the row-index byte, the padding (R150 to R160). -/

namespace Sys2Proof.Machine

/-! The allocation check (R152, R187). -/

theorem exceedsPixels_eq_false {m : Option Nat} {w h : Word} (hw : 0 ≤ w.toInt) (hh : 0 ≤ h.toInt) :
    exceedsPixels m w h = false ↔ ∀ k, m = some k → w.toNat * h.toNat ≤ k := by
  rw [toInt_nonneg] at hw hh
  cases m <;> simp [exceedsPixels, dim_of_nonneg hw, dim_of_nonneg hh]

theorem exceedsPixels_eq_true {m : Option Nat} {w h : Word} (hw : 0 ≤ w.toInt) (hh : 0 ≤ h.toInt) :
    exceedsPixels m w h = true ↔ ∃ k, m = some k ∧ k < w.toNat * h.toNat := by
  rw [toInt_nonneg] at hw hh
  cases m <;> simp [exceedsPixels, dim_of_nonneg hw, dim_of_nonneg hh]

/-- Everything `START` can do when not busy: one of its two checks raises, the first failing one, or the call begins. -/
theorem beginCall_cases (s : State) :
    ((s.width.msb || s.height.msb) = true ∧ beginCall s = .raised .negativeDimension) ∨
    ((s.width.msb || s.height.msb) = false ∧ exceedsPixels s.maxPixels s.width s.height = true ∧
      beginCall s = .raised .rasterTooLarge) ∨
    ((s.width.msb || s.height.msb) = false ∧ exceedsPixels s.maxPixels s.width s.height = false ∧
      beginCall s = .ok { s.cleared with phase := .header }) := by
  unfold beginCall
  cases h1 : (s.width.msb || s.height.msb) <;>
    cases h2 : exceedsPixels s.maxPixels s.width s.height <;> simp

theorem encodeHeader_length (w h : Word) : (encodeHeader w h).length = 8 := rfl

/-- Everything `HDR` can do: append the header and go on, or raise OutputFull (R153). -/
theorem emitHeader_eq_ok {s t : State} (h : emitHeader s = .ok t) :
    ∃ u, outAppendAll (encodeHeader s.width s.height) s = .ok u ∧ t = { u with y := 0, phase := .classify } := by
  obtain ⟨u, hu, h⟩ := Res.bind_eq_ok.mp h
  exact ⟨u, hu, by simpa using h.symm⟩

theorem emitHeader_eq_raised {s : State} {c : Cause} (h : emitHeader s = .raised c) : c = .outputFull := by
  rcases Res.bind_eq_raised.mp h with h | ⟨u, _, h⟩
  · exact outAppendAll_eq_raised h
  · simp at h

/-- The state `RIX` leaves. -/
def State.rowIndexed (s : State) : State :=
  { (({ s with rixb := rowIndexByte s } : State).appended (rowIndexByte s)) with kidx := s.kidx + 1 }

/-- Everything `RIX` can do: append the byte and go on, or raise OutputFull (R155). -/
theorem emitRowIndex_of_room {s : State} (h : s.room 1) : emitRowIndex s = .ok s.rowIndexed := by
  have h' : ({ s with rixb := rowIndexByte s } : State).room 1 := h
  simp only [emitRowIndex, outAppend_of_room h', Res.bind_ok]
  rfl

theorem emitRowIndex_eq_ok {s t : State} (h : emitRowIndex s = .ok t) : t = s.rowIndexed ∧ t.outWithinCap := by
  obtain ⟨u, hu, h⟩ := Res.bind_eq_ok.mp h
  have hc := outAppend_withinCap hu
  obtain rfl := outAppend_eq_ok hu
  have := Res.ok.inj h
  subst this
  exact ⟨rfl, hc⟩

theorem emitRowIndex_eq_raised {s : State} {c : Cause} (h : emitRowIndex s = .raised c) : c = .outputFull := by
  rcases Res.bind_eq_raised.mp h with h | ⟨u, _, h⟩
  · exact outAppend_eq_raised h
  · simp at h

/-- Everything `PAD` leaves alone. -/
theorem emitPadding_frame {s t : State} (h : emitPadding s = .ok t) : PackerFrame s t := putBits_frame h

end Sys2Proof.Machine
end

