-- ==== Sys2Proof/Laws/Decoder.lean ====
section
/-! SUPPORT. Code words and the decoder: decoding an encoded word, what the bit source and a group read, and that a code
word executed and a group decoded are the same (R78 to R85, R119, R182 to R190). -/

namespace Sys2Proof.Machine

/-! Code words as bits. -/

theorem mixedWord_some {ps : List Byte} (h1 : 1 ≤ ps.length) (h4 : ps.length ≤ 4) :
    ∃ i, mixedWord ps = some i ∧ encode i = some (true :: true :: ps.flatMap bits8) ∧
      i.fitsGroup ps.length = true ∧ (∀ n, wordPixels n i = ps) ∧ wordLength i = 2 + 8 * ps.length := by
  match ps, h1, h4 with
  | [a], _, _ => exact ⟨_, rfl, by simp [encode], rfl, fun _ => rfl, rfl⟩
  | [a, b], _, _ => exact ⟨_, rfl, by simp [encode], rfl, fun _ => rfl, rfl⟩
  | [a, b, c], _, _ => exact ⟨_, rfl, by simp [encode], rfl, fun _ => rfl, rfl⟩
  | [a, b, c, d], _, _ => exact ⟨_, rfl, by simp [encode], rfl, fun _ => rfl, rfl⟩
  | _ :: _ :: _ :: _ :: _ :: _, _, h => simp at h; omega

/-- Raw bytes after `11` decode to their Mixed word. -/
theorem decodeWord_mixed {ps : List Byte} (h1 : 1 ≤ ps.length) (h4 : ps.length ≤ 4) (r : Bits) :
    ∃ i, decodeWord ps.length (true :: true :: (ps.flatMap bits8 ++ r)) = .ok (i, r) ∧ mixedWord ps = some i := by
  obtain ⟨i, hi, _⟩ := mixedWord_some h1 h4
  refine ⟨i, ?_, hi⟩
  have : ¬ (ps.length = 0 ∨ Config.groupMax < ps.length) := by simp only [Config.groupMax]; omega
  simp only [decodeWord, if_neg this, decodeMixed, takeBytes_flatMap, hi]

theorem decodeWord_white {n : Nat} (h1 : 1 ≤ n) (h4 : n ≤ 4) (r : Bits) :
    decodeWord n (false :: r) = .ok (.w, r) := by
  have : ¬ (n = 0 ∨ Config.groupMax < n) := by simp only [Config.groupMax]; omega
  simp [decodeWord, if_neg this]

theorem decodeWord_black {n : Nat} (h1 : 1 ≤ n) (h4 : n ≤ 4) (r : Bits) :
    decodeWord n (true :: false :: r) = .ok (.k, r) := by
  have : ¬ (n = 0 ∨ Config.groupMax < n) := by simp only [Config.groupMax]; omega
  simp [decodeWord, if_neg this]

/-- Everything a successful decoding of a code word can be. -/
theorem decodeWord_eq_ok {n : Nat} {s r : Bits} {i : Instr} (h : decodeWord n s = .ok (i, r)) :
    1 ≤ n ∧ n ≤ 4 ∧
    ((i = .w ∧ s = false :: r) ∨ (i = .k ∧ s = true :: false :: r) ∨
     ∃ ps : List Byte, ps.length = n ∧ mixedWord ps = some i ∧ s = true :: true :: (ps.flatMap bits8 ++ r)) := by
  unfold decodeWord at h
  split at h
  · simp at h
  · rename_i hn
    simp only [Config.groupMax, not_or, not_lt] at hn
    refine ⟨by omega, hn.2, ?_⟩
    split at h
    · simp at h
    · obtain ⟨rfl, rfl⟩ : Instr.w = i ∧ _ = r := by simpa using h
      exact .inl ⟨rfl, rfl⟩
    · simp at h
    · obtain ⟨rfl, rfl⟩ : Instr.k = i ∧ _ = r := by simpa using h
      exact .inr (.inl ⟨rfl, rfl⟩)
    · rename_i s'
      unfold decodeMixed at h
      split at h
      · simp at h
      · rename_i ps s'' hps
        split at h
        · simp at h
        · rename_i j hj
          obtain ⟨rfl, rfl⟩ : j = i ∧ s'' = r := by simpa using h
          obtain ⟨h1, h2⟩ := takeBytes_eq_some hps
          exact .inr (.inr ⟨ps, h1, hj, by rw [h2]⟩)

/-- Decoding fails, for a group of 1 to 4 pixels, only by running out of bits. -/
theorem decodeWord_eq_error {n : Nat} (h1 : 1 ≤ n) (h4 : n ≤ 4) {s : Bits} {e : Reject}
    (h : decodeWord n s = .error e) :
    e = .payloadExhausted ∧
    (s = [] ∨ s = [true] ∨ ∃ s', s = true :: true :: s' ∧ s'.length < 8 * n) := by
  unfold decodeWord at h
  rw [if_neg (by simp only [Config.groupMax]; omega)] at h
  split at h
  · exact ⟨by simpa using h.symm, .inl rfl⟩
  · simp at h
  · exact ⟨by simpa using h.symm, .inr (.inl rfl)⟩
  · simp at h
  · rename_i s'
    unfold decodeMixed at h
    by_cases hl : 8 * n ≤ s'.length
    · obtain ⟨ps, r, hps⟩ := takeBytes_isSome hl
      obtain ⟨hlen, _⟩ := takeBytes_eq_some hps
      obtain ⟨i, hi, _⟩ := mixedWord_some (ps := ps) (by omega) (by omega)
      simp [hps, hi] at h
    · split at h
      · exact ⟨by simpa using h.symm, .inr (.inr ⟨s', rfl, by omega⟩)⟩
      · rename_i ps s'' hps
        obtain ⟨hlen, hs⟩ := takeBytes_eq_some hps
        have : s'.length = 8 * n + s''.length := by
          rw [hs, List.length_append, List.length_flatMap]
          simp [hlen, Nat.mul_comm]
        omega

/-- The word of a group's code: it decodes, and gives the group back (R119). -/
theorem decodeWord_codeOfGroup {g : List Byte} (h1 : 1 ≤ g.length) (h4 : g.length ≤ 4) (r : Bits) :
    ∃ i, decodeWord g.length (codeOfGroup g ++ r) = .ok (i, r) ∧ wordPixels g.length i = g ∧
      wordLength i = (codeOfGroup g).length := by
  unfold codeOfGroup
  split
  · rename_i hw
    refine ⟨.w, decodeWord_white h1 h4 r, ?_, rfl⟩
    exact (List.eq_replicate_iff.mpr ⟨rfl, by simpa using hw⟩).symm
  · split
    · rename_i hk
      refine ⟨.k, decodeWord_black h1 h4 r, ?_, rfl⟩
      exact (List.eq_replicate_iff.mpr ⟨rfl, by simpa using hk⟩).symm
    · obtain ⟨i, hi, hm⟩ := decodeWord_mixed h1 h4 r
      obtain ⟨j, hj, _, _, hp, hl⟩ := mixedWord_some h1 h4
      rw [hm] at hj
      obtain rfl : i = j := by simpa using hj
      refine ⟨i, hi, hp _, ?_⟩
      rw [hl]
      simp [List.length_flatMap]
      ring

/-! The bit source. -/

theorem Dec.rest_length (d : Dec) : d.rest.length = 8 * d.input.length - d.pos := by
  simp [Dec.rest]

/-- GETBIT reads the next bit, or raises at the end (R182). -/
theorem Dec.getBit_cases (d : Dec) :
    (d.rest = [] ∧ d.getBit = .raised .payloadExhausted) ∨
    (∃ b r, d.rest = b :: r ∧ d.pos < 8 * d.input.length ∧ d.getBit = .ok (b, { d with pos := d.pos + 1 }) ∧
      ({ d with pos := d.pos + 1 } : Dec).rest = r) := by
  by_cases h : 8 * d.input.length ≤ d.pos
  · left
    exact ⟨by simp [Dec.rest, h], by simp [Dec.getBit, h]⟩
  · right
    have hlt : d.pos < (bitsOfBytes d.input).length := by simp; omega
    have hget := bitsOfBytes_getElem d.input d.pos (by omega)
    have hb : (bitsOfBytes d.input)[d.pos] = d.bitAt d.pos := by
      rw [List.getElem?_eq_getElem hlt] at hget
      simpa [Dec.bitAt] using hget
    refine ⟨d.bitAt d.pos, (bitsOfBytes d.input).drop (d.pos + 1), ?_, by omega, by simp [Dec.getBit, h], rfl⟩
    rw [Dec.rest, List.drop_eq_getElem_cons hlt, hb]

theorem Dec.getBit_cons {d : Dec} {b : Bool} {r : Bits} (h : d.rest = b :: r) :
    d.getBit = .ok (b, { d with pos := d.pos + 1 }) ∧ ({ d with pos := d.pos + 1 } : Dec).rest = r := by
  rcases d.getBit_cases with ⟨h1, _⟩ | ⟨b', r', h1, _, h2, h3⟩
  · rw [h] at h1; simp at h1
  · rw [h] at h1
    obtain ⟨rfl, rfl⟩ := by simpa using h1
    exact ⟨h2, h3⟩

theorem Dec.getBit_nil {d : Dec} (h : d.rest = []) : d.getBit = .raised .payloadExhausted := by
  rcases d.getBit_cases with ⟨_, h2⟩ | ⟨b', r', h1, _⟩
  · exact h2
  · rw [h] at h1; simp at h1

/-- GET(n) reads the next `n` bits, first bit most significant (R183). -/
theorem Dec.getBits_append {n : Nat} {d : Dec} {s r : Bits} (v : Nat) (hs : s.length = n) (h : d.rest = s ++ r) :
    Dec.getBits n v d = .ok (natOfBits v s, { d with pos := d.pos + n }) ∧
      ({ d with pos := d.pos + n } : Dec).rest = r := by
  induction n generalizing v d s with
  | zero =>
    obtain rfl : s = [] := by simpa using hs
    exact ⟨rfl, h⟩
  | succ n ih =>
    match s, hs with
    | b :: s, hs =>
      obtain ⟨h1, h2⟩ := Dec.getBit_cons (d := d) (b := b) (r := s ++ r) h
      obtain ⟨h3, h4⟩ := ih (d := { d with pos := d.pos + 1 }) (2 * v + b.toNat) (by simpa using hs) h2
      have hp : d.pos + 1 + n = d.pos + (n + 1) := by omega
      simp only [hp] at h3 h4
      exact ⟨by simp only [Dec.getBits, h1, Res.bind_ok, h3, natOfBits], h4⟩

/-- GET(n) raises when fewer bits remain (R182). -/
theorem Dec.getBits_short {n : Nat} {d : Dec} (v : Nat) (h : d.rest.length < n) :
    Dec.getBits n v d = .raised .payloadExhausted := by
  induction n generalizing v d with
  | zero => omega
  | succ n ih =>
    rcases d.getBit_cases with ⟨_, h2⟩ | ⟨b, r, h1, _, h2, h3⟩
    · simp [Dec.getBits, h2]
    · simp only [Dec.getBits, h2, Res.bind_ok]
      apply ih
      rw [h3]
      rw [h1] at h
      simpa using h

/-- Reading `n` pixels (R190). -/
theorem Dec.getPixels_append {ps : List Byte} {d : Dec} {r : Bits} (h : d.rest = ps.flatMap bits8 ++ r) :
    Dec.getPixels ps.length d = .ok { d with pos := d.pos + 8 * ps.length, out := d.out ++ ps } ∧
      ({ d with pos := d.pos + 8 * ps.length, out := d.out ++ ps } : Dec).rest = r := by
  induction ps generalizing d with
  | nil => exact ⟨by simp [Dec.getPixels], h⟩
  | cons p ps ih =>
    obtain ⟨h1, h2⟩ := Dec.getBits_append (n := 8) (d := d) (s := bits8 p) (r := ps.flatMap bits8 ++ r) 0 (by simp)
      (by simpa using h)
    obtain ⟨h3, h4⟩ := ih (d := { d with pos := d.pos + 8, out := d.out ++ [p] }) h2
    have hp : d.pos + 8 + 8 * ps.length = d.pos + 8 * (p :: ps).length := by simp; omega
    have ho : d.out ++ [p] ++ ps = d.out ++ p :: ps := by simp
    simp only [hp, ho] at h3 h4
    refine ⟨?_, h4⟩
    simp only [List.length_cons, Dec.getPixels, h1, Res.bind_ok, natOfBits_bits8, Dec.append, BitVec.ofNat_toNat,
      BitVec.setWidth_eq]
    exact h3

theorem Dec.getPixels_short {n : Nat} {d : Dec} (h : d.rest.length < 8 * n) :
    Dec.getPixels n d = .raised .payloadExhausted := by
  induction n generalizing d with
  | zero => omega
  | succ n ih =>
    by_cases h8 : d.rest.length < 8
    · simp [Dec.getPixels, Dec.getBits_short 0 h8]
    · obtain ⟨h1, h2⟩ := Dec.getBits_append (n := 8) (d := d) (s := d.rest.take 8) (r := d.rest.drop 8) 0
        (by simp; omega) (by simp)
      simp only [Dec.getPixels, h1, Res.bind_ok]
      apply ih
      rw [show (Dec.append { d with pos := d.pos + 8 } [BitVec.ofNat 8 (natOfBits 0 (d.rest.take 8))]).rest
        = d.rest.drop 8 from h2]
      simp
      omega

/-! One group. -/

/-- The decoder after it has read a code word of a group of `n` pixels. -/
def Dec.afterWord (n : Nat) (i : Instr) (d : Dec) : Dec :=
  { d with pos := d.pos + wordLength i, out := d.out ++ wordPixels n i }

/-- DGRP(n) reads the code word that stands at POS, and appends its pixels (R190). -/
theorem Dec.group_of_word {n : Nat} {d : Dec} {i : Instr} {r : Bits} (h : decodeWord n d.rest = .ok (i, r)) :
    d.group n = .ok (d.afterWord n i) ∧ (d.afterWord n i).rest = r := by
  obtain ⟨h1, h4, hc⟩ := decodeWord_eq_ok h
  rcases hc with ⟨rfl, hr⟩ | ⟨rfl, hr⟩ | ⟨ps, hl, hm, hr⟩
  · obtain ⟨ha, hb⟩ := Dec.getBit_cons hr
    refine ⟨?_, hb⟩
    simp [Dec.group, ha, Dec.append, Dec.afterWord, wordPixels, wordLength]
  · obtain ⟨ha, hb⟩ := Dec.getBit_cons hr
    obtain ⟨hc, hd⟩ := Dec.getBit_cons hb
    refine ⟨?_, hd⟩
    simp [Dec.group, ha, hc, Dec.append, Dec.afterWord, wordPixels, wordLength]
  · obtain ⟨ha, hb⟩ := Dec.getBit_cons hr
    obtain ⟨hc, hd⟩ := Dec.getBit_cons hb
    obtain ⟨he, hf⟩ := Dec.getPixels_append hd
    obtain ⟨j, hj, _, _, hp, hlen⟩ := mixedWord_some (ps := ps) (by omega) (by omega)
    rw [hm] at hj
    obtain rfl : i = j := by simpa using hj
    have hpos : d.pos + 1 + 1 + 8 * ps.length = d.pos + wordLength i := by rw [hlen]; omega
    simp only [hpos] at he hf
    subst hl
    refine ⟨?_, ?_⟩
    · simp only [Dec.group, ha, Res.bind_ok, if_true, hc, he, Dec.afterWord, hp]
    · rw [Dec.afterWord, hp]
      exact hf

/-- DGRP(n) raises when the bits of the word at POS run out (R190). -/
theorem Dec.group_of_error {n : Nat} (h1 : 1 ≤ n) (h4 : n ≤ 4) {d : Dec} {e : Reject}
    (h : decodeWord n d.rest = .error e) : d.group n = .raised .payloadExhausted := by
  obtain ⟨_, hc⟩ := decodeWord_eq_error h1 h4 h
  rcases hc with hr | hr | ⟨s', hr, hl⟩
  · simp [Dec.group, Dec.getBit_nil hr]
  · obtain ⟨ha, hb⟩ := Dec.getBit_cons hr
    simp [Dec.group, ha, Dec.getBit_nil hb]
  · obtain ⟨ha, hb⟩ := Dec.getBit_cons hr
    obtain ⟨hc, hd⟩ := Dec.getBit_cons hb
    simp only [Dec.group, ha, Res.bind_ok, if_true, hc]
    exact Dec.getPixels_short (by rw [hd]; exact hl)

/-- DGRP(n) on the code of a group of `n` pixels gives the group back (R119). -/
theorem Dec.group_of_code {g : List Byte} (h1 : 1 ≤ g.length) (h4 : g.length ≤ 4) {d : Dec} {r : Bits}
    (h : d.rest = codeOfGroup g ++ r) :
    d.group g.length = .ok { d with pos := d.pos + (codeOfGroup g).length, out := d.out ++ g } ∧
      ({ d with pos := d.pos + (codeOfGroup g).length, out := d.out ++ g } : Dec).rest = r := by
  obtain ⟨i, hi, hp, hl⟩ := decodeWord_codeOfGroup h1 h4 r
  rw [← h] at hi
  obtain ⟨ha, hb⟩ := Dec.group_of_word hi
  rw [Dec.afterWord, hp, hl] at ha hb
  exact ⟨ha, hb⟩

/-! Containers and rows. -/

theorem decodeHeader_short {bs : List Byte} (h : bs.length < 8) : decodeHeader bs = .error .headerTooShort := by
  unfold decodeHeader
  split
  · simp at h; omega
  · rfl

/-- The groups of a row read the words that stand at POS, whatever words they are (R189, R196). -/
theorem groups_of_words {w : Nat} {xs : List Nat} {d : Dec} {ps : List Byte} {k : Nat}
    (h : rowWords w xs d.rest = .ok (ps, k)) :
    Dec.groups w xs d = .ok { d with pos := d.pos + k, out := d.out ++ ps } := by
  induction xs generalizing d ps k with
  | nil =>
    obtain ⟨rfl, rfl⟩ : [] = ps ∧ 0 = k := by simpa [rowWords] using h
    simp [Dec.groups]
  | cons x xs ih =>
    unfold rowWords at h
    split at h
    · simp at h
    · rename_i i r hw
      obtain ⟨ha, hr⟩ := Dec.group_of_word hw
      split at h
      · simp at h
      · rename_i ps' k' hws
        obtain ⟨rfl, rfl⟩ : _ = ps ∧ _ = k := by simpa using h
        rw [← hr] at hws
        simp only [Dec.groups, ha, Res.bind_ok, ih hws]
        simp [Dec.afterWord, Nat.add_assoc]

/-- The groups of a row raise PayloadExhausted when the bits of a word run out (R189, R190). -/
theorem groups_of_error {w : Nat} {xs : List Nat} (hx : ∀ x ∈ xs, x < w) {d : Dec} {e : Reject}
    (h : rowWords w xs d.rest = .error e) : Dec.groups w xs d = .raised .payloadExhausted := by
  induction xs generalizing d e with
  | nil => simp [rowWords] at h
  | cons x xs ih =>
    unfold rowWords at h
    split at h
    · rename_i hw
      simp [Dec.groups, Dec.group_of_error (groupCount_pos (hx x (by simp))) (groupCount_le _ _) hw]
    · rename_i i r hw
      obtain ⟨ha, hr⟩ := Dec.group_of_word hw
      split at h
      · rename_i hws
        rw [← hr] at hws
        simp [Dec.groups, ha, ih (fun y hy => hx y (by simp [hy])) hws]
      · simp at h

/-- The codes of a row's groups give the groups back (R189). -/
theorem groups_of_codes (px : Nat → Byte) (w y : Nat) (xs : List Nat) (hx : ∀ x ∈ xs, x < w) (d : Dec) (r : Bits)
    (h : d.rest = (xs.flatMap fun x => codeOfGroup (groupAt px w y x)) ++ r) :
    Dec.groups w xs d = .ok { d with
        pos := d.pos + (xs.flatMap fun x => codeOfGroup (groupAt px w y x)).length,
        out := d.out ++ xs.flatMap (groupAt px w y) } ∧
    ({ d with
        pos := d.pos + (xs.flatMap fun x => codeOfGroup (groupAt px w y x)).length,
        out := d.out ++ xs.flatMap (groupAt px w y) } : Dec).rest = r := by
  induction xs generalizing d with
  | nil => exact ⟨by simp [Dec.groups], by simpa using h⟩
  | cons x xs ih =>
    have hxw := hx x (by simp)
    have h1 : 1 ≤ (groupAt px w y x).length := by rw [groupAt_length]; exact groupCount_pos hxw
    have h4 : (groupAt px w y x).length ≤ 4 := by rw [groupAt_length]; exact groupCount_le _ _
    obtain ⟨ha, hb⟩ := Dec.group_of_code h1 h4 (d := d) (r := (xs.flatMap fun x => codeOfGroup (groupAt px w y x)) ++ r) (by rw [h]; simp)
    obtain ⟨hc, hd⟩ := ih (fun x hx' => hx x (by simp [hx'])) _ hb
    rw [groupAt_length] at ha
    simp only [Dec.groups, ha, Res.bind_ok, hc, List.flatMap_cons, List.length_append, List.append_assoc, Nat.add_assoc, true_and]
    simpa only [List.append_assoc, Nat.add_assoc] using hd

end Sys2Proof.Machine
end

