-- ==== Sys2Proof/Laws/Exec.lean ====
section
/-! SUPPORT. Everything an instruction can do when it gives a next state, said once: `exec_effect`. -/

namespace Sys2Proof.Machine

/-- The rows of the table that the reference decoder executes. -/
def ofDecoder : Instr → Bool
  | .w | .k | .m1 _ | .m2 _ _ | .m3 _ _ _ | .m4 _ _ _ _ => true
  | .getbit | .get _ | .dhdr | .drix | .drow | .dgrp _ => true
  | .hdr | .rix | .pad | .start | .cls | .ldg | .clsg | .emw | .emk | .emm | .grp => false
  | .put _ _ | .putbit _ | .flush | .fin => false

/-- The operations that only feed the packer. -/
def packs : Instr → Bool
  | .pad | .emw | .emk | .emm | .put _ _ | .putbit _ | .flush => true
  | .hdr | .rix | .grp | .start | .cls | .ldg | .clsg | .fin => false
  | .w | .k | .m1 _ | .m2 _ _ | .m3 _ _ _ | .m4 _ _ _ _ => false
  | .getbit | .get _ | .dhdr | .drix | .drow | .dgrp _ => false

/-- The operations that append to OUT, and so can raise OutputFull (R213). -/
def appends : Instr → Bool
  | .hdr | .rix | .grp | .pad | .emw | .emk | .emm | .put _ _ | .putbit _ | .flush => true
  | .start | .cls | .ldg | .clsg | .fin => false
  | .w | .k | .m1 _ | .m2 _ _ | .m3 _ _ _ | .m4 _ _ _ _ => false
  | .getbit | .get _ | .dhdr | .drix | .drow | .dgrp _ => false

/-- `Effect s i t`: the ways instruction `i` can lead from `s` to the next state `t`. -/
inductive Effect (s : State) : Instr → State → Prop
  | decoder {i d} (hi : ofDecoder i = true) : Effect s i { s with dec := d }
  | startIgnored (hb : s.phase.busy = true) : Effect s .start s
  | startBegins (hb : s.phase.busy = false) : Effect s .start { s.cleared with phase := .header }
  | startRaises {c} (hb : s.phase.busy = false) (hc : c = .negativeDimension ∨ c = .rasterTooLarge) :
      Effect s .start (raise c s)
  | full {i} (hi : appends i = true) : Effect s i (raise .outputFull s)
  | hdr {u} (h : outAppendAll (encodeHeader s.width s.height) s = .ok u) :
      Effect s .hdr { u with y := 0, phase := .classify }
  | rix (h : s.rowIndexed.outWithinCap) : Effect s .rix s.rowIndexed
  | cls {v} (h : s.y < dim s.height) : Effect s .cls { s with rp := Memory.write s.rp s.y v, y := s.y + 1 }
  | ldg {ps} : Effect s .ldg (s.loadGroup ps)
  | clsg : Effect s .clsg (classifyGroup s)
  | grp {ps u} (h : PackerFrame (classifyGroup (s.loadGroup ps)) u) : Effect s .grp { u with x := u.x + 4 }
  | packer {i t} (hi : packs i = true) (h : PackerFrame s t) : Effect s i t
  | fin : Effect s .fin { s with phase := .done }

/-- An operation of the decoder changes the decoder only. -/
theorem finishDec_effect {i : Instr} {s t : State} {m : Res Dec} (hi : ofDecoder i = true) (h : m.finishDec s = .next t) :
    Effect s i t := by
  obtain ⟨d, rfl, _⟩ := Res.finishDec_eq_next.mp h
  exact .decoder hi

/-- An operation that feeds the packer: it goes on within the packer's frame or raises OutputFull. -/
theorem putBits_effect {i : Instr} {s t : State} {bs : Bits} (hi : packs i = true) (ha : appends i = true)
    (h : (putBits bs s).finish s = .next t) : Effect s i t := by
  rcases Res.finish_eq_next.mp h with h' | ⟨c, h', rfl⟩
  · exact .packer hi (putBits_frame h')
  · obtain rfl := putBits_eq_raised h'
    exact .full ha

theorem execStart_effect {s t : State} (h : execStart s = .next t) : Effect s .start t := by
  unfold execStart at h
  split at h
  · rename_i hb
    obtain rfl : s = t := by simpa using h
    exact .startIgnored hb
  · rename_i hb
    have hb : s.phase.busy = false := by simpa using hb
    rcases beginCall_cases s with ⟨_, he⟩ | ⟨_, _, he⟩ | ⟨_, _, he⟩ <;> rw [he] at h
    · obtain rfl : raise .negativeDimension s = t := by simpa using h
      exact .startRaises hb (.inl rfl)
    · obtain rfl : raise .rasterTooLarge s = t := by simpa using h
      exact .startRaises hb (.inr rfl)
    · obtain rfl : { s.cleared with phase := .header } = t := Host.Outcome.next.inj h
      exact .startBegins hb

theorem execHdr_effect {s t : State} (h : execHdr s = .next t) : Effect s .hdr t := by
  rcases Res.finish_eq_next.mp h with h' | ⟨c, h', rfl⟩
  · obtain ⟨u, hu, rfl⟩ := emitHeader_eq_ok h'
    exact .hdr hu
  · obtain rfl := emitHeader_eq_raised h'
    exact .full rfl

theorem execRix_effect {s t : State} (h : execRix s = .next t) : Effect s .rix t := by
  rcases Res.finish_eq_next.mp h with h' | ⟨c, h', rfl⟩
  · obtain ⟨rfl, hc⟩ := emitRowIndex_eq_ok h'
    exact .rix hc
  · obtain rfl := emitRowIndex_eq_raised h'
    exact .full rfl

theorem execCls_effect {s t : State} (h : execCls s = .next t) : Effect s .cls t := by
  rcases Res.finish_eq_next.mp h with h' | ⟨c, h', rfl⟩
  · obtain ⟨v, rfl, hy⟩ := classifyRow_eq_ok h'
    exact .cls hy
  · exact absurd h' (classifyRow_ne_raised _ _)

theorem execLdg_effect {s t : State} (h : execLdg s = .next t) : Effect s .ldg t := by
  rcases Res.finish_eq_next.mp h with h' | ⟨c, h', rfl⟩
  · obtain ⟨ps, rfl⟩ := loadGroup_eq_ok h'
    exact .ldg
  · exact absurd h' (loadGroup_ne_raised _ _)

theorem execGrp_effect {s t : State} (h : execGrp s = .next t) : Effect s .grp t := by
  rcases Res.finish_eq_next.mp h with h' | ⟨c, h', rfl⟩
  · obtain ⟨ps, u, hu, rfl⟩ := encodeGroup_eq_ok h'
    exact .grp (emitGroup_frame hu)
  · obtain rfl := encodeGroup_eq_raised h'
    exact .full rfl

theorem execFlush_effect {s t : State} (h : execFlush s = .next t) : Effect s .flush t := by
  rcases Res.finish_eq_next.mp h with h' | ⟨c, h', rfl⟩
  · exact .packer rfl (flushPacker_frame h')
  · obtain rfl := flushPacker_eq_raised h'
    exact .full rfl

theorem execPutbit_effect {b : Bool} {s t : State} (h : execPutbit b s = .next t) : Effect s (.putbit b) t := by
  rcases Res.finish_eq_next.mp h with h' | ⟨c, h', rfl⟩
  · exact .packer rfl (putBit_frame h')
  · obtain rfl := putBit_eq_raised h'
    exact .full rfl

/-- What any instruction can do when it gives a next state. -/
theorem exec_effect {i : Instr} {s t : State} (h : exec i s = .next t) : Effect s i t := by
  cases i with
  | w | k | m1 | m2 | m3 | m4 | getbit | dhdr | drix | drow => exact finishDec_effect rfl h
  | get n =>
    simp only [exec, execGet] at h
    split at h
    · exact finishDec_effect rfl h
    · simp at h
  | dgrp n =>
    simp only [exec, execDgrp] at h
    split at h
    · exact finishDec_effect rfl h
    · simp at h
  | put v n =>
    simp only [exec, execPut] at h
    split at h
    · exact putBits_effect rfl rfl h
    · simp at h
  | start => exact execStart_effect h
  | hdr => exact execHdr_effect h
  | rix => exact execRix_effect h
  | cls => exact execCls_effect h
  | ldg => exact execLdg_effect h
  | clsg =>
    obtain rfl : classifyGroup s = t := by simpa [exec, execClsg] using h
    exact .clsg
  | grp => exact execGrp_effect h
  | pad | emw | emk => exact putBits_effect rfl rfl h
  | emm =>
    simp only [exec, execEmm, emitMixed_eq] at h
    exact putBits_effect rfl rfl h
  | flush => exact execFlush_effect h
  | putbit b => exact execPutbit_effect h
  | fin =>
    obtain rfl : { s with phase := .done } = t := Host.Outcome.next.inj h
    exact .fin

/-- What `GRP` leaves alone: all but the group coder's registers, the packer, OUT, OUT_LEN (and X). -/
theorem grouped_packerFrame {s u : State} {ps : List Byte} (h : PackerFrame (classifyGroup (s.loadGroup ps)) u) :
    u = { s with
      gsz := u.gsz, g0 := u.g0, g1 := u.g1, g2 := u.g2, g3 := u.g3, var := u.var, acc := u.acc, nbits := u.nbits,
      out := u.out, outLen := u.outLen } ∧
    s.outLen ≤ u.outLen ∧ OutKept s u ∧ (s.outDense → u.outDense) ∧
    (Memory.wf s.out = true → Memory.wf u.out = true) ∧ (s.packerClean → u.packerClean) ∧
    (s.outWithinCap → u.outWithinCap) := by
  have hf := loadGroup_frame s ps
  obtain ⟨h1, h2, h3, h4, h5, h6, h7⟩ := h
  have hc : classifyGroup (s.loadGroup ps) = { s with
      gsz := (s.loadGroup ps).gsz, g0 := (s.loadGroup ps).g0, g1 := (s.loadGroup ps).g1,
      g2 := (s.loadGroup ps).g2, g3 := (s.loadGroup ps).g3, var := variantOf (s.loadGroup ps).group } := by
    unfold classifyGroup
    rw [hf]
  rw [hc] at h1 h2 h3 h4 h5 h6 h7
  refine ⟨by rw [h1], h2, h3, h4, h5, h6, h7⟩

end Sys2Proof.Machine
end

