-- ==== Sys2Proof/Laws/PerInstr.lean ====
section
/-! SUPPORT. Statements made of every instruction as syntax, one lemma per constructor. -/

namespace Sys2Proof.Laws.WireLength

/-- R78, R82, R118: a well-formed code word has as many bits on the wire as its row says, 1, 2 or 2 + 8n, and it fits a
group of some size; a row without a wire pattern of its own has no bits and fits none. -/
def Statement (i : Instr) : Prop :=
  (∀ bits, encode i = some bits → bits.length = Machine.wordLength i ∧ ∃ n, 1 ≤ n ∧ n ≤ 4 ∧ i.fitsGroup n = true) ∧
  (encode i = none → Machine.wordLength i = 0 ∧ ∀ n, i.fitsGroup n = false)

theorem w : Statement .w := by
  refine ⟨fun bits h => ?_, fun h => by simp [encode] at h⟩
  obtain rfl := Option.some.inj h
  exact ⟨by simp [Machine.wordLength], 1, by decide, by decide, rfl⟩

theorem k : Statement .k := by
  refine ⟨fun bits h => ?_, fun h => by simp [encode] at h⟩
  obtain rfl := Option.some.inj h
  exact ⟨by simp [Machine.wordLength], 1, by decide, by decide, rfl⟩

theorem m1 (p0 : Byte) : Statement (.m1 p0) := by
  refine ⟨fun bits h => ?_, fun h => by simp [encode] at h⟩
  obtain rfl := Option.some.inj h
  exact ⟨by simp [Machine.wordLength], 1, by decide, by decide, rfl⟩

theorem m2 (p0 p1 : Byte) : Statement (.m2 p0 p1) := by
  refine ⟨fun bits h => ?_, fun h => by simp [encode] at h⟩
  obtain rfl := Option.some.inj h
  exact ⟨by simp [Machine.wordLength], 2, by decide, by decide, rfl⟩

theorem m3 (p0 p1 p2 : Byte) : Statement (.m3 p0 p1 p2) := by
  refine ⟨fun bits h => ?_, fun h => by simp [encode] at h⟩
  obtain rfl := Option.some.inj h
  exact ⟨by simp [Machine.wordLength], 3, by decide, by decide, rfl⟩

theorem m4 (p0 p1 p2 p3 : Byte) : Statement (.m4 p0 p1 p2 p3) := by
  refine ⟨fun bits h => ?_, fun h => by simp [encode] at h⟩
  obtain rfl := Option.some.inj h
  exact ⟨by simp [Machine.wordLength], 4, by decide, by decide, rfl⟩

theorem hdr : Statement .hdr := ⟨fun _ h => by simp [encode] at h, fun _ => ⟨rfl, fun _ => rfl⟩⟩

theorem rix : Statement .rix := ⟨fun _ h => by simp [encode] at h, fun _ => ⟨rfl, fun _ => rfl⟩⟩

theorem pad : Statement .pad := ⟨fun _ h => by simp [encode] at h, fun _ => ⟨rfl, fun _ => rfl⟩⟩

theorem start : Statement .start := ⟨fun _ h => by simp [encode] at h, fun _ => ⟨rfl, fun _ => rfl⟩⟩

theorem cls : Statement .cls := ⟨fun _ h => by simp [encode] at h, fun _ => ⟨rfl, fun _ => rfl⟩⟩

theorem ldg : Statement .ldg := ⟨fun _ h => by simp [encode] at h, fun _ => ⟨rfl, fun _ => rfl⟩⟩

theorem clsg : Statement .clsg := ⟨fun _ h => by simp [encode] at h, fun _ => ⟨rfl, fun _ => rfl⟩⟩

theorem emw : Statement .emw := ⟨fun _ h => by simp [encode] at h, fun _ => ⟨rfl, fun _ => rfl⟩⟩

theorem emk : Statement .emk := ⟨fun _ h => by simp [encode] at h, fun _ => ⟨rfl, fun _ => rfl⟩⟩

theorem emm : Statement .emm := ⟨fun _ h => by simp [encode] at h, fun _ => ⟨rfl, fun _ => rfl⟩⟩

theorem grp : Statement .grp := ⟨fun _ h => by simp [encode] at h, fun _ => ⟨rfl, fun _ => rfl⟩⟩

theorem put (v : Word) (n : Nat) : Statement (.put v n) := ⟨fun _ h => by simp [encode] at h, fun _ => ⟨rfl, fun _ => rfl⟩⟩

theorem putbit (b : Bool) : Statement (.putbit b) := ⟨fun _ h => by simp [encode] at h, fun _ => ⟨rfl, fun _ => rfl⟩⟩

theorem flush : Statement .flush := ⟨fun _ h => by simp [encode] at h, fun _ => ⟨rfl, fun _ => rfl⟩⟩

theorem fin : Statement .fin := ⟨fun _ h => by simp [encode] at h, fun _ => ⟨rfl, fun _ => rfl⟩⟩

theorem getbit : Statement .getbit := ⟨fun _ h => by simp [encode] at h, fun _ => ⟨rfl, fun _ => rfl⟩⟩

theorem get (n : Nat) : Statement (.get n) := ⟨fun _ h => by simp [encode] at h, fun _ => ⟨rfl, fun _ => rfl⟩⟩

theorem dhdr : Statement .dhdr := ⟨fun _ h => by simp [encode] at h, fun _ => ⟨rfl, fun _ => rfl⟩⟩

theorem drix : Statement .drix := ⟨fun _ h => by simp [encode] at h, fun _ => ⟨rfl, fun _ => rfl⟩⟩

theorem drow : Statement .drow := ⟨fun _ h => by simp [encode] at h, fun _ => ⟨rfl, fun _ => rfl⟩⟩

theorem dgrp (n : Nat) : Statement (.dgrp n) := ⟨fun _ h => by simp [encode] at h, fun _ => ⟨rfl, fun _ => rfl⟩⟩

end Sys2Proof.Laws.WireLength
end

