-- ==== Sys2Proof/Laws/Step.lean ====
section
/-! SUPPORT. Everything a step can do, said once: the host's moves, the rows of R161, the states of R192. -/

namespace Sys2Proof.Machine

theorem step_quiet {s : State} (h : s.inbox = []) : step s = runAction (machineAction s) := by
  simp [step, nextAction, h]

/-- What a step can do: a move of the host, a row of the block's table, or a step of the decoder; `u` is the state
without the move taken from the inbox. -/
theorem step_cases {s t : State} (h : step s = .next t) :
    ∃ u, u = { s with inbox := s.inbox.tail } ∧
    (t = u ∨ exec .start u = .next t ∨
     (u.phase.busy = false ∧ ∃ v, t = { u with width := v }) ∨ (u.phase.busy = false ∧ ∃ v, t = { u with height := v }) ∨
     (∃ a b, t = State.pokePix a b u) ∨ t = u.hardReset ∨ (∃ bs, t = State.callDecode bs u) ∨
     (u.phase.busy = true ∧ runAction (blockAction u) = .next t) ∨
     (u.phase.busy = false ∧ u.dec.phase.running = true ∧ runAction (decAction u) = .next t)) := by
  refine ⟨_, rfl, ?_⟩
  have hm : ∀ u : State, runAction (machineAction u) = .next t →
      (t = u ∨ (u.phase.busy = true ∧ runAction (blockAction u) = .next t) ∨
       (u.phase.busy = false ∧ u.dec.phase.running = true ∧ runAction (decAction u) = .next t)) := by
    intro u hu
    unfold machineAction at hu
    split at hu
    · rename_i hb; exact .inr (.inl ⟨hb, hu⟩)
    · rename_i hb
      have hb : u.phase.busy = false := by simpa using hb
      split at hu
      · rename_i hr; exact .inr (.inr ⟨hb, hr, hu⟩)
      · left; simpa [runAction] using hu.symm
  unfold step nextAction at h
  split at h
  · rename_i hi
    have : { s with inbox := s.inbox.tail } = s := by
      have h1 : s.inbox.tail = s.inbox := by rw [hi]; rfl
      rw [h1]
    rw [this]
    rcases hm s h with h | h | h
    · exact .inl h
    · simp only [h, true_and]; tauto
    · simp only [h, true_and]; tauto
  · rename_i m rest hi
    have hu : ({ s with inbox := s.inbox.tail } : State) = { s with inbox := rest } := by rw [hi]; rfl
    rw [hu]
    generalize ({ s with inbox := rest } : State) = u at h
    cases m with
    | writeReg no v =>
      simp only [hostAction] at h
      split at h
      · rename_i heq
        simp at heq
        split at h
        · right; left; exact h
        · left; simpa [runAction] using h.symm
      · simp [runAction, State.writeWidth] at h
        split at h
        · left; exact h.symm
        · rename_i hb; right; right; left; exact ⟨by simpa using hb, _, h.symm⟩
      · simp [runAction, State.writeHeight] at h
        split at h
        · left; exact h.symm
        · rename_i hb; right; right; right; left; exact ⟨by simpa using hb, _, h.symm⟩
      all_goals first | (simp [runAction] at h; done) | simp_all
    | writePix a b =>
      simp only [hostAction] at h
      split at h
      · simp [runAction] at h
      · split at h
        · right; right; right; right; left; exact ⟨a, b, by simpa [runAction] using h.symm⟩
        · simp [runAction] at h
    | reset => right; right; right; right; right; left; simpa [hostAction, runAction] using h.symm
    | decode bs => right; right; right; right; right; right; left; exact ⟨bs, by simpa [hostAction, runAction] using h.symm⟩
    | wait =>
      rcases hm u h with h | h | h
      · exact .inl h
      · right; right; right; right; right; right; right; left; exact h
      · right; right; right; right; right; right; right; right; exact h

/-- The rows of the transition table of R161 that a busy block takes. -/
theorem blockAction_cases {u t : State} (hb : u.phase.busy = true) (h : runAction (blockAction u) = .next t) :
    (u.phase = .header ∧ exec .hdr u = .next t) ∨
    (u.phase = .classify ∧ u.y < dim u.height ∧ exec .cls u = .next t) ∨
    (u.phase = .classify ∧ u.y = dim u.height ∧ t = { u with kidx := 0, phase := .rowIndex }) ∨
    (u.phase = .rowIndex ∧ u.kidx < ceilDiv8 (dim u.height) ∧ exec .rix u = .next t) ∨
    (u.phase = .rowIndex ∧ u.kidx = ceilDiv8 (dim u.height) ∧ t = { u with y := 0, x := 0, phase := .payload }) ∨
    (u.phase = .payload ∧ u.y = dim u.height ∧ t = { u with phase := .flush }) ∨
    (u.phase = .payload ∧ u.y < dim u.height ∧ rpBit u u.y = false ∧ t = { u with y := u.y + 1 }) ∨
    (u.phase = .payload ∧ u.y < dim u.height ∧ rpBit u u.y = true ∧ u.x < dim u.width ∧ exec .grp u = .next t) ∨
    (u.phase = .payload ∧ u.y < dim u.height ∧ rpBit u u.y = true ∧ dim u.width ≤ u.x ∧ t = { u with y := u.y + 1, x := 0 }) ∨
    (u.phase = .flush ∧ (t = raise .outputFull u ∨ ∃ v, PackerFrame u v ∧ t = { v with phase := .done })) := by
  unfold blockAction at h
  cases hp : u.phase <;> simp [hp, Phase.busy] at hb h ⊢
  · exact h
  · split at h
    · rename_i hy; left; exact ⟨hy, h⟩
    · split at h
      · rename_i hy; right; exact ⟨hy, by simpa [runAction] using h.symm⟩
      · simp [runAction] at h
  · split at h
    · rename_i hy; left; exact ⟨hy, h⟩
    · split at h
      · rename_i hy; right; exact ⟨hy, by simpa [runAction] using h.symm⟩
      · simp [runAction] at h
  · split at h
    · rename_i hy; left; exact ⟨hy, by simpa [runAction] using h.symm⟩
    · split at h
      · simp [runAction] at h
      · rename_i h1 h2
        have hy : u.y < dim u.height := by omega
        right
        split at h
        · rename_i hr; left; exact ⟨hy, hr, by simpa [runAction] using h.symm⟩
        · rename_i hr
          have hr : rpBit u u.y = true := by simpa using hr
          split at h
          · rename_i hx; right; left; exact ⟨hy, hr, hx, h⟩
          · rename_i hx; right; right; exact ⟨hy, hr, by omega, by simpa [runAction] using h.symm⟩
  · simp only [runAction] at h
    cases hf : exec .flush u with
    | next v =>
      rw [hf] at h
      have hc : v = raise .outputFull u ∨ PackerFrame u v := by
        cases exec_effect hf with
        | full _ => exact .inl rfl
        | packer _ h => exact .inr h
        | decoder hi => simp [ofDecoder] at hi
      rcases hc with rfl | hc
      · left; simpa [State.abandoned] using h.symm
      · have : v.abandoned = false := by
          rw [State.abandoned, hc.1]; simp [hp]
        simp [this, exec, execFin] at h
        right; exact ⟨v, hc, h.symm⟩
    | fault f => rw [hf] at h; simp at h
    | refused r => rw [hf] at h; simp at h

/-- Counters in range in every busy phase fit the rows of the table (R27, R28, R29). -/
theorem countersFitTable_of_inRange {s : State} (h : s.countersInRange) : s.countersFitTable := by
  have busy : ∀ p, p.busy = true → s.phase = p → _ := fun p hp e => h (by rw [e]; exact hp)
  exact ⟨fun e => (busy _ rfl e).1, fun e => (busy _ rfl e).2.1, fun e =>
    ⟨(busy _ rfl e).1, (busy _ rfl e).2.2.1, (busy _ rfl e).2.2.2⟩⟩

/-- The steps of the decoder (R192). -/
theorem decAction_cases {u t : State} (hr : u.dec.phase.running = true) (h : runAction (decAction u) = .next t) :
    (u.dec.phase = .readHeader ∧ exec .dhdr u = .next t) ∨
    (u.dec.phase = .readRowIndex ∧ exec .drix u = .next t) ∨
    (u.dec.phase = .decodeRow ∧ u.dec.y = dim u.dec.height ∧ t = { u with dec := { u.dec with phase := .done } }) ∨
    (u.dec.phase = .decodeRow ∧ u.dec.y < dim u.dec.height ∧ u.dec.presence u.dec.y = some false ∧ exec .drow u = .next t) ∨
    (u.dec.phase = .decodeRow ∧ u.dec.y < dim u.dec.height ∧ u.dec.presence u.dec.y = some true ∧ u.dec.x < dim u.dec.width ∧
      ((∃ i r, decodeWord u.dec.groupCount u.dec.rest = .ok (i, r) ∧ exec i u = .next t) ∨
       t = { u with dec := u.dec.fail .payloadExhausted })) ∨
    (u.dec.phase = .decodeRow ∧ u.dec.y < dim u.dec.height ∧ u.dec.presence u.dec.y = some true ∧ dim u.dec.width ≤ u.dec.x ∧
      t = { u with dec := u.dec.nextRow }) := by
  unfold decAction at h
  cases hp : u.dec.phase <;> simp [hp, DecPhase.running] at hr h ⊢
  · exact h
  · exact h
  · split at h
    · rename_i hy; left; exact ⟨hy, by simpa [runAction] using h.symm⟩
    · split at h
      · simp [runAction] at h
      · have hy : u.dec.y < dim u.dec.height := by omega
        right
        split at h
        · simp [runAction] at h
        · rename_i hpr; left; exact ⟨hy, hpr, h⟩
        · rename_i hpr
          right
          split at h
          · rename_i hx
            left
            refine ⟨hy, hpr, hx, ?_⟩
            unfold fetchAction at h
            split at h
            · rename_i i r hw; left; exact ⟨i, ⟨r, hw⟩, h⟩
            · right; simpa [runAction] using h.symm
            · simp [runAction] at h
          · rename_i hx; right; exact ⟨hy, hpr, by omega, by simpa [runAction] using h.symm⟩

end Sys2Proof.Machine
end

