-- ==== Sys2Proof/Tests/Slice0.lean ====
section
/-! SUPPORT. The model's own tests: well-formedness, decoding of words written out from the spec, one step of each
operation with results from 95_test_vectors.md, and a witness for the hypotheses of each statement. -/

namespace Sys2Proof.Tests

open Sys2Proof Sys2Proof.Machine

/-! ## Helpers -/

/-- A field of the next state, if there is one. -/
def after {α : Type} (o : Host.Outcome State Fault Refusal) (f : State → α) : Option α :=
  match o with
  | .next t => some (f t)
  | .fault _ | .refused _ => none

/-- The fault of an outcome. -/
def faultOf (o : Host.Outcome State Fault Refusal) : Option Fault :=
  match o with
  | .fault f => some f
  | .next _ | .refused _ => none

/-- The refusal of an outcome. -/
def refusalOf (o : Host.Outcome State Fault Refusal) : Option Refusal :=
  match o with
  | .refused r => some r
  | .next _ | .fault _ => none

/-- The bytes at addresses `a`, `a + 1`, ... -/
def cells : Nat → List Byte → List Host.Cell
  | _, [] => []
  | a, b :: bs => (a, b) :: cells (a + 1) bs

/-- The block holding a raster. -/
def blk (w h : Word) (px : List Byte) : State := { State.reset with width := w, height := h, pix := cells 0 px }

/-- The block with a packer state. -/
def pk (acc : Byte) (n : Fin 8) : State := { State.reset with acc := acc, nbits := n }

/-- The machine with a decoder. -/
def dc (d : Dec) : State := { State.reset with dec := d }

/-- A decoder in the rows of a raster of width `w`, `h` rows, at bit position `p`. -/
def rowDec (bytes : List Byte) (w h : Word) (p y x : Nat) : Dec :=
  { Dec.init bytes with width := w, height := h, pos := p, y := y, x := x, phase := .decodeRow }

theorem room_of_none {s : State} (k : Nat) (h : s.outCap = none) : s.room k := fun _ hc => by rw [h] at hc; cases hc

theorem ready_pk (n : Fin 8) : (pk 0 n).sinkReady := ⟨packerClean_of_zero rfl, rfl⟩

/-! ## Well-formedness: an ill-formed term for each check, and the last well-formed one -/

theorem test_wf_put : Instr.wf (.put 0 33) = false ∧ Instr.wf (.put 0 32) = true ∧ Instr.wf (.put 0 0) = true := by decide

theorem test_wf_get : Instr.wf (.get 33) = false ∧ Instr.wf (.get 32) = true ∧ Instr.wf (.get 0) = true := by decide

theorem test_wf_dgrp_low : Instr.wf (.dgrp 0) = false ∧ Instr.wf (.dgrp 1) = true := by decide

theorem test_wf_dgrp_high : Instr.wf (.dgrp 5) = false ∧ Instr.wf (.dgrp 4) = true := by decide

theorem test_wf_words : Instr.wf .w = true ∧ Instr.wf (.m4 255 255 255 255) = true := by decide

/-! ## Decoding: words written out bit by bit from R78, R71, R73, R77 -/

theorem test_decode_w : decodeWord 4 [false, true] = .ok (.w, [true]) := by decide

theorem test_decode_k : decodeWord 1 [true, false] = .ok (.k, []) := by decide

/-- 95_test_vectors.md 2.2: 77 is `11 01001101`. -/
theorem test_decode_m1 : decodeWord 1 [true, true, false, true, false, false, true, true, false, true]
    = .ok (.m1 77, []) := by decide

/-- 95_test_vectors.md 2.2: 1 2 is `11 00000001 00000010`. -/
theorem test_decode_m2 : decodeWord 2 [true, true, false, false, false, false, false, false, false, true,
    false, false, false, false, false, false, true, false] = .ok (.m2 1 2, []) := by decide

/-- 95_test_vectors.md 2.2: 7 8 9 is `11 00000111 00001000 00001001`. -/
theorem test_decode_m3 : decodeWord 3 [true, true, false, false, false, false, false, true, true, true,
    false, false, false, false, true, false, false, false, false, false, false, false, true, false, false, true]
    = .ok (.m3 7 8 9, []) := by decide

/-- 95_test_vectors.md S1: the payload C2 BE 80 20 00 is M(10,250,0,128) and six padding bits. -/
theorem test_decode_m4 : decodeField (.payload 4) [0xC2, 0xBE, 0x80, 0x20, 0x00]
    = .ok (.word (.m4 10 250 0 128), [false, false, false, false, false, false]) := by decide

/-- 95_test_vectors.md 2.5. -/
theorem test_decode_hdr : decodeField .header [0x78, 0x56, 0x34, 0x12, 0x0D, 0x0C, 0x0B, 0x0A]
    = .ok (.hdr 0x12345678 0x0A0B0C0D, []) := by decide

/-- 95_test_vectors.md 2.4: rows 1 and 3 present is 0A; row 7 alone is 80. -/
theorem test_decode_rix : decodeField .rowIndex [0x80] = .ok (.rix 0x80, []) ∧
    presenceBits 0x80 = [false, false, false, false, false, false, false, true] := by decide

theorem test_decode_pad : decodeField (.padding 7) [0x00] = .ok (.pad 7, [false]) := by decide

theorem test_encode_m4 : (encode (.m4 10 250 0 128)).map pack = some [0xC2, 0xBE, 0x80, 0x20, 0x00] := by decide

/-- Each reason to reject, by name. -/
theorem test_reject_words : decodeWord 0 [false] = .error (.noSuchGroup 0) ∧ decodeWord 5 [false] = .error (.noSuchGroup 5) ∧
    decodeWord 4 [] = .error .payloadExhausted ∧ decodeWord 4 [true] = .error .payloadExhausted ∧
    decodeWord 1 [true, true, true] = .error .payloadExhausted := by decide

theorem test_reject_fields : decodeField .header [0, 0, 0, 0, 0, 0, 0] = .error .headerTooShort ∧
    decodeField .rowIndex [] = .error .rowIndexTruncated ∧ decodeField (.padding 8) [0] = .error (.padTooLong 8) ∧
    decodeField (.padding 1) [] = .error .padExhausted ∧ decodeField (.padding 1) [0x80] = .error .padNotZero := by decide

/-- The table's bits of a row, byte by byte: `K` is the byte 80, `M1` of 5A the bytes D6 80 (S8). -/
theorem test_table_words : decodeTableWord 8 0x00 = some .w ∧ decodeTableWord 8 0x80 = some .k ∧
    decodeTableWord 16 0x80D6 = some (.m1 0x5A) ∧ decodeTableWord 64 0x000000020000000A = some .hdr ∧
    decodeTableWord 48 0 = none := by decide

theorem test_table_m4 : decodeTableWord 40 0x002080BEC2 = some (.m4 10 250 0 128) := by decide

/-! ## A step runs the placed instruction -/

theorem test_fetch_k : after (step (State.reset.withFetchWord 8 0x80)) (fun t => t.dec.out) = some [0] := by decide

theorem test_fetch_m4 : after (step (State.reset.withFetchWord 40 0x002080BEC2)) (fun t => t.dec.out)
    = some [10, 250, 0, 128] := by decide

theorem test_fetch_hdr : after (step (State.reset.withFetchWord 64 0x000000020000000A)) outBytes
    = some [0x0A, 0, 0, 0, 0x02, 0, 0, 0] := by decide

/-- At reset nothing runs (R240). -/
theorem test_reset_idles : after (step State.reset) (fun t => (t.phase, t.outLen)) = some (.idle, 0) := by decide

/-! ## The packer (95_test_vectors.md 2.3) -/

theorem test_put_completes_byte : after (exec (.put 0x5A 8) (pk 0xB0 4)) (fun t => (t.acc, t.nbits, outBytes t))
    = some (0xA0, 4, [0xB5]) := by decide

theorem test_put_ignores_high_bits : after (exec (.put 0xFF 2) (pk 0xA4 7)) (fun t => (t.acc, t.nbits, outBytes t))
    = some (0x80, 1, [0xA5]) := by decide

theorem test_put_too_long : refusalOf (exec (.put 0 33) State.reset) = some (.outsideDomain "PUT") := by decide

theorem test_putbit_eighth : after (exec (.putbit true) (pk 0xFE 7)) (fun t => (t.acc, t.nbits, outBytes t))
    = some (0, 0, [0xFF]) := by decide

theorem test_flush : after (exec .flush (pk 0x80 2)) (fun t => (t.acc, t.nbits, outBytes t)) = some (0, 0, [0x80]) := by
  decide

theorem test_flush_empty : after (exec .flush (pk 0 0)) (fun t => (t.nbits, outBytes t)) = some (0, []) := by decide

theorem test_pad : after (exec .pad (pk 0x40 2)) (fun t => (t.acc, t.nbits, outBytes t)) = some (0, 0, [0x40]) := by decide

/-! ## The row classifier and the group coder (95_test_vectors.md 2.1, 2.2) -/

theorem test_cls_last_pixel : after (exec .cls (blk 3 1 [255, 255, 254])) (fun t => (t.rp, t.y)) = some ([(0, true)], 1) := by
  decide

theorem test_cls_no_pixel : after (exec .cls (blk 0 1 [])) (fun t => (t.rp, t.y)) = some ([(0, false)], 1) := by decide

theorem test_ldg_trailing : after (exec .ldg { blk 10 1 [9, 9, 9, 9, 9, 9, 9, 9, 1, 2] with x := 8, g2 := 7 })
    (fun t => (t.gsz, t.g0, t.g1, t.g2)) = some (.two, 1, 2, 7) := by decide

theorem test_clsg_mixed : after (exec .clsg { State.reset with gsz := .two, g0 := 255, g1 := 0 }) (fun t => t.var)
    = some .m := by decide

theorem test_clsg_black : after (exec .clsg { State.reset with gsz := .two, g2 := 9 }) (fun t => t.var) = some .k := by decide

theorem test_emw : after (exec .emw (pk 0x80 1)) (fun t => (t.acc, t.nbits)) = some (0x80, 2) := by decide

theorem test_emk : after (exec .emk (pk 0 0)) (fun t => (t.acc, t.nbits)) = some (0x80, 2) := by decide

theorem test_emm : after (exec .emm { State.reset with gsz := .four, g0 := 10, g1 := 250, g2 := 0, g3 := 128 })
    (fun t => (t.acc, t.nbits, outBytes t)) = some (0, 2, [0xC2, 0xBE, 0x80, 0x20]) := by decide

theorem test_grp_mixed : after (exec .grp { blk 10 1 [9, 9, 9, 9, 9, 9, 9, 9, 1, 2] with x := 8, acc := 0x40, nbits := 3 })
    (fun t => (t.x, t.var, t.acc, t.nbits, outBytes t)) = some (12, .m, 0x10, 5, [0x58, 0x08]) := by decide

theorem test_grp_white : after (exec .grp (blk 1 1 [255])) (fun t => (t.x, t.var, t.acc, t.nbits))
    = some (4, .w, 0, 1) := by decide

/-! ## The container (95_test_vectors.md 2.4, 2.5, 2.7) -/

theorem test_hdr : after (exec .hdr (blk 0x780 0x438 [])) (fun t => (outBytes t, t.phase))
    = some ([0x80, 0x07, 0, 0, 0x38, 0x04, 0, 0], .classify) := by decide

theorem test_hdr_full : after (exec .hdr { blk 0 0 [] with outCap := some 7 }) (fun t => (t.phase, t.err, t.cause, t.outLen))
    = some (.error, .outOfMemory, .outputFull, 0) := by decide

theorem test_rix : after (exec .rix { blk 1 9 [] with rp := [(1, true), (2, false), (3, true), (8, true)], kidx := 1 })
    (fun t => (outBytes t, t.kidx)) = some ([0x01], 2) := by decide

theorem test_start_negative : after (exec .start { blk 0xFFFFFFFF 5 [] with maxPixels := some 0 })
    (fun t => (t.err.code, t.cause.code, t.outLen)) = some (1, 4, 0) := by decide

theorem test_start_too_large : after (exec .start { blk 1024 1025 [] with maxPixels := some 1048576 })
    (fun t => (t.err.code, t.cause.code, (statusWord t).toNat)) = some (2, 6, 7 + 8 * 2 + 64 * 6) := by decide

theorem test_fin : after (exec .fin { State.reset with phase := .flush }) (fun t => t.phase) = some .done := by decide

/-! ## The reference decoder (R182, R184, R186, R188, R190) -/

theorem test_getbit : after (exec .getbit (dc { Dec.init [0xA8] with pos := 2 })) (fun t => (t.dec.ret, t.dec.pos))
    = some (1, 3) := by decide

theorem test_getbit_end : after (exec .getbit (dc { Dec.init [0xA8] with pos := 8 })) (fun t => (t.dec.phase, t.dec.cause))
    = some (.error, .payloadExhausted) := by decide

theorem test_get : after (exec (.get 4) (dc { Dec.init [0xA8, 0x35] with pos := 6 })) (fun t => (t.dec.ret, t.dec.pos))
    = some (0, 10) ∧ after (exec (.get 8) (dc { Dec.init [0xA8, 0x35] with pos := 8 })) (fun t => t.dec.ret)
    = some 0x35 := by decide

theorem test_dhdr : after (exec .dhdr (dc (Dec.init [0x0A, 0, 0, 0, 2, 0, 0, 0, 3]))) (fun t => (t.dec.width, t.dec.height))
    = some (10, 2) := by decide

theorem test_dhdr_negative : after (exec .dhdr (dc (Dec.init [1, 0, 0, 0, 0, 0, 0, 0x80]))) (fun t => t.dec.cause)
    = some .negativeDimension := by decide

theorem test_drix : after (exec .drix (dc { Dec.init [1, 0, 0, 0, 9, 0, 0, 0, 0, 0] with width := 1, height := 9 }))
    (fun t => (t.dec.n, t.dec.pos)) = some (2, 80) := by decide

theorem test_drix_truncated : after (exec .drix (dc { Dec.init [1, 0, 0, 0, 9, 0, 0, 0, 0] with width := 1, height := 9 }))
    (fun t => t.dec.cause) = some .rowIndexTruncated := by decide

theorem test_drow_absent : after (exec .drow (dc (rowDec [3, 0, 0, 0, 1, 0, 0, 0, 0] 3 1 72 0 0)))
    (fun t => (t.dec.out, t.dec.pos, t.dec.y)) = some ([255, 255, 255], 72, 1) := by decide

/-- 95_test_vectors.md 2.6: `.dim 5 1` of `W M(77)` has the payload 69 A0. -/
theorem test_drow_present : after (exec .drow (dc (rowDec [5, 0, 0, 0, 1, 0, 0, 0, 1, 0x69, 0xA0] 5 1 72 0 0)))
    (fun t => (t.dec.out, t.dec.pos, t.dec.y)) = some ([255, 255, 255, 255, 77], 83, 1) := by decide

theorem test_dgrp : after (exec (.dgrp 1) (dc (Dec.init [0xD6, 0x80]))) (fun t => (t.dec.out, t.dec.pos))
    = some ([0x5A], 10) := by decide

theorem test_w_trailing : after (exec .w (dc (rowDec [0x00] 6 1 0 0 4))) (fun t => (t.dec.out, t.dec.x))
    = some ([255, 255], 8) := by decide

theorem test_m3_exhausted : after (exec (.m3 1 2 3) (dc (rowDec [0, 0, 0] 3 1 0 0 0))) (fun t => t.dec.cause)
    = some .payloadExhausted := by decide

theorem test_m3_misplaced : refusalOf (exec (.m3 1 2 3) (dc (rowDec [0, 0, 0, 0] 4 1 0 0 0))) = some (.wrongGroupSize "M3") := by
  decide

/-! ## The host -/

theorem test_host_start : after (step { blk 1 1 [0] with inbox := [.writeReg 0 1] }) (fun t => (t.phase, t.inbox))
    = some (.header, []) := by decide

theorem test_host_write_ignored : after (step { blk 1 1 [0] with phase := .payload, inbox := [.writeReg 2 7] })
    (fun t => t.width) = some 1 := by decide

theorem test_host_pix_busy : refusalOf (step { blk 1 1 [0] with phase := .payload, inbox := [.writePix 0 1] })
    = some .pixWriteWhileBusy := by decide

theorem test_host_pix_capacity : faultOf (step { blk 1 1 [0] with maxPixels := some 1, inbox := [.writePix 1 1] })
    = some (.pixCapacity 1) := by decide

theorem test_host_read_only : refusalOf (step { State.reset with inbox := [.writeReg 4 0] }) = some (.readOnlyRegister 4) := by
  decide

/-! ## Memory -/

theorem test_memory_write : Memory.write [(1, 5#8), (4, 6#8)] 2 7#8 = [(1, 5#8), (2, 7#8), (4, 6#8)] ∧
    Memory.write [(1, 5#8), (4, 6#8)] 4 7#8 = [(1, 5#8), (4, 7#8)] := by decide

theorem test_memory_not_wf : Memory.wf [(4, 5#8), (1, 6#8)] = false ∧ Memory.wf [(4, 5#8), (4, 6#8)] = false := by decide

/-! ## Witnesses: for each statement with hypotheses, a state and operands that meet them, clause by clause -/

theorem test_witness_CodeWordDecodesBack :
    (encode .w = some [false] ∧ Instr.fitsGroup 1 .w = true ∧ Instr.fitsGroup 4 .w = true) ∧
    ((encode (.m4 1 2 3 4)).isSome = true ∧ Instr.fitsGroup 4 (.m4 1 2 3 4) = true) := by decide

theorem test_witness_DecodedWordIsItsBits : decodeWord 4 [true, false, true] = .ok (.k, [true]) := by decide

theorem test_witness_EveryBitStringHasAWord :
    (1 ≤ 1 ∧ 1 ≤ 4 ∧ 2 + 8 * 1 ≤ (List.replicate 10 true).length) ∧
    (1 ≤ 4 ∧ 4 ≤ 4 ∧ 2 + 8 * 4 ≤ (List.replicate 34 true).length) := by decide

theorem test_witness_GroupCodeIsLossless :
    (1 ≤ [1#8, 2#8].length ∧ [1#8, 2#8].length ≤ 4 ∧
      (dc (Dec.init [0xC0, 0x40, 0x80])).dec.rest = codeOfGroup [1, 2] ++ List.replicate 6 false) ∧
    (dc (Dec.init [0x80])).dec.rest = codeOfGroup [0, 0, 0, 0] ++ List.replicate 6 false := by decide

/-- The two hypotheses of `EmitsOrRaises`, at the byte that just fits and the byte that just does not. -/
theorem test_witness_fits : (pk 0 7).sinkReady ∧ ({ pk 0 7 with outCap := some 1 } : State).room ((7 + 1) / 8) :=
  ⟨ready_pk 7, fun cap hc => by obtain rfl := Option.some.inj hc; decide⟩

theorem test_witness_full : ∃ s : State, s.outCap = some 0 ∧ s.outLen ≤ 0 ∧ 0 < s.outLen + (s.nbits.val + 1) / 8 :=
  ⟨{ pk 0 7 with outCap := some 0 }, by decide⟩

theorem test_witness_PutAppendsLowBits : 0 ≤ 32 ∧ 32 ≤ 32 ∧ (pk 0 0).sinkReady ∧ (pk 0 0).room ((0 + 32) / 8) :=
  ⟨by decide, by decide, ready_pk 0, room_of_none _ rfl⟩

theorem test_witness_PutbitPlacesOneBit :
    (0xFE#8 = (pk 0xFC 6).acc + BitVec.ofNat 8 (true.toNat * 2 ^ (7 - (pk 0xFC 6).nbits.val)) ∧ (pk 0xFC 6).nbits.val < 7) ∧
    ((pk 0xFE 7).nbits.val = 7 ∧ (pk 0xFE 7).room 1) ∧
    (∃ s : State, s.nbits.val = 7 ∧ s.outCap = some s.outLen) :=
  ⟨by decide, ⟨rfl, room_of_none _ rfl⟩, { pk 0xFE 7 with outCap := some 0 }, by decide⟩

theorem test_witness_FlushAppendsThePartialByte :
    (pk 0 0).nbits.val = 0 ∧ (0 < (pk 0x80 1).nbits.val ∧ (pk 0x80 1).room 1) ∧
    (∃ s : State, 0 < s.nbits.val ∧ s.outCap = some s.outLen) :=
  ⟨rfl, ⟨by decide, room_of_none _ rfl⟩, { pk 0xFE 7 with outCap := some 0 }, by decide⟩

theorem test_witness_PaddingCompletesTheLastByte :
    (pk 0 0).nbits.val = 0 ∧ (0 < (pk 0 7).nbits.val ∧ (pk 0 7).room 1) ∧ (pk 0 7).sinkReady :=
  ⟨rfl, ⟨by decide, room_of_none _ rfl⟩, ready_pk 7⟩

theorem test_witness_PutSplits : 1 + 31 ≤ 32 ∧ State.reset.phase ≠ .error ∧
    ∃ t, exec (.put (0xDEADBEEF#32 >>> 31) 1) State.reset = .next t := ⟨by decide, by decide, _, rfl⟩

theorem test_witness_PutSplits_raises : ∃ s t : State, s.phase ≠ .error ∧ exec (.put (3#32 >>> 1) 1) s = .next t ∧
    t.phase = .error := ⟨{ pk 0xFE 7 with outCap := some 0 }, _, by decide, rfl, rfl⟩

theorem test_witness_EmmEmitsRawPixels : (pk 0 7).sinkReady ∧
    (pk 0 7).room (((pk 0 7).nbits.val + (true :: true :: (pk 0 7).group.flatMap bits8).length) / 8) :=
  ⟨ready_pk 7, room_of_none _ rfl⟩

theorem test_witness_LdgLoadsTheGroup :
    ((blk 1 1 [9]).y < dim (blk 1 1 [9]).height ∧ (blk 1 1 [9]).x < dim (blk 1 1 [9]).width) ∧
    (let s := { blk 10 2 [9] with y := 1, x := 8 }; s.y < dim s.height ∧ s.x < dim s.width) := by decide

theorem test_witness_GrpEncodesOneGroup : ∃ s : State, s.y < dim s.height ∧ s.x < dim s.width ∧
    [1#8, 2#8] = groupAt (pixByte s) (dim s.width) s.y s.x ∧ s.sinkReady ∧
    s.room ((s.nbits.val + (codeOfGroup [1, 2]).length) / 8) :=
  ⟨blk 2 1 [1, 2], by decide, by decide, by decide, ⟨packerClean_of_zero rfl, rfl⟩, room_of_none _ rfl⟩

theorem test_witness_GrpEncodesOneGroup_full : ∃ s : State, s.y < dim s.height ∧ s.x < dim s.width ∧
    [1#8, 2#8] = groupAt (pixByte s) (dim s.width) s.y s.x ∧ s.outCap = some 1 ∧ s.outLen ≤ 1 ∧
    1 < s.outLen + (s.nbits.val + (codeOfGroup [1, 2]).length) / 8 :=
  ⟨{ blk 2 1 [1, 2] with outCap := some 1 }, by decide⟩

theorem test_witness_ClsWritesThePresenceBit :
    (blk 0 1 []).y < dim (blk 0 1 []).height ∧ (blk 3 1 [255, 255, 254]).y < dim (blk 3 1 [255, 255, 254]).height := by
  decide

theorem test_witness_StartBeginsACall : ∃ s : State, s.phase.busy = false ∧ 0 ≤ s.width.toInt ∧ 0 ≤ s.height.toInt ∧
    s.maxPixels = some 2147483647 ∧ s.width.toNat * s.height.toNat ≤ 2147483647 ∧ s.inbox = [] :=
  ⟨{ blk 0x7FFFFFFF 1 [] with maxPixels := some 2147483647 }, by decide⟩

theorem test_witness_StartChecksInOrder :
    ({ State.reset with phase := .flush } : State).phase.busy = true ∧
    ((blk 1 0x80000000 []).phase.busy = false ∧ (blk 1 0x80000000 []).height.toInt < 0) ∧
    (∃ s : State, s.phase.busy = false ∧ 0 ≤ s.width.toInt ∧ 0 ≤ s.height.toInt ∧ s.maxPixels = some 0 ∧
      0 < s.width.toNat * s.height.toNat) :=
  ⟨by decide, by decide, { blk 1 1 [] with maxPixels := some 0 }, by decide⟩

theorem test_witness_HdrEmitsTheHeader :
    (∃ s : State, s.outCap = some 8 ∧ s.room 8) ∧ (∃ s : State, s.outCap = some 7 ∧ s.outLen ≤ 7 ∧ 7 < s.outLen + 8) :=
  ⟨⟨{ State.reset with outCap := some 8 }, rfl, fun cap hc => by obtain rfl := Option.some.inj hc; decide⟩,
    { State.reset with outCap := some 7 }, by decide⟩

theorem test_witness_RixEmitsTheRowIndexByte :
    State.reset.room 1 ∧ (∃ s : State, s.outCap = some s.outLen) ∧ (0 < 8 ∧ 7 < 8) :=
  ⟨room_of_none _ rfl, ⟨{ State.reset with outCap := some 0 }, by decide⟩, by decide⟩

theorem test_witness_FinEndsTheCall : State.reset.inbox = [] ∧ State.reset.dec.phase.running = false := by decide

theorem test_witness_GetbitReadsTheNextBit :
    (let d : Dec := { Dec.init [0xA8, 0x35] with pos := 15 }; d.input[1]? = some 0x35#8 ∧ 7 < 8 ∧ d.pos = 8 * 1 + 7) ∧
    (let d : Dec := Dec.init [0xA8]; d.input[0]? = some 0xA8#8 ∧ 0 < 8 ∧ d.pos = 8 * 0 + 0) ∧
    (let d : Dec := { Dec.init [0xA8] with pos := 8 }; 8 * d.input.length ≤ d.pos) := by decide

theorem test_witness_GetReadsBackPut :
    (Dec.init [0xDE, 0xAD, 0xBE, 0xEF]).rest = lowbits 0xDEADBEEF 32 ++ [] ∧ (Dec.init []).rest = lowbits 5 0 ++ [] ∧
    (Dec.init [0xDE, 0xAD, 0xBE]).rest.length < 32 := by decide

theorem test_witness_DhdrReadsTheHeader :
    (Dec.init [0, 0, 0, 0, 0, 0, 0]).input.length < 8 ∧
    (Dec.init [1, 0, 0, 0, 0, 0, 0, 0x80, 5]).input = encodeHeader 1 0x80000000 ++ [5] ∧ (0x80000000#32).toInt < 0 ∧
    (Dec.init [0, 0, 0, 0, 0xFF, 0xFF, 0xFF, 0x7F]).input = encodeHeader 0 0x7FFFFFFF ++ [] ∧
    0 ≤ (0#32).toInt ∧ 0 ≤ (0x7FFFFFFF#32).toInt := by decide

theorem test_witness_DrixLocatesTheRowIndex :
    (let d := rowDec [1, 0, 0, 0, 9, 0, 0, 0, 0] 1 9 0 0 0;
      0 ≤ d.width.toInt ∧ 0 ≤ d.height.toInt ∧ 2 = (d.height.toNat + 7) / 8 ∧ d.input.length < 8 + 2) ∧
    (let d := rowDec [1, 0, 0, 0, 8, 0, 0, 0, 0] 1 8 0 0 0;
      1 = (d.height.toNat + 7) / 8 ∧ 8 + 1 ≤ d.input.length ∧ 7 < d.width.toNat * d.height.toNat ∧
        d.width.toNat * d.height.toNat ≤ 8) ∧
    (let d := rowDec [0, 0, 0, 0, 0, 0, 0, 0] 0 0 0 0 0;
      0 = (d.height.toNat + 7) / 8 ∧ 8 + 0 ≤ d.input.length) := by decide

theorem test_witness_DrowFillsAnAbsentRow :
    let d := rowDec [3, 0, 0, 0, 9, 0, 0, 0, 0xFF, 0xFE] 3 9 80 8 0
    d.y < dim d.height ∧ d.input[8 + d.y / 8]? = some 0xFE#8 ∧ (0xFE#8).getLsbD (d.y % 8) = false := by decide

theorem test_witness_DrowDecodesAPresentRow :
    let d := rowDec [5, 0, 0, 0, 1, 0, 0, 0, 1, 0x69, 0xA0] 5 1 72 0 0
    d.y < dim d.height ∧ d.input[8 + d.y / 8]? = some 1#8 ∧ (1#8).getLsbD (d.y % 8) = true ∧
    d.rest = rowBits (fun a => [255, 255, 255, 255, 77].getD a 0) (dim d.width) 0 ++ List.replicate 5 false := by decide

/-- A Mixed word of uniform pixels (R196), a row of one W, and an M1 word cut after six pixel bits. -/
theorem test_witness_DrowDecodesAPresentRow_words :
    (let d := rowDec [1, 0, 0, 0, 1, 0, 0, 0, 1, 0xFF, 0xC0] 1 1 72 0 0;
      d.y < dim d.height ∧ rowWords (dim d.width) (groupStarts (dim d.width)) d.rest = .ok ([255], 10)) ∧
    (let d := rowDec [3, 0, 0, 0, 1, 0, 0, 0, 1, 0] 3 1 72 0 0;
      rowWords (dim d.width) (groupStarts (dim d.width)) d.rest = .ok ([255, 255, 255], 1)) ∧
    (let d := rowDec [5, 0, 0, 0, 1, 0, 0, 0, 1, 0x60] 5 1 72 0 0;
      rowWords (dim d.width) (groupStarts (dim d.width)) d.rest = .error .payloadExhausted) := by decide

theorem test_witness_DgrpReadsOneWord :
    decodeWord 1 (Dec.init [0xD6, 0x80]).rest = .ok (.m1 0x5A, List.replicate 6 false) ∧
    decodeWord 4 (Dec.init [0xD6, 0x80]).rest = .error .payloadExhausted := by decide

theorem test_witness_FillWordsExecute :
    (let d := rowDec [0x00] 6 1 6 0 4;
      d.x < dim d.width ∧ 2 = min 4 (dim d.width - d.x) ∧ d.pos + 1 ≤ 8 * d.input.length ∧
        d.pos + 2 ≤ 8 * d.input.length) ∧
    (let d := rowDec [0x00] 1 1 8 0 0;
      d.x < dim d.width ∧ 8 * d.input.length < d.pos + 1 ∧ 8 * d.input.length < d.pos + 2) := by decide

theorem test_witness_RawWordsExecute :
    (let d := rowDec [0, 0, 0, 0, 0] 4 1 6 0 0;
      4 = min 4 (dim d.width - d.x) ∧ [1#8, 2, 3, 4].length = 4 ∧ d.pos + (2 + 8 * 4) ≤ 8 * d.input.length) ∧
    (let d := rowDec [0] 1 1 0 0 0;
      1 = min 4 (dim d.width - d.x) ∧ [7#8].length = 1 ∧ 8 * d.input.length < d.pos + (2 + 8 * 1)) := by decide

theorem test_witness_MisplacedWordsAreRefused :
    (dim (rowDec [] 4 1 0 0 4).width ≤ (rowDec [] 4 1 0 0 4).x) ∧
    (let d := rowDec [] 6 1 0 0 4;
      min 4 (dim d.width - d.x) ≠ 1 ∧ min 4 (dim d.width - d.x) ≠ 3 ∧ min 4 (dim d.width - d.x) ≠ 4) ∧
    (let d := rowDec [] 3 1 0 0 0; min 4 (dim d.width - d.x) ≠ 2) := by decide

theorem test_witness_CodeWordIsTheGroupOperation :
    let d := rowDec [0x00, 0xD6, 0x80] 5 1 8 0 4
    d.x < dim d.width ∧ 1 = min 4 (dim d.width - d.x) ∧ decodeWord 1 d.rest = .ok (.m1 0x5A, List.replicate 6 false) := by
  decide

theorem test_witness_StepFollowsTheTransitionTable :
    (State.reset.inbox = [] ∧ State.reset.phase = .idle ∧ State.reset.dec.phase.running = false) ∧
    ((blk 1 9 []).y < dim (blk 1 9 []).height ∧ ({ blk 1 9 [] with y := 9 } : State).y = dim (blk 1 9 []).height) ∧
    ((blk 1 9 []).kidx < (dim (blk 1 9 []).height + 7) / 8 ∧
      ({ blk 1 9 [] with kidx := 2 } : State).kidx = (dim (blk 1 9 []).height + 7) / 8) ∧
    (let s := { blk 5 1 [] with rp := [(0, true)], x := 4 };
      rpBit s s.y = true ∧ s.x < dim s.width) ∧
    (let s := { blk 5 1 [] with rp := [(0, true)], x := 8 };
      rpBit s s.y = true ∧ dim s.width ≤ s.x) ∧
    (let s := { blk 5 1 [] with rp := [(0, false)] };
      s.y < dim s.height ∧ rpBit s s.y = false) := by decide

theorem test_witness_StepFollowsTheTransitionTable_flush :
    (∃ s t : State, s.phase = .flush ∧ exec .flush s = .next t ∧ t.phase = .error) ∧
    (∃ s t : State, s.phase = .flush ∧ exec .flush s = .next t ∧ t.phase = .flush) :=
  ⟨⟨{ pk 0x80 1 with phase := .flush, outCap := some 0 }, _, rfl, rfl, rfl⟩, { pk 0x80 1 with phase := .flush }, _, rfl, rfl, rfl⟩

theorem test_witness_StepRunsTheFetchedCodeWord :
    let s := dc (rowDec [1, 0, 0, 0, 1, 0, 0, 0, 1, 0xD6, 0x80] 1 1 72 0 0)
    s.inbox = [] ∧ s.phase.busy = false ∧ s.dec.phase = .decodeRow ∧ s.dec.y < dim s.dec.height ∧
    s.dec.presence s.dec.y = some true ∧ s.dec.x < dim s.dec.width ∧
    decodeWord s.dec.groupCount s.dec.rest = .ok (.m1 0x5A, List.replicate 6 false) := by decide

theorem test_witness_DecoderStepsItsStates :
    (let s := dc (rowDec [1, 0, 0, 0, 2, 0, 0, 0, 2, 0xD6] 1 2 72 1 0);
      s.inbox = [] ∧ s.phase.busy = false ∧ s.dec.y < dim s.dec.height ∧ s.dec.presence s.dec.y = some true ∧
        s.dec.x < dim s.dec.width ∧ decodeWord s.dec.groupCount s.dec.rest = .error .payloadExhausted) ∧
    (let d := rowDec [1, 0, 0, 0, 2, 0, 0, 0, 2, 0xD6] 1 2 72 1 4;
      d.presence d.y = some true ∧ dim d.width ≤ d.x) ∧
    (let d := rowDec [1, 0, 0, 0, 2, 0, 0, 0, 2, 0xD6] 1 2 72 0 0;
      d.y < dim d.height ∧ d.presence d.y = some false) ∧
    (rowDec [] 1 2 72 2 0).y = dim (rowDec [] 1 2 72 2 0).height := by decide

theorem test_witness_HostMovesAreGuarded :
    (∃ s : State, s.inbox = .writePix 3 1 :: [] ∧ s.phase.busy = false ∧ s.maxPixels = some 4 ∧ 3 < 4) ∧
    (∃ s : State, s.inbox = .writeReg 0 1 :: []) ∧ (∃ s : State, s.inbox = .writeReg 2 7 :: [.wait]) ∧
    (∃ s : State, s.inbox = .writeReg 3 7 :: [.reset]) :=
  ⟨⟨{ State.reset with inbox := [.writePix 3 1], maxPixels := some 4 }, by decide⟩,
    ⟨{ State.reset with inbox := [.writeReg 0 1] }, rfl⟩, ⟨{ State.reset with inbox := [.writeReg 2 7, .wait] }, rfl⟩,
    { State.reset with inbox := [.writeReg 3 7, .reset] }, rfl⟩

theorem test_witness_HardwareResetAbandonsTheCall : ∃ s : State, s.inbox = .reset :: [] ∧ s.phase = .payload :=
  ⟨{ State.reset with inbox := [.reset], phase := .payload }, by decide⟩

theorem test_witness_StatusHoldsItsFields : (raise .outputFull State.reset).phase = .error ∧
    (raise .outputFull State.reset).cause = .outputFull ∧ (raise .outputFull State.reset).err = .outOfMemory :=
  ⟨rfl, rfl, rfl⟩

theorem test_witness_InputsAreNeverWritten : ∃ t, exec .hdr (blk 1 1 [0]) = .next t := ⟨_, rfl⟩

theorem test_witness_ErrorsDiscardTheCall :
    (∃ s t : State, exec .start s = .next t ∧ s.phase ≠ .error ∧ t.phase = .error) ∧
    (∃ s t : State, exec .flush s = .next t ∧ s.phase ≠ .error ∧ t.phase = .error) :=
  ⟨⟨blk 0x80000000 1 [], _, rfl, by decide, rfl⟩, { pk 0x80 1 with outCap := some 0 }, _, rfl, by decide, rfl⟩

theorem test_witness_BlockAndDecoderAreApart :
    (∃ t, exec .fin State.reset = .next t) ∧ (∃ t, exec .getbit (dc (Dec.init [1])) = .next t) := ⟨⟨_, rfl⟩, _, rfl⟩

theorem test_witness_OutputIsAppendOnly : ∃ t, exec .flush (pk 0x80 1) = .next t ∧ (pk 0x80 1).phase ≠ .error ∧
    t.phase ≠ .error ∧ t.outLen = 1 := ⟨_, rfl, by decide, by decide, rfl⟩

theorem test_witness_PredicatesHaveOneWriter : ∃ t, exec .ldg (blk 2 1 [3, 4]) = .next t ∧ (blk 2 1 [3, 4]).phase ≠ .error ∧
    t.phase ≠ .error := ⟨_, rfl, by decide, by decide⟩

/-- A call in phase Header with one byte in OUT and room for one more byte than HDR appends. -/
def headed : State :=
  { blk 1 1 [0] with phase := .header, out := [(0, 7)], outLen := 1, outCap := some 10, rp := [(0, true)] }

theorem test_witness_OutputStaysDense : headed.outDense ∧ headed.outWithinCap ∧
    ∃ t, step headed = .next t ∧ t.outLen = 9 :=
  ⟨rfl, fun cap hc => by obtain rfl := Option.some.inj hc; decide, _, rfl, rfl⟩

theorem test_witness_MemoryStaysCanonical : headed.memoryCanonical ∧ ∃ t, step headed = .next t := ⟨⟨rfl, rfl, rfl⟩, _, rfl⟩

theorem test_witness_StatusStaysConsistent : headed.statusConsistent ∧ (raise .outputFull headed).statusConsistent ∧
    ∃ t, step headed = .next t :=
  ⟨⟨by decide, rfl⟩, ⟨⟨fun _ => rfl, fun _ => by show ErrKind.outOfMemory ≠ _; decide⟩, rfl⟩, _, rfl⟩

theorem test_witness_PackerStaysClean : ∃ t, step { pk 0 0 with phase := .header } = .next t ∧ t.phase ≠ .error ∧
    (pk 0 0).packerClean := ⟨_, rfl, by decide, packerClean_of_zero rfl⟩

theorem test_witness_DecodingStaysInOrder :
    let d := rowDec [1, 0, 0, 0, 1, 0, 0, 0, 1, 0x80] 1 1 72 0 0
    d.rowsInOrder ∧ d.resultComplete ∧ ∃ t, step (dc d) = .next t ∧ t.dec.out = [0] :=
  ⟨fun _ => by decide, fun h => absurd h (by decide), _, rfl, rfl⟩

/-- In each busy phase a state whose counters are at the top of their ranges (R27, R28, R29). -/
theorem test_witness_CountersStayInRange : ∀ p : Phase, p.busy = true →
    { blk 5 9 [] with phase := p, y := 9, kidx := 2, x := 8 }.countersInRange ∧
    { blk 5 9 [] with phase := p, y := 9, kidx := 2, x := 8 }.countersFitTable := by
  intro p _
  cases p <;> exact ⟨fun _ => by decide, by decide, by decide, by decide⟩

theorem test_witness_CountersStayInRange_step : ∃ t,
    step { blk 5 9 [] with phase := .payload, y := 9, kidx := 2, x := 8 } = .next t ∧ t.phase.busy = true := ⟨_, rfl, rfl⟩

theorem test_witness_BusyBlockIsNeverStuck : ∃ s : State, s.phase.busy = true ∧ s.inbox = [] ∧ s.countersFitTable ∧
    s.outWithinCap :=
  ⟨{ blk 5 1 [] with phase := .payload, y := 1, x := 8 }, by decide, rfl,
    ⟨by decide, by decide, by decide⟩, room_of_none _ rfl⟩

theorem test_witness_CallEndsWithinTheBound : ∃ s : State, s.phase = .header ∧ s.inbox = [] ∧ s.outWithinCap ∧
    callBound (dim s.width) (dim s.height) = 9 :=
  ⟨{ blk 1 1 [0] with phase := .header }, rfl, rfl, room_of_none _ rfl, by decide⟩

theorem test_witness_SequencerComputesEncode : ∃ s : State, s.callBegun ∧
    (encodeRaster s.width s.height (pixByte s)).length = 10 ∧ s.room 10 :=
  ⟨{ blk 1 1 [0] with phase := .header, outCap := some 10 }, ⟨rfl, rfl, rfl, rfl, rfl, rfl⟩, by decide,
    fun cap hc => by obtain rfl := Option.some.inj hc; decide⟩

theorem test_witness_SequencerReportsOutputFull : ∃ s : State, s.callBegun ∧ s.outCap = some 9 ∧
    9 < (encodeRaster s.width s.height (pixByte s)).length :=
  ⟨{ blk 1 1 [0] with phase := .header, outCap := some 9 }, ⟨rfl, rfl, rfl, rfl, rfl, rfl⟩, by decide⟩

theorem test_witness_DecodeInvertsEncode : 0 ≤ (5#32).toInt ∧ 0 ≤ (1#32).toInt ∧ (5#32).toNat * (1#32).toNat ≤ 5 := by decide

theorem test_witness_TruncationIsDetected :
    (0 ≤ (1#32).toInt ∧ 0 ≤ (0#32).toInt ∧ (0#32).toNat = 0 ∧ (1#32).toNat * (0#32).toNat ≤ 0) ∧
    ((1#32).toNat * (1#32).toNat ≤ 1 ∧ 0 < (1#32).toNat ∧ payloadBits (fun _ => 255) (dim 1) (dim 1) = []) ∧
    payloadBits (fun _ => 0) (dim 1) (dim 1) ≠ [] := by decide

theorem test_witness_DecoderStepsComputeDecode : ∃ s : State, s.inbox = [] ∧ s.phase.busy = false ∧
    s.dec = { Dec.init [1, 0, 0, 0, 1, 0, 0, 0, 1, 0x80] with phase := .readHeader } :=
  ⟨dc { Dec.init [1, 0, 0, 0, 1, 0, 0, 0, 1, 0x80] with phase := .readHeader }, by decide⟩

end Sys2Proof.Tests
end

/-! PROOFS. The group coder: what CLSG, EMW, EMK and EMM do (R112 to R115). -/
section

namespace Sys2Proof.Machine

/-! Instructions that only feed the packer. -/

/-- An instruction that puts `bits` through the packer emits them, or raises OutputFull where a byte they complete does
not fit (R131, R137). -/
theorem emitsOrRaises_of_exec_eq_putBits {i : Instr} {s : State} {bits : Bits}
    (h : exec i s = (putBits bits s).finish s) : EmitsOrRaises i s bits := by
  constructor
  · intro hready hroom
    obtain ⟨t, hput, hemits⟩ := putBits_emits bits hready hroom
    exact ⟨t, by rw [h, hput, Res.finish_ok], hemits⟩
  · intro cap hcap hle hfull
    rw [h, putBits_of_full bits hcap hle hfull, Res.finish_raised]

theorem exec_emw (s : State) : exec .emw s = (putBits [false] s).finish s := rfl

theorem exec_emk (s : State) : exec .emk s = (putBits [true, false] s).finish s := rfl

theorem exec_emm (s : State) : exec .emm s = (putBits (true :: true :: s.group.flatMap bits8) s).finish s :=
  congrArg (Res.finish s) (emitMixed_eq s)

/-- Settles O13: EMW and EMK are the runs of PUTBITs of their bits. -/
theorem shortWordsAreEmitted : Obligations.ShortWordsAreEmitted := fun s =>
  ⟨emitsOrRaises_of_exec_eq_putBits (exec_emw s), emitsOrRaises_of_exec_eq_putBits (exec_emk s)⟩

/-- Settles O14: EMM is the run of PUTBITs of the bits 1 1 and the group's pixels. -/
theorem emmEmitsRawPixels : Obligations.EmmEmitsRawPixels := fun s =>
  emitsOrRaises_of_exec_eq_putBits (exec_emm s)

/-! The three variants, each by the pixels of the group (R112). -/

theorem exec_clsg (s : State) : exec .clsg s = .next { s with var := variantOf s.group } := rfl

theorem variantOf_eq_w_iff (g : List Byte) : variantOf g = .w ↔ ∀ p ∈ g, p = 255#8 := by
  simpa using not_congr (variantOf_ne_w g)

/-- The priority of W over K: an all-black group is K only because some pixel of it is not white. -/
theorem variantOf_eq_k_iff (g : List Byte) :
    variantOf g = .k ↔ (∃ p ∈ g, p ≠ 255#8) ∧ ∀ p ∈ g, p = 0#8 := by
  rw [← variantOf_ne_w]
  unfold variantOf
  split
  next => simp
  next =>
    split
    next hblack => simpa [Config.black] using hblack
    next hnotBlack => simpa [Config.black] using hnotBlack

theorem variantOf_eq_m_iff (g : List Byte) :
    variantOf g = .m ↔ (∃ p ∈ g, p ≠ 255#8) ∧ ∃ p ∈ g, p ≠ 0#8 := by
  have hrest : variantOf g = .m ↔ variantOf g ≠ .w ∧ variantOf g ≠ .k := by cases variantOf g <;> decide
  rw [hrest, Ne, Ne, variantOf_eq_k_iff, ← variantOf_ne_w]
  constructor
  · rintro ⟨hw, hk⟩
    exact ⟨hw, by simpa [hw] using hk⟩
  · rintro ⟨hw, p, hp, hne⟩
    exact ⟨hw, fun hk => hne (hk.2 p hp)⟩

/-- Settles O16: VAR becomes `variantOf` of the loaded group, which is each variant exactly on its groups. -/
theorem clsgClassifiesTheGroup : Obligations.ClsgClassifiesTheGroup := fun s =>
  ⟨_, exec_clsg s, rfl, variantOf_eq_w_iff s.group, variantOf_eq_k_iff s.group, variantOf_eq_m_iff s.group⟩

end Sys2Proof.Machine
end

/-! PROOFS. The bit packer: what PUT and PUTBIT do (R131, R132). -/
section

namespace Sys2Proof.Machine

/-! PUT. -/

/-- Within its domain PUT is the run of PUTBITs of the low bits (R131). -/
theorem exec_put {n : Nat} (hn : n ≤ 32) (v : Word) (s : State) :
    exec (.put v n) s = (putBits (lowbits v.toNat n) s).finish s :=
  if_pos hn

/-- Settles O8: PUT is a run of PUTBITs, and the run of no bits leaves the state as it is. -/
theorem putAppendsLowBits : Obligations.PutAppendsLowBits :=
  ⟨fun s v _ hn => emitsOrRaises_of_exec_eq_putBits (exec_put hn v s), fun s v => exec_put (Nat.zero_le 32) v s⟩

/-! PUTBIT. -/

theorem exec_putbit (b : Bool) (s : State) : exec (.putbit b) s = (putBit b s).finish s := rfl

/-- Placing the bit `b` adds `b * 2 ^ (7 - n)`: a zero bit adds nothing (R132). -/
theorem placeBit_eq_add (acc : Byte) (n : Nat) (b : Bool) :
    placeBit acc n b = acc + BitVec.ofNat 8 (b.toNat * 2 ^ (7 - n)) := by
  cases b with
  | false => simp [placeBit]
  | true => simp [placeBit]

theorem exec_putbit_of_nbits_lt {s : State} (h : s.nbits.val < 7) (b : Bool) :
    exec (.putbit b) s = .next (s.bitPlaced b) := by
  rw [exec_putbit, putBit_of_lt (Fin.ne_of_lt h), Res.finish_ok]

theorem exec_putbit_of_room {s : State} (h : s.nbits.val = 7) (hroom : s.room 1) (b : Bool) :
    exec (.putbit b) s = .next (s.byteCompleted b) := by
  rw [exec_putbit, putBit_of_eq (Fin.ext h), outAppend_of_room hroom]
  rfl

theorem exec_putbit_of_full {s : State} (h : s.nbits.val = 7) (hfull : s.outCap = some s.outLen) (b : Bool) :
    exec (.putbit b) s = .next (raise .outputFull s) := by
  rw [exec_putbit, putBit_of_eq (Fin.ext h), outAppend_of_full hfull, Res.bind_raised, Res.finish_raised]

/-- Settles O9: the cases are a bit that completes no byte, a byte completed with room in OUT, and one with OUT full. -/
theorem putbitPlacesOneBit : Obligations.PutbitPlacesOneBit := by
  intro s b acc hacc
  obtain rfl : acc = placeBit s.acc s.nbits.val b := hacc.trans (placeBit_eq_add _ _ b).symm
  exact ⟨fun hlt => ⟨s.bitPlaced b, exec_putbit_of_nbits_lt hlt b, nbits_succ (Fin.ne_of_lt hlt), rfl⟩,
    fun h7 hroom => exec_putbit_of_room h7 hroom b, fun h7 hfull => exec_putbit_of_full h7 hfull b⟩

end Sys2Proof.Machine
end

/-! PROOFS. The bit source of the decoder: what GETBIT and GET do (R182, R183). -/
section

namespace Sys2Proof.Machine

/-! GETBIT. -/

/-- Bit position `8 * a + j` of the input is bit `7 - j` of byte `a`: bits are taken MSB-first (R181). -/
theorem Dec.bitAt_of_getElem? {d : Dec} {a j : Nat} {byte : Byte} (hbyte : d.input[a]? = some byte) (hj : j < 8) :
    d.bitAt (8 * a + j) = byte.getLsbD (7 - j) := by
  have hdiv : (8 * a + j) / 8 = a := by omega
  have hmod : (8 * a + j) % 8 = j := by omega
  simp [Dec.bitAt, hdiv, hmod, hbyte]

theorem exec_getbit (s : State) :
    exec .getbit s = (s.dec.getBit.bind fun (b, d) => .ok { d with ret := b.toNat }).finishDec s := rfl

theorem exec_getbit_of_lt {s : State} (h : s.dec.pos < 8 * s.dec.input.length) :
    exec .getbit s = .next { s with dec := { s.dec with
      pos := s.dec.pos + 1, ret := (s.dec.bitAt s.dec.pos).toNat } } := by
  have hbit : s.dec.getBit = .ok (s.dec.bitAt s.dec.pos, { s.dec with pos := s.dec.pos + 1 }) :=
    if_neg (Nat.not_le.mpr h)
  rw [exec_getbit, hbit, Res.bind_ok, Res.finishDec_ok]

theorem exec_getbit_at_end {s : State} (h : 8 * s.dec.input.length ≤ s.dec.pos) :
    exec .getbit s = .next { s with dec := s.dec.fail .payloadExhausted } := by
  have hend : s.dec.getBit = .raised .payloadExhausted := if_pos h
  rw [exec_getbit, hend, Res.bind_raised, Res.finishDec_raised]

/-- Settles O25: a byte at index `a` puts POS inside the input, where GETBIT returns the bit at POS; beyond, it raises. -/
theorem getbitReadsTheNextBit : Obligations.GetbitReadsTheNextBit := by
  refine fun s => ⟨fun a j byte hbyte hj hpos => ?_, exec_getbit_at_end⟩
  obtain ⟨ha, _⟩ := List.getElem?_eq_some_iff.mp hbyte
  have hlt : s.dec.pos < 8 * s.dec.input.length := by omega
  have hbit : s.dec.bitAt s.dec.pos = byte.getLsbD (7 - j) := hpos ▸ Dec.bitAt_of_getElem? hbyte hj
  rw [exec_getbit_of_lt hlt, hbit]

/-! GET. -/

/-- Within its domain GET is the run of GETBITs, its value returned (R183). -/
theorem exec_get {n : Nat} (hn : n ≤ 32) (s : State) :
    exec (.get n) s = ((Dec.getBits n 0 s.dec).bind fun (v, d) => .ok { d with ret := v }).finishDec s :=
  if_pos hn

/-- Settles O26: GET gathers the bits of `lowbits v n` into `v % 2 ^ n`, or raises at the end of the input. -/
theorem getReadsBackPut : Obligations.GetReadsBackPut := by
  refine fun s n hn => ⟨fun v r hrest => ?_, fun hshort => ?_⟩
  · obtain ⟨hbits, _⟩ := Dec.getBits_append 0 (lowbits_length v n) hrest
    rw [exec_get hn, hbits, Res.bind_ok, Res.finishDec_ok, natOfBits_lowbits]
  · rw [exec_get hn, Dec.getBits_short 0 hshort, Res.bind_raised, Res.finishDec_raised]

end Sys2Proof.Machine
end

/-! PROOFS. The encodings: code words and groups, the header and the row-index byte (R71 to R85, R119). -/
section

namespace Sys2Proof.Machine

/-! Code words. -/

theorem length_of_mixedWord {ps : List Byte} {i : Instr} (h : mixedWord ps = some i) :
    1 ≤ ps.length ∧ ps.length ≤ 4 := by
  unfold mixedWord at h
  split at h
  all_goals simp at h ⊢

/-- The Mixed word of `ps` is what `11` and its raw bytes decode to (R78, R79). -/
theorem decodeWord_of_mixedWord {ps : List Byte} {i : Instr} (h : mixedWord ps = some i) (r : Bits) :
    decodeWord ps.length (true :: true :: (ps.flatMap bits8 ++ r)) = .ok (i, r) := by
  obtain ⟨h1, h4⟩ := length_of_mixedWord h
  obtain ⟨j, hdecode, hj⟩ := decodeWord_mixed h1 h4 r
  obtain rfl : i = j := Option.some.inj (h.symm.trans hj)
  exact hdecode

/-- Settles O1: W and K by their first bits, M1 to M4 by the raw bytes after `11`. -/
theorem codeWordDecodesBack : Obligations.CodeWordDecodesBack := by
  intro i bits rest n hencode hfits
  cases i <;> simp only [encode, Option.some.injEq, reduceCtorEq] at hencode <;> subst hencode
  case w =>
    obtain ⟨h1, h4⟩ : 1 ≤ n ∧ n ≤ 4 := of_decide_eq_true hfits
    exact decodeWord_white h1 h4 rest
  case k =>
    obtain ⟨h1, h4⟩ : 1 ≤ n ∧ n ≤ 4 := of_decide_eq_true hfits
    exact decodeWord_black h1 h4 rest
  case m1 p0 =>
    obtain rfl : n = 1 := eq_of_beq hfits
    simpa using decodeWord_of_mixedWord (ps := [p0]) rfl rest
  case m2 p0 p1 =>
    obtain rfl : n = 2 := eq_of_beq hfits
    simpa using decodeWord_of_mixedWord (ps := [p0, p1]) rfl rest
  case m3 p0 p1 p2 =>
    obtain rfl : n = 3 := eq_of_beq hfits
    simpa using decodeWord_of_mixedWord (ps := [p0, p1, p2]) rfl rest
  case m4 p0 p1 p2 p3 =>
    obtain rfl : n = 4 := eq_of_beq hfits
    simpa using decodeWord_of_mixedWord (ps := [p0, p1, p2, p3]) rfl rest

/-- Settles O2: by what a successful decoding can be. -/
theorem decodedWordIsItsBits : Obligations.DecodedWordIsItsBits := by
  intro n s rest i h
  obtain ⟨h1, h4, ⟨rfl, hs⟩ | ⟨rfl, hs⟩ | ⟨ps, rfl, hi, hs⟩⟩ := decodeWord_eq_ok h
  · exact ⟨[false], rfl, hs, decide_eq_true ⟨h1, h4⟩⟩
  · exact ⟨[true, false], rfl, hs, decide_eq_true ⟨h1, h4⟩⟩
  · obtain ⟨j, hj, hencode, hfits, _⟩ := mixedWord_some h1 h4
    obtain rfl : i = j := Option.some.inj (hi.symm.trans hj)
    exact ⟨_, hencode, by simp [hs], hfits⟩

/-- Settles O3: decoding fails only where fewer than `2 + 8n` bits stand. -/
theorem everyBitStringHasAWord : Obligations.EveryBitStringHasAWord := by
  intro n s h1 h4 hlen
  cases hdecode : decodeWord n s with
  | ok ir =>
    obtain ⟨i, rest⟩ := ir
    obtain ⟨_, _, _, hfits⟩ := decodedWordIsItsBits n s rest i hdecode
    exact ⟨i, rest, rfl, hfits⟩
  | error e =>
    obtain ⟨_, rfl | rfl | ⟨s', rfl, hshort⟩⟩ := decodeWord_eq_error h1 h4 hdecode
    · simp at hlen
    · simp at hlen; omega
    · simp at hlen; omega

/-- Settles O4: each of the six is evaluated. -/
theorem specWordsDecode : Obligations.SpecWordsDecode := ⟨rfl, rfl, rfl, rfl, rfl, rfl⟩

/-! The container's bytes. -/

/-- The header reads back, whatever follows (R71, R11). -/
theorem decodeHeader_encodeHeader (w h : Word) (rest : List Byte) :
    decodeHeader (encodeHeader w h ++ rest) = .ok ((w, h), rest) := by
  obtain ⟨a0, a1, a2, a3, hw, hunw⟩ := unle32_le32 w (le32 h ++ rest)
  obtain ⟨b0, b1, b2, b3, hh, hunh⟩ := unle32_le32 h rest
  rw [encodeHeader, List.append_assoc, hw, hh, ← hunw, ← hunh]
  rfl

/-- Settles O5: the header is the two `le32`, each of which reads back. -/
theorem headerIsLittleEndian : Obligations.HeaderIsLittleEndian := by
  refine fun w h rest => ⟨?_, decodeHeader_encodeHeader w h rest⟩
  rw [encodeHeader, List.map_append, le32_toNat, le32_toNat]
  rfl

/-- Settles O6: bit `j` of the byte is item `j`. -/
theorem presenceByteReadsBack : Obligations.PresenceByteReadsBack := by
  intro f
  have hbits : presenceBits (encodePresence f 8) = (List.range 8).map (encodePresence f 8).getLsbD := rfl
  rw [hbits]
  exact List.map_congr_left fun j hj => encodePresence_getLsbD f j (List.mem_range.mp hj)

/-! Groups. -/

/-- Within its domain DGRP is the decoder's group operation (R190). -/
theorem exec_dgrp {n : Nat} (h1 : 1 ≤ n) (h4 : n ≤ 4) (s : State) :
    exec (.dgrp n) s = (s.dec.group n).finishDec s :=
  if_pos ⟨h1, h4⟩

/-- Settles O7: DGRP reads the code at POS, which gives the group back. -/
theorem groupCodeIsLossless : Obligations.GroupCodeIsLossless := by
  intro s g r h1 h4 hrest
  obtain ⟨hgroup, _⟩ := Dec.group_of_code h1 h4 hrest
  rw [exec_dgrp h1 h4, hgroup, Res.finishDec_ok]

end Sys2Proof.Machine
end

/-! PROOFS. The bit packer: FLUSH, the final padding, and a PUT split in two (R77, R133 to R136). -/
section

namespace Sys2Proof.Machine

/-! FLUSH. -/

theorem exec_flush (s : State) : exec .flush s = (flushPacker s).finish s := rfl

theorem flushPacker_of_zero {s : State} (h : s.nbits.val = 0) : flushPacker s = .ok s := if_pos (Fin.ext h)

theorem exec_flush_of_zero {s : State} (h : s.nbits.val = 0) : exec .flush s = .next s := by
  rw [exec_flush, flushPacker_of_zero h, Res.finish_ok]

theorem exec_flush_of_room {s : State} (h : 0 < s.nbits.val) (hroom : s.room 1) :
    exec .flush s = .next s.flushed := by
  rw [exec_flush, flushPacker_of_room (Fin.ne_of_gt h) hroom, Res.finish_ok]

theorem flushPacker_of_full {s : State} (h : 0 < s.nbits.val) (hfull : s.outCap = some s.outLen) :
    flushPacker s = .raised .outputFull := by
  rw [flushPacker, if_neg (Fin.ne_of_gt h), outAppend_of_full hfull, Res.bind_raised]

/-- Settles O10: at a byte boundary, else with room in OUT, else with OUT full. -/
theorem flushAppendsThePartialByte : Obligations.FlushAppendsThePartialByte := by
  refine fun s => ⟨exec_flush_of_zero, exec_flush_of_room, fun h hfull => ?_⟩
  rw [exec_flush, flushPacker_of_full h hfull, Res.finish_raised]

/-! PAD. -/

/-- The padding is what FLUSH does: the zero bits that complete a byte append ACC (R77, R134). -/
theorem emitPadding_eq_flushPacker (s : State) : emitPadding s = flushPacker s := by
  rw [emitPadding]
  rcases flushPacker_cases s with ⟨hzero, hflush⟩ | ⟨hpos, hflush⟩
  · have hcount : padCount s = 0 := by simp [padCount, hzero]
    rw [hcount, hflush]
    rfl
  · have hne : s.nbits.val ≠ 0 := fun h => hpos (Fin.ext h)
    have hlt := s.nbits.isLt
    have hcount : padCount s = 7 - s.nbits.val + 1 := by rw [padCount]; omega
    rw [hcount, hflush, putBits_zeros _ _ (by omega)]

theorem exec_pad_eq_putBits (s : State) :
    exec .pad s = (putBits (List.replicate ((8 - s.nbits.val) % 8) false) s).finish s := rfl

theorem exec_pad_eq_flush (s : State) : exec .pad s = exec .flush s :=
  congrArg (Res.finish s) (emitPadding_eq_flushPacker s)

/-- Settles O11: PAD is a run of PUTBITs that does what FLUSH does, and so has FLUSH's cases. -/
theorem paddingCompletesTheLastByte : Obligations.PaddingCompletesTheLastByte := fun s =>
  ⟨emitsOrRaises_of_exec_eq_putBits (exec_pad_eq_putBits s), exec_pad_eq_flush s,
    fun h => (exec_pad_eq_flush s).trans (exec_flush_of_zero h),
    fun h hroom => (exec_pad_eq_flush s).trans (exec_flush_of_room h hroom)⟩

/-! PUT in two parts. -/

theorem PackerFrame.phase {s t : State} (h : PackerFrame s t) : t.phase = s.phase := by
  obtain ⟨hframe, _⟩ := h
  rw [hframe]

theorem lowbits_shiftRight_append (v : Word) (a b : Nat) :
    lowbits v.toNat (a + b) = lowbits (v >>> b).toNat a ++ lowbits v.toNat b := by
  rw [lowbits_add, BitVec.toNat_ushiftRight, Nat.shiftRight_eq_div_pow]

/-- Settles O12: the run of the first bits goes on, and the run of the others follows, or it raises and is the whole. -/
theorem putSplits : Obligations.PutSplits := by
  intro s t v a b hab hphase hfirst
  rw [exec_put (by omega)] at hfirst
  rw [exec_put hab, lowbits_shiftRight_append, putBits_append]
  rcases Res.finish_eq_next.mp hfirst with hok | ⟨c, hraised, rfl⟩
  · have hframe := putBits_frame hok
    rw [if_neg (hframe.phase ▸ hphase), exec_put (by omega), hok, Res.bind_ok, finish_eq_of_frame hframe]
  · rw [hraised, Res.bind_raised, Res.finish_raised, if_pos (raise_phase s c)]

end Sys2Proof.Machine
end

/-! PROOFS. The group coder and the row classifier: LDG, GRP, CLS (R100 to R119). -/
section

namespace Sys2Proof.Machine

/-! LDG. -/

theorem exec_ldg {s : State} (hy : s.y < dim s.height) (hx : s.x < dim s.width) :
    exec .ldg s = .next (s.loadGroup (groupAt (pixByte s) (dim s.width) s.y s.x)) :=
  congrArg (Res.finish s) (loadGroup_eq hy hx)

/-- Settles O15: LDG loads the group of the functional definition, which has `min 4 (WIDTH - X)` pixels. -/
theorem ldgLoadsTheGroup : Obligations.LdgLoadsTheGroup := by
  intro s hy hx
  have hlen := groupAt_length (pixByte s) (dim s.width) s.y s.x
  obtain ⟨hgroup, hsize⟩ := loadGroup_group s (ps := groupAt (pixByte s) (dim s.width) s.y s.x)
    (hlen ▸ groupCount_pos hx) (hlen ▸ groupCount_le _ _)
  obtain ⟨hg1, hg2, hg3⟩ := loadGroup_keeps s (groupAt (pixByte s) (dim s.width) s.y s.x)
  rw [← hsize] at hg1 hg2 hg3
  exact ⟨_, exec_ldg hy hx, hsize.trans hlen, hgroup, hg1, hg2, hg3, loadGroup_frame _ _⟩

/-! GRP. -/

/-- GRP in its domain puts the group's code through the packer and moves X on (R116). -/
theorem exec_grp {s : State} (hy : s.y < dim s.height) (hx : s.x < dim s.width) :
    exec .grp s = ((putBits (codeOfGroup (groupAt (pixByte s) (dim s.width) s.y s.x)) s.grouped).bind
      fun u => .ok { u with x := u.x + 4 }).finish s :=
  congrArg (Res.finish s) (encodeGroup_eq hy hx)

theorem grouped_gsz {s : State} (hx : s.x < dim s.width) :
    s.grouped.gsz.toNat = groupCount (dim s.width) s.x := by
  have hlen := groupAt_length (pixByte s) (dim s.width) s.y s.x
  exact (loadGroup_group s (hlen ▸ groupCount_pos hx) (hlen ▸ groupCount_le _ _)).2.trans hlen

theorem grouped_var {s : State} (hx : s.x < dim s.width) :
    s.grouped.var = variantOf (groupAt (pixByte s) (dim s.width) s.y s.x) :=
  congrArg variantOf (grouped_group hx)

theorem State.sink_congr {s t : State} (hout : t.out = s.out) (hlen : t.outLen = s.outLen) (hacc : t.acc = s.acc)
    (hnbits : t.nbits = s.nbits) : t.sink = s.sink := by
  simp only [State.sink, outBytes, hout, hlen, hacc, hnbits]

/-- Loading and classifying leave the packer and OUT as they are. -/
theorem grouped_packer (s : State) :
    s.grouped.out = s.out ∧ s.grouped.outLen = s.outLen ∧ s.grouped.acc = s.acc ∧ s.grouped.nbits = s.nbits ∧
      s.grouped.outCap = s.outCap := by
  rw [grouped_frame]
  exact ⟨rfl, rfl, rfl, rfl, rfl⟩

theorem grouped_sinkReady {s : State} (h : s.sinkReady) : s.grouped.sinkReady := by
  obtain ⟨hout, hlen, hacc, hnbits, _⟩ := grouped_packer s
  simp only [State.sinkReady, State.packerClean, State.outDense, hout, hlen, hacc, hnbits]
  exact h

theorem grouped_sink (s : State) : s.grouped.sink = s.sink := by
  obtain ⟨hout, hlen, hacc, hnbits, _⟩ := grouped_packer s
  exact State.sink_congr hout hlen hacc hnbits

theorem grouped_room {s : State} {k : Nat} (h : s.room k) : s.grouped.room k := by
  obtain ⟨_, hlen, _, _, hcap⟩ := grouped_packer s
  simp only [State.room, hlen, hcap]
  exact h

/-- GRP where the code of the group fits: the loaded group, and the packer's state after its code. -/
theorem exec_grp_of_room {s : State} (hy : s.y < dim s.height) (hx : s.x < dim s.width) (hready : s.sinkReady)
    (hroom : s.room ((s.nbits.val + (codeOfGroup (groupAt (pixByte s) (dim s.width) s.y s.x)).length) / 8)) :
    ∃ u, exec .grp s = .next { u with x := u.x + 4 } ∧
      PackerFrame s.grouped u ∧
      Emits s.grouped u (codeOfGroup (groupAt (pixByte s) (dim s.width) s.y s.x)) := by
  obtain ⟨_, _, _, hnbits, _⟩ := grouped_packer s
  obtain ⟨u, hput, hemits⟩ := putBits_emits (codeOfGroup (groupAt (pixByte s) (dim s.width) s.y s.x))
    (grouped_sinkReady hready) (hnbits ▸ grouped_room hroom)
  exact ⟨u, by rw [exec_grp hy hx, hput, Res.bind_ok, Res.finish_ok], putBits_frame hput, hemits⟩

theorem exec_grp_of_full {s : State} {cap : Nat} (hy : s.y < dim s.height) (hx : s.x < dim s.width)
    (hcap : s.outCap = some cap) (hle : s.outLen ≤ cap)
    (hfull : cap < s.outLen + (s.nbits.val + (codeOfGroup (groupAt (pixByte s) (dim s.width) s.y s.x)).length) / 8) :
    exec .grp s = .next (raise .outputFull s) := by
  obtain ⟨_, hlen, _, hnbits, hgcap⟩ := grouped_packer s
  rw [exec_grp hy hx, putBits_of_full _ (hgcap.trans hcap) (hlen ▸ hle) (hlen ▸ hnbits ▸ hfull), Res.bind_raised,
    Res.finish_raised]

/-- Settles O17: the packer receives the code of the loaded group, or raises OutputFull. -/
theorem grpEncodesOneGroup : Obligations.GrpEncodesOneGroup := by
  rintro s g hy hx rfl
  refine ⟨fun hready hroom => ?_, fun cap => exec_grp_of_full hy hx⟩
  obtain ⟨u, hexec, hpacker, hsink, hready', _, _, hu⟩ := exec_grp_of_room hy hx hready hroom
  obtain ⟨hframe, _, hkept, _⟩ := grouped_packerFrame hpacker
  refine ⟨_, hexec, ?_, ?_, ?_, ?_, ?_, hready', hkept, ?_⟩
  · rw [hframe]
  · rw [hu]
    exact grouped_group hx
  · rw [hu]
    exact grouped_gsz hx
  · rw [hu]
    exact grouped_var hx
  · rw [← grouped_sink s]
    exact hsink
  · rw [hframe]

/-! CLS. -/

theorem exec_cls {s : State} (hy : s.y < dim s.height) :
    exec .cls s = .next { s with
      rp := Memory.write s.rp s.y (presentRow (pixByte s) (dim s.width) s.y), y := s.y + 1 } :=
  congrArg (Res.finish s) (classifyRow_eq hy)

theorem presentRow_iff (px : Nat → Byte) (w y : Nat) :
    presentRow px w y = true ↔ ∃ x, x < w ∧ px (y * w + x) ≠ 255#8 := by
  simp [presentRow, Config.white]

/-- Settles O18: CLS writes the presence of the row at `RP[Y]` and nowhere else. -/
theorem clsWritesThePresenceBit : Obligations.ClsWritesThePresenceBit := by
  intro s hy
  refine ⟨_, exec_cls hy, rfl, ?_, fun i hi => Memory.read_write_other _ _ hi, rfl⟩
  rw [rpBit_write s s.y _ _ rfl]
  exact presentRow_iff _ _ _

/-- Settles O19: the groups of a row in order are the row, so a pixel of the row is a pixel of a group. -/
theorem presentRowHasANonWhiteGroup : Obligations.PresentRowHasANonWhiteGroup := by
  intro px w y
  have hrow : presentRow px w y = true ↔ ∃ p ∈ (groupStarts w).flatMap (groupAt px w y), p ≠ 255#8 := by
    rw [rowPixels, presentRow_iff]
    simp
  rw [hrow]
  simp only [variantOf_ne_w, List.mem_flatMap]
  constructor
  · rintro ⟨p, ⟨x, hx, hp⟩, hne⟩
    exact ⟨x, hx, p, hp, hne⟩
  · rintro ⟨x, hx, p, hp, hne⟩
    exact ⟨p, ⟨x, hx, hp⟩, hne⟩

end Sys2Proof.Machine
end

/-! PROOFS. The container's operations: START, HDR, RIX, FIN (R150 to R163). -/
section

namespace Sys2Proof.Machine

/-! START. -/

theorem exec_start_of_busy {s : State} (h : s.phase.busy = true) : exec .start s = .next s := if_pos h

theorem exec_start {s : State} (h : s.phase.busy = false) : exec .start s = (beginCall s).finish s :=
  if_neg (by simp [h])

theorem msb_or_eq_true_iff {w h : Word} : (w.msb || h.msb) = true ↔ w.toInt < 0 ∨ h.toInt < 0 := by
  rw [Bool.or_eq_true, toInt_neg, toInt_neg]

theorem msb_or_eq_false {w h : Word} (hw : 0 ≤ w.toInt) (hh : 0 ≤ h.toInt) : (w.msb || h.msb) = false := by
  rw [toInt_nonneg.mp hw, toInt_nonneg.mp hh, Bool.or_false]

theorem beginCall_of_negative {s : State} (h : s.width.toInt < 0 ∨ s.height.toInt < 0) :
    beginCall s = .raised .negativeDimension :=
  if_pos (msb_or_eq_true_iff.mpr h)

theorem beginCall_of_tooLarge {s : State} (hw : 0 ≤ s.width.toInt) (hh : 0 ≤ s.height.toInt)
    (h : exceedsPixels s.maxPixels s.width s.height = true) : beginCall s = .raised .rasterTooLarge := by
  rw [beginCall, if_neg (by simp [msb_or_eq_false hw hh]), if_pos h]

theorem beginCall_of_fits {s : State} (hw : 0 ≤ s.width.toInt) (hh : 0 ≤ s.height.toInt)
    (h : exceedsPixels s.maxPixels s.width s.height = false) :
    beginCall s = .ok { s.cleared with phase := .header } := by
  rw [beginCall, if_neg (by simp [msb_or_eq_false hw hh]), if_neg (by simp [h])]

/-- Settles O20: where the checks pass START gives the cleared registers and phase Header. -/
theorem startBeginsACall : Obligations.StartBeginsACall := by
  intro s hidle hw hh hfits
  have hstart : exec .start s = .next { s.cleared with phase := .header } := by
    rw [exec_start hidle, beginCall_of_fits hw hh ((exceedsPixels_eq_false hw hh).mpr hfits), Res.finish_ok]
  exact ⟨_, hstart, rfl, rfl, rfl, rfl, rfl, rfl, rfl, rfl, rfl, rfl, rfl, rfl, rfl, rfl, rfl, rfl, rfl, rfl,
    fun hquiet => ⟨rfl, hquiet, rfl, rfl, rfl, rfl⟩⟩

/-- Settles O21: busy, else the check of the signs, else the check of the size. -/
theorem startChecksInOrder : Obligations.StartChecksInOrder := by
  refine fun s => ⟨exec_start_of_busy, fun hidle hneg => ?_, fun hidle hw hh hlarge => ?_⟩
  · rw [exec_start hidle, beginCall_of_negative hneg, Res.finish_raised]
  · rw [exec_start hidle, beginCall_of_tooLarge hw hh ((exceedsPixels_eq_true hw hh).mpr hlarge), Res.finish_raised]

/-! HDR. -/

theorem exec_hdr (s : State) : exec .hdr s = Res.finish s
    ((outAppendAll (encodeHeader s.width s.height) s).bind fun t => .ok { t with y := 0, phase := .classify }) :=
  rfl

/-- HDR where its eight bytes fit (R153). -/
theorem exec_hdr_of_room {s : State} (h : s.room 8) :
    ∃ t, exec .hdr s = .next t ∧ outBytes t = outBytes s ++ encodeHeader s.width s.height ∧
      t.outLen = s.outLen + 8 ∧ (s.outDense → t.outDense) ∧ OutKept s t ∧
      t = { s with out := t.out, outLen := t.outLen, y := 0, phase := .classify } := by
  obtain ⟨u, happend, hbytes, hlen, hdense, hkept, hframe⟩ :=
    outAppendAll_of_room (encodeHeader s.width s.height) s h
  refine ⟨{ u with y := 0, phase := .classify }, ?_, hbytes, hlen, hdense, hkept, ?_⟩
  · rw [exec_hdr, happend, Res.bind_ok, Res.finish_ok]
  · rw [hframe]

theorem exec_hdr_of_full {s : State} {cap : Nat} (hcap : s.outCap = some cap) (hle : s.outLen ≤ cap)
    (hfull : cap < s.outLen + 8) : exec .hdr s = .next (raise .outputFull s) := by
  have happend := outAppendAll_of_full (encodeHeader s.width s.height) s hcap hle hfull
  rw [exec_hdr, happend, Res.bind_raised, Res.finish_raised]

/-- Settles O22: HDR is an append of the two `le32`, which raises when the eight bytes do not all fit. -/
theorem hdrEmitsTheHeader : Obligations.HdrEmitsTheHeader := by
  refine fun s => ⟨fun hroom => ?_, fun cap => exec_hdr_of_full⟩
  obtain ⟨t, hexec, hbytes, hlen, _, hkept, hframe⟩ := exec_hdr_of_room hroom
  refine ⟨t, hexec, by rw [hbytes, encodeHeader, List.append_assoc], hlen, ?_, ?_, hkept, ?_⟩
  · rw [hframe]
  · rw [hframe]
  · rw [hframe]

/-! RIX. -/

theorem exec_rix_of_room {s : State} (h : s.room 1) : exec .rix s = .next s.rowIndexed :=
  congrArg (Res.finish s) (emitRowIndex_of_room h)

theorem exec_rix_of_full {s : State} (h : s.outCap = some s.outLen) : exec .rix s = .next (raise .outputFull s) := by
  have hfull : emitRowIndex s = .raised .outputFull := by
    rw [emitRowIndex, outAppend_of_full (s := { s with rixb := rowIndexByte s }) h, Res.bind_raised]
  exact congrArg (Res.finish s) hfull

theorem outBytes_rowIndexed (s : State) : outBytes s.rowIndexed = outBytes s ++ [rowIndexByte s] :=
  outBytes_appended { s with rixb := rowIndexByte s } (rowIndexByte s)

/-- Bit `j` of row-index byte KIDX (R155). -/
theorem rowIndexByte_getLsbD (s : State) {j : Nat} (hj : j < 8) :
    (rowIndexByte s).getLsbD j = true ↔ 8 * s.kidx + j < dim s.height ∧ rpBit s (8 * s.kidx + j) = true := by
  rw [rowIndexByte, encodePresence_getLsbD _ j hj, rowIndexBit, Bool.and_eq_true, decide_eq_true_eq]

/-- Settles O23: RIX appends `rowIndexByte`, or raises when OUT is full. -/
theorem rixEmitsTheRowIndexByte : Obligations.RixEmitsTheRowIndexByte := fun s =>
  ⟨fun hroom => ⟨s.rowIndexed, exec_rix_of_room hroom, outBytes_rowIndexed s, rfl, fun _ => rowIndexByte_getLsbD s, rfl,
    outKept_appended { s with rixb := rowIndexByte s } _, rfl⟩, exec_rix_of_full⟩

/-! FIN. -/

theorem exec_fin (s : State) : exec .fin s = .next { s with phase := .done } := rfl

theorem machineAction_of_idle {s : State} (h : s.phase.busy = false) (hdec : s.dec.phase.running = false) :
    machineAction s = .become s := by
  simp [machineAction, h, hdec]

/-- A quiet host, a block that is not busy and a decoder that is not running: a step changes nothing (R161). -/
theorem step_of_idle {s : State} (hquiet : s.inbox = []) (h : s.phase.busy = false)
    (hdec : s.dec.phase.running = false) : step s = .next s := by
  rw [step_quiet hquiet, machineAction_of_idle h hdec, runAction]

/-- Settles O24: in Done the block is not busy. -/
theorem finEndsTheCall : Obligations.FinEndsTheCall := fun s =>
  ⟨_, exec_fin s, rfl, rfl, fun hquiet hdec => step_of_idle hquiet rfl hdec⟩

end Sys2Proof.Machine
end

/-! PROOFS. The reference decoder's operations: DHDR, DRIX, DROW, DGRP and the code words (R184 to R196). -/
section

namespace Sys2Proof.Machine

/-! DHDR. -/

theorem Dec.header_of_short {d : Dec} (h : d.input.length < 8) : d.header = .raised .headerTooShort := by
  rw [Dec.header, decodeHeader_short h]

theorem Dec.header_of_negative {d : Dec} {w h : Word} {rest : List Byte} (hinput : d.input = encodeHeader w h ++ rest)
    (hneg : w.toInt < 0 ∨ h.toInt < 0) : d.header = .raised .negativeDimension := by
  simp only [Dec.header, hinput, decodeHeader_encodeHeader, msb_or_eq_true_iff.mpr hneg, if_true]

theorem Dec.header_of_nonneg {d : Dec} {w h : Word} {rest : List Byte} (hinput : d.input = encodeHeader w h ++ rest)
    (hw : 0 ≤ w.toInt) (hh : 0 ≤ h.toInt) :
    d.header = .ok { d with width := w, height := h, phase := .readRowIndex } := by
  simp only [Dec.header, hinput, decodeHeader_encodeHeader, msb_or_eq_false hw hh, Bool.false_eq_true, if_false]

theorem exec_dhdr (s : State) : exec .dhdr s = s.dec.header.finishDec s := rfl

/-- Settles O27: too few bytes, else the check of the signs. -/
theorem dhdrReadsTheHeader : Obligations.DhdrReadsTheHeader := by
  refine fun s => ⟨fun hshort => ?_, fun w h rest hinput => ⟨fun hneg => ?_, fun hw hh => ?_⟩⟩
  · rw [exec_dhdr, Dec.header_of_short hshort, Res.finishDec_raised]
  · rw [exec_dhdr, Dec.header_of_negative hinput hneg, Res.finishDec_raised]
  · rw [exec_dhdr, Dec.header_of_nonneg hinput hw hh, Res.finishDec_ok]

/-! DRIX. -/

/-- The decoder at the first row, its payload's first bit at POS (R186). -/
def Dec.rowsBegun (d : Dec) : Dec :=
  { d with n := ceilDiv8 (dim d.height), pos := 8 * (8 + ceilDiv8 (dim d.height)), out := [], y := 0, x := 0,
           phase := .decodeRow }

theorem Dec.rowIndex_of_short {d : Dec} {m : Option Nat} (h : d.input.length < 8 + ceilDiv8 (dim d.height)) :
    d.rowIndex m = .raised .rowIndexTruncated :=
  if_pos h

theorem Dec.rowIndex_of_tooLarge {d : Dec} {m : Option Nat} (h : 8 + ceilDiv8 (dim d.height) ≤ d.input.length)
    (hlarge : exceedsPixels m d.width d.height = true) : d.rowIndex m = .raised .rasterTooLarge :=
  (if_neg (Nat.not_lt.mpr h)).trans (if_pos hlarge)

theorem Dec.rowIndex_of_fits {d : Dec} {m : Option Nat} (h : 8 + ceilDiv8 (dim d.height) ≤ d.input.length)
    (hfits : exceedsPixels m d.width d.height = false) : d.rowIndex m = .ok d.rowsBegun :=
  (if_neg (Nat.not_lt.mpr h)).trans (if_neg (by simp [hfits]))

theorem exec_drix (s : State) : exec .drix s = (s.dec.rowIndex s.maxPixels).finishDec s := rfl

theorem ceilDiv8_dim {v : Word} (h : 0 ≤ v.toInt) : ceilDiv8 (dim v) = (v.toNat + 7) / 8 := by
  rw [dim_of_nonneg (toInt_nonneg.mp h), ceilDiv8]

/-- Settles O28: the check of the length, else the check of the size. -/
theorem drixLocatesTheRowIndex : Obligations.DrixLocatesTheRowIndex := by
  rintro s n hw hh rfl
  rw [← ceilDiv8_dim hh]
  refine ⟨fun hshort => ?_, fun hlen hlarge => ?_, fun hlen hfits => ?_⟩
  · rw [exec_drix, Dec.rowIndex_of_short hshort, Res.finishDec_raised]
  · rw [exec_drix, Dec.rowIndex_of_tooLarge hlen ((exceedsPixels_eq_true hw hh).mpr hlarge), Res.finishDec_raised]
  · rw [exec_drix, Dec.rowIndex_of_fits hlen ((exceedsPixels_eq_false hw hh).mpr hfits), Res.finishDec_ok]
    rfl

/-! DROW. -/

theorem Dec.presence_of_getElem? {d : Dec} {i : Nat} {b : Byte} (h : d.input[8 + i / 8]? = some b) :
    d.presence i = some (b.getLsbD (i % 8)) := by
  simp only [Dec.presence, Config.headerBytes, h]

theorem Dec.row_of_absent {d : Dec} (hy : d.y < dim d.height) (h : d.presence d.y = some false) :
    d.row = .ok (d.append (List.replicate (dim d.width) 255#8)).nextRow := by
  simp only [Dec.row, if_pos hy, h, Config.white]

theorem Dec.row_of_present {d : Dec} (hy : d.y < dim d.height) (h : d.presence d.y = some true) :
    d.row = (Dec.groups (dim d.width) (groupStarts (dim d.width)) d).bind fun d' => .ok d'.nextRow := by
  simp only [Dec.row, if_pos hy, h]

theorem exec_drow (s : State) : exec .drow s = s.dec.row.finishDec s := rfl

/-- Settles O29: a row whose presence bit is 0 is filled. -/
theorem drowFillsAnAbsentRow : Obligations.DrowFillsAnAbsentRow := by
  intro s b hy hbyte hbit
  have habsent : s.dec.presence s.dec.y = some false := by rw [Dec.presence_of_getElem? hbyte, hbit]
  rw [exec_drow, Dec.row_of_absent hy habsent, Res.finishDec_ok]
  rfl

theorem lt_of_mem_groupStarts {w x : Nat} (h : x ∈ groupStarts w) : x < w := (mem_groupStarts.mp h).1

/-- The groups of a whole row read its bits and give its pixels back (R189). -/
theorem groups_of_rowBits {px : Nat → Byte} {w y : Nat} {d : Dec} {r : Bits} (h : d.rest = rowBits px w y ++ r) :
    Dec.groups w (groupStarts w) d = .ok { d with
      pos := d.pos + (rowBits px w y).length, out := d.out ++ (List.range w).map fun x => px (y * w + x) } := by
  rw [← rowPixels]
  exact (groups_of_codes px w y _ (fun _ => lt_of_mem_groupStarts) d r h).1

/-- Settles O30: the groups read the row's codes, or any words that stand there, or run out of bits. -/
theorem drowDecodesAPresentRow : Obligations.DrowDecodesAPresentRow := by
  intro s b hy hbyte hbit
  have hpresent : s.dec.presence s.dec.y = some true := by rw [Dec.presence_of_getElem? hbyte, hbit]
  refine ⟨fun px y r hrest => ?_, fun ps k hwords => ?_, fun e hwords => ?_⟩
  · rw [exec_drow, Dec.row_of_present hy hpresent, groups_of_rowBits hrest]
    rfl
  · rw [exec_drow, Dec.row_of_present hy hpresent, groups_of_words hwords]
    rfl
  · rw [exec_drow, Dec.row_of_present hy hpresent, groups_of_error (fun _ => lt_of_mem_groupStarts) hwords]
    rfl

/-! DGRP. -/

/-- Settles O31: the group operation reads the word at POS, or raises. -/
theorem dgrpReadsOneWord : Obligations.DgrpReadsOneWord := by
  refine fun s n h1 h4 => ⟨fun i r hword => ?_, fun e herror => ?_⟩
  · obtain ⟨hgroup, _⟩ := Dec.group_of_word hword
    rw [exec_dgrp h1 h4, hgroup, Res.finishDec_ok]
    rfl
  · rw [exec_dgrp h1 h4, Dec.group_of_error h1 h4 herror, Res.finishDec_raised]

/-! Code words as instructions. -/

theorem Dec.consume_of_le {d : Dec} {len : Nat} {ps : List Byte} (h : d.pos + len ≤ 8 * d.input.length) :
    d.consume len ps = .ok { d with pos := d.pos + len, out := d.out ++ ps, x := d.x + 4 } :=
  if_neg (Nat.not_lt.mpr h)

theorem Dec.consume_of_lt {d : Dec} {len : Nat} {ps : List Byte} (h : 8 * d.input.length < d.pos + len) :
    d.consume len ps = .raised .payloadExhausted :=
  if_pos h

/-- Where a group starts W and K are words of one and two bits (R189, R190). -/
theorem exec_w {s : State} (hx : s.dec.x < dim s.dec.width) :
    exec .w s = (s.dec.consume 1 (List.replicate s.dec.groupCount 255#8)).finishDec s :=
  congrArg (Res.finishDec s) (if_pos hx)

theorem exec_k {s : State} (hx : s.dec.x < dim s.dec.width) :
    exec .k s = (s.dec.consume 2 (List.replicate s.dec.groupCount 0#8)).finishDec s :=
  congrArg (Res.finishDec s) (if_pos hx)

/-- A Mixed word where the group has as many pixels as it carries (R79, R190). -/
theorem exec_of_mixedWord {s : State} {i : Instr} {ps : List Byte} (hi : mixedWord ps = some i)
    (hlen : ps.length = s.dec.groupCount) :
    exec i s = (s.dec.consume (2 + 8 * ps.length) ps).finishDec s := by
  have hraw : ∀ name, s.dec.rawWord name ps = s.dec.consume (2 + 8 * ps.length) ps := fun _ => if_pos hlen
  match ps, hi, hraw with
  | [_], rfl, hraw | [_, _], rfl, hraw | [_, _, _], rfl, hraw | [_, _, _, _], rfl, hraw =>
    exact congrArg (Res.finishDec s) (hraw _)

theorem Dec.groupCount_eq (d : Dec) : d.groupCount = min 4 (dim d.width - d.x) := rfl

/-- Settles O32: W and K consume their bits where a group starts, or run out of bits. -/
theorem fillWordsExecute : Obligations.FillWordsExecute := by
  rintro s n hx rfl
  rw [← Dec.groupCount_eq]
  refine ⟨fun hle => ?_, fun hle => ?_, fun hlt => ?_, fun hlt => ?_⟩
  · rw [exec_w hx, Dec.consume_of_le hle, Res.finishDec_ok]
  · rw [exec_k hx, Dec.consume_of_le hle, Res.finishDec_ok]
  · rw [exec_w hx, Dec.consume_of_lt hlt, Res.finishDec_raised]
  · rw [exec_k hx, Dec.consume_of_lt hlt, Res.finishDec_raised]

/-- Settles O33: each of M1 to M4 is the Mixed word of its pixels, which consumes its bits or runs out of them. -/
theorem rawWordsExecute : Obligations.RawWordsExecute := by
  rintro s i n ps hn rfl hword
  have hi : mixedWord ps = some i := by
    rcases hword with ⟨p0, rfl, rfl⟩ | ⟨p0, p1, rfl, rfl⟩ | ⟨p0, p1, p2, rfl, rfl⟩ | ⟨p0, p1, p2, p3, rfl, rfl⟩ <;> rfl
  have hlen : ps.length = s.dec.groupCount := hn
  refine ⟨fun hle => ?_, fun hlt => ?_⟩
  · rw [exec_of_mixedWord hi hlen, Dec.consume_of_le hle, Res.finishDec_ok]
  · rw [exec_of_mixedWord hi hlen, Dec.consume_of_lt hlt, Res.finishDec_raised]

theorem Dec.fillWord_of_le {d : Dec} (h : dim d.width ≤ d.x) (name : String) (len : Nat) (v : Byte) :
    d.fillWord name len v = .refused (.wrongGroupSize name) :=
  if_neg (Nat.not_lt.mpr h)

theorem Dec.rawWord_of_ne {d : Dec} {ps : List Byte} (h : d.groupCount ≠ ps.length) (name : String) :
    d.rawWord name ps = .refused (.wrongGroupSize name) :=
  if_neg (Ne.symm h)

/-- Settles O34: the tests of `fillWord` and `rawWord` fail. -/
theorem misplacedWordsAreRefused : Obligations.MisplacedWordsAreRefused := by
  intro s
  have hraw : ∀ {ps : List Byte} (name : String), min 4 (dim s.dec.width - s.dec.x) ≠ ps.length →
      (s.dec.rawWord name ps).finishDec s = .refused (.wrongGroupSize name) := by
    intro ps name h
    rw [Dec.rawWord_of_ne h, Res.finishDec_refused]
  exact ⟨fun h => ⟨congrArg (Res.finishDec s) (Dec.fillWord_of_le h _ _ _),
      congrArg (Res.finishDec s) (Dec.fillWord_of_le h _ _ _)⟩,
    fun _ h => hraw (ps := [_]) _ h, fun _ _ h => hraw (ps := [_, _]) _ h, fun _ _ _ h => hraw (ps := [_, _, _]) _ h,
    fun _ _ _ _ h => hraw (ps := [_, _, _, _]) _ h⟩

/-- A code word is as long as its row says (R78, R118). -/
theorem length_of_decodeWord {n : Nat} {s r : Bits} {i : Instr} (h : decodeWord n s = .ok (i, r)) :
    1 ≤ wordLength i ∧ s.length = wordLength i + r.length := by
  obtain ⟨h1, h4, ⟨rfl, hs⟩ | ⟨rfl, hs⟩ | ⟨ps, rfl, hi, hs⟩⟩ := decodeWord_eq_ok h
  · simp only [hs, List.length_cons, wordLength]
    omega
  · simp only [hs, List.length_cons, wordLength]
    omega
  · obtain ⟨j, hj, _, _, _, hlength⟩ := mixedWord_some h1 h4
    obtain rfl : i = j := Option.some.inj (hi.symm.trans hj)
    have hbits : (ps.flatMap bits8).length = 8 * ps.length := by simp [List.length_flatMap, Nat.mul_comm]
    simp only [hs, List.length_cons, List.length_append, hbits, hlength]
    omega

/-- A code word that stands at POS lies within the input. -/
theorem Dec.pos_add_wordLength_le {d : Dec} {n : Nat} {i : Instr} {r : Bits} (h : decodeWord n d.rest = .ok (i, r)) :
    d.pos + wordLength i ≤ 8 * d.input.length := by
  obtain ⟨hpos, hlen⟩ := length_of_decodeWord h
  have hrest := d.rest_length
  omega

/-- Where a group starts, the code word that stands at POS consumes its bits and gives its pixels (R189, R190). -/
theorem exec_eq_consume {s : State} {i : Instr} {r : Bits} (hx : s.dec.x < dim s.dec.width)
    (h : decodeWord s.dec.groupCount s.dec.rest = .ok (i, r)) :
    exec i s = (s.dec.consume (wordLength i) (wordPixels s.dec.groupCount i)).finishDec s := by
  obtain ⟨h1, h4, ⟨rfl, _⟩ | ⟨rfl, _⟩ | ⟨ps, hlen, hi, _⟩⟩ := decodeWord_eq_ok h
  · exact exec_w hx
  · exact exec_k hx
  · obtain ⟨j, hj, _, _, hpixels, hlength⟩ := mixedWord_some (hlen ▸ h1) (hlen ▸ h4)
    obtain rfl : i = j := Option.some.inj (hi.symm.trans hj)
    rw [hpixels, hlength]
    exact exec_of_mixedWord hi hlen

theorem exec_of_decodeWord {s : State} {i : Instr} {r : Bits} (hx : s.dec.x < dim s.dec.width)
    (h : decodeWord s.dec.groupCount s.dec.rest = .ok (i, r)) :
    exec i s = .next { s with dec := { s.dec.afterWord s.dec.groupCount i with x := s.dec.x + 4 } } := by
  rw [exec_eq_consume hx h, Dec.consume_of_le (Dec.pos_add_wordLength_le h), Res.finishDec_ok]
  rfl

/-- Settles O35: DGRP and the word both leave the decoder after the word; the word also moves x. -/
theorem codeWordIsTheGroupOperation : Obligations.CodeWordIsTheGroupOperation := by
  rintro s n i r hx rfl hword
  obtain ⟨h1, h4, _⟩ := decodeWord_eq_ok hword
  obtain ⟨hgroup, _⟩ := Dec.group_of_word hword
  refine ⟨{ s with dec := s.dec.afterWord s.dec.groupCount i }, ?_, exec_of_decodeWord hx hword⟩
  rw [exec_dgrp h1 h4, hgroup, Res.finishDec_ok]
  rfl

end Sys2Proof.Machine
end

/-! PROOFS. The step: the rows of R161, the decoder's states, the host's moves, reset and STATUS (R30 to R40, R161,
R192). -/
section

namespace Sys2Proof.Machine

/-! The block's rows. -/

theorem runAction_perform (i : Instr) (s : State) : runAction (.perform i s) = exec i s := rfl

theorem runAction_become (s : State) : runAction (.become s) = .next s := rfl

/-- Run the second instruction unless the first ended the call. -/
theorem runAction_performBoth {i j : Instr} {s t : State} (h : exec i s = .next t) :
    runAction (.performBoth i j s) = if t.phase = .error then .next t else exec j t := by
  simp only [runAction, h, State.abandoned, beq_iff_eq]

section Rows

variable {s : State} (hquiet : s.inbox = [])

include hquiet

theorem step_of_busy (hbusy : s.phase.busy = true) : step s = runAction (blockAction s) := by
  rw [step_quiet hquiet, machineAction, if_pos hbusy]

theorem step_of_header (hp : s.phase = .header) : step s = exec .hdr s := by
  rw [step_of_busy hquiet (by rw [hp]; rfl), ← runAction_perform]
  simp only [blockAction, hp]

theorem step_of_classify_lt (hp : s.phase = .classify) (hy : s.y < dim s.height) : step s = exec .cls s := by
  rw [step_of_busy hquiet (by rw [hp]; rfl), ← runAction_perform]
  simp only [blockAction, hp, if_pos hy]

theorem step_of_classify_eq (hp : s.phase = .classify) (hy : s.y = dim s.height) :
    step s = .next { s with kidx := 0, phase := .rowIndex } := by
  rw [step_of_busy hquiet (by rw [hp]; rfl), ← runAction_become]
  simp only [blockAction, hp, hy, lt_self_iff_false, if_false, if_true]

theorem step_of_rowIndex_lt (hp : s.phase = .rowIndex) (hk : s.kidx < ceilDiv8 (dim s.height)) :
    step s = exec .rix s := by
  rw [step_of_busy hquiet (by rw [hp]; rfl), ← runAction_perform]
  simp only [blockAction, hp, if_pos hk]

theorem step_of_rowIndex_eq (hp : s.phase = .rowIndex) (hk : s.kidx = ceilDiv8 (dim s.height)) :
    step s = .next { s with y := 0, x := 0, phase := .payload } := by
  rw [step_of_busy hquiet (by rw [hp]; rfl), ← runAction_become]
  simp only [blockAction, hp, hk, lt_self_iff_false, if_false, if_true]

theorem step_of_payload_eq (hp : s.phase = .payload) (hy : s.y = dim s.height) :
    step s = .next { s with phase := .flush } := by
  rw [step_of_busy hquiet (by rw [hp]; rfl), ← runAction_become]
  simp only [blockAction, hp, if_pos hy]

theorem step_of_absentRow (hp : s.phase = .payload) (hy : s.y < dim s.height) (hrow : rpBit s s.y = false) :
    step s = .next { s with y := s.y + 1 } := by
  rw [step_of_busy hquiet (by rw [hp]; rfl), ← runAction_become]
  simp only [blockAction, hp, if_neg hy.ne, if_neg hy.not_gt, hrow, Bool.not_false, if_true]

theorem step_of_group (hp : s.phase = .payload) (hy : s.y < dim s.height) (hrow : rpBit s s.y = true)
    (hx : s.x < dim s.width) : step s = exec .grp s := by
  rw [step_of_busy hquiet (by rw [hp]; rfl), ← runAction_perform]
  simp only [blockAction, hp, if_neg hy.ne, if_neg hy.not_gt, hrow, Bool.not_true, Bool.false_eq_true, if_false,
    if_pos hx]

theorem step_of_rowEnd (hp : s.phase = .payload) (hy : s.y < dim s.height) (hrow : rpBit s s.y = true)
    (hx : dim s.width ≤ s.x) : step s = .next { s with y := s.y + 1, x := 0 } := by
  rw [step_of_busy hquiet (by rw [hp]; rfl), ← runAction_become]
  simp only [blockAction, hp, if_neg hy.ne, if_neg hy.not_gt, hrow, Bool.not_true, Bool.false_eq_true, if_false,
    if_neg hx.not_gt]

theorem step_of_flush (hp : s.phase = .flush) {t : State} (ht : exec .flush s = .next t) :
    step s = if t.phase = .error then .next t else exec .fin t := by
  rw [step_of_busy hquiet (by rw [hp]; rfl), ← runAction_performBoth ht]
  simp only [blockAction, hp]

end Rows

/-- Settles O36: one lemma for each row. -/
theorem stepFollowsTheTransitionTable : Obligations.StepFollowsTheTransitionTable := fun s hquiet =>
  ⟨step_of_header hquiet, step_of_classify_lt hquiet, step_of_classify_eq hquiet, step_of_rowIndex_lt hquiet,
    step_of_rowIndex_eq hquiet, step_of_payload_eq hquiet, step_of_absentRow hquiet, step_of_group hquiet,
    step_of_rowEnd hquiet, fun hp _ => step_of_flush hquiet hp, fun hp hdec => by
      have hidle : s.phase.busy = false := by rcases hp with hp | hp | hp <;> rw [hp] <;> rfl
      exact step_of_idle hquiet hidle hdec⟩

/-! The decoder's states. -/

section DecoderStates

variable {s : State} (hquiet : s.inbox = []) (hidle : s.phase.busy = false)

include hquiet hidle

theorem step_of_running (hrun : s.dec.phase.running = true) : step s = runAction (decAction s) := by
  rw [step_quiet hquiet, machineAction, if_neg (by simp [hidle]), if_pos hrun]

theorem step_of_readHeader (hp : s.dec.phase = .readHeader) : step s = exec .dhdr s := by
  rw [step_of_running hquiet hidle (by rw [hp]; rfl), ← runAction_perform]
  simp only [decAction, hp]

theorem step_of_readRowIndex (hp : s.dec.phase = .readRowIndex) : step s = exec .drix s := by
  rw [step_of_running hquiet hidle (by rw [hp]; rfl), ← runAction_perform]
  simp only [decAction, hp]

theorem step_of_lastRow (hp : s.dec.phase = .decodeRow) (hy : s.dec.y = dim s.dec.height) :
    step s = .next { s with dec := { s.dec with phase := .done } } := by
  rw [step_of_running hquiet hidle (by rw [hp]; rfl), ← runAction_become]
  simp only [decAction, hp, if_pos hy]

theorem step_of_absent (hp : s.dec.phase = .decodeRow) (hy : s.dec.y < dim s.dec.height)
    (hrow : s.dec.presence s.dec.y = some false) : step s = exec .drow s := by
  rw [step_of_running hquiet hidle (by rw [hp]; rfl), ← runAction_perform]
  simp only [decAction, hp, if_neg hy.ne, if_neg hy.not_gt, hrow]

theorem step_of_present (hp : s.dec.phase = .decodeRow) (hy : s.dec.y < dim s.dec.height)
    (hrow : s.dec.presence s.dec.y = some true) :
    step s = if s.dec.x < dim s.dec.width then runAction (fetchAction s)
      else .next { s with dec := s.dec.nextRow } := by
  rw [step_of_running hquiet hidle (by rw [hp]; rfl)]
  simp only [decAction, hp, if_neg hy.ne, if_neg hy.not_gt, hrow]
  split
  · rfl
  · rfl

theorem step_of_presentEnd (hp : s.dec.phase = .decodeRow) (hy : s.dec.y < dim s.dec.height)
    (hrow : s.dec.presence s.dec.y = some true) (hx : dim s.dec.width ≤ s.dec.x) :
    step s = .next { s with dec := s.dec.nextRow } := by
  rw [step_of_present hquiet hidle hp hy hrow, if_neg hx.not_gt]

theorem step_of_word (hp : s.dec.phase = .decodeRow) (hy : s.dec.y < dim s.dec.height)
    (hrow : s.dec.presence s.dec.y = some true) (hx : s.dec.x < dim s.dec.width) {i : Instr} {r : Bits}
    (hword : decodeWord s.dec.groupCount s.dec.rest = .ok (i, r)) : step s = exec i s := by
  rw [step_of_present hquiet hidle hp hy hrow, if_pos hx, fetchAction, hword, runAction_perform]

theorem step_of_exhausted (hp : s.dec.phase = .decodeRow) (hy : s.dec.y < dim s.dec.height)
    (hrow : s.dec.presence s.dec.y = some true) (hx : s.dec.x < dim s.dec.width)
    (hword : decodeWord s.dec.groupCount s.dec.rest = .error .payloadExhausted) :
    step s = .next { s with dec := s.dec.fail .payloadExhausted } := by
  rw [step_of_present hquiet hidle hp hy hrow, if_pos hx, fetchAction, hword, runAction_become]

end DecoderStates

/-- Settles O37: the action of a present row, with the word fetched. -/
theorem stepRunsTheFetchedCodeWord : Obligations.StepRunsTheFetchedCodeWord :=
  fun _ _ _ hquiet hidle hp hy hrow hx hword => step_of_word hquiet hidle hp hy hrow hx hword

/-- Settles O38: one lemma for each state of the decoder. -/
theorem decoderStepsItsStates : Obligations.DecoderStepsItsStates := fun _ hquiet hidle =>
  ⟨step_of_readHeader hquiet hidle, step_of_readRowIndex hquiet hidle, step_of_absent hquiet hidle,
    step_of_presentEnd hquiet hidle, step_of_exhausted hquiet hidle, step_of_lastRow hquiet hidle⟩

/-! The host's moves. -/

theorem step_of_move {s : State} {m : HostMove} {rest : List HostMove} (h : s.inbox = m :: rest) :
    step s = runAction (hostAction m { s with inbox := rest }) := by
  rw [step, nextAction, h]

theorem pixExists_eq_true {s : State} {a : Nat} (h : ∀ c, s.maxPixels = some c → a < c) : pixExists s a = true := by
  unfold pixExists
  split
  next => rfl
  next m hm => exact decide_eq_true (h m hm)

/-- A byte written to PIX reads back, and every other byte reads as before. -/
theorem pixByte_pokePix (s : State) (a : Nat) (b : Byte) (a' : Nat) :
    pixByte (s.pokePix a b) a' = if a' = a then b else pixByte s a' := by
  by_cases h : a' = a
  · simp only [pixByte, pokePix_pix, Memory.read_write, if_pos h]
  · simp only [pixByte, pokePix_pix, pokePix_pixGen, Memory.read_write, if_neg h]

/-- Settles O39: the move's action, run on the state without the move. -/
theorem hostMovesAreGuarded : Obligations.HostMovesAreGuarded := by
  rintro s _ m rest hinbox rfl
  rw [step_of_move hinbox]
  refine ⟨?_, ?_, ?_, ?_⟩
  · rintro v rfl
    simp only [hostAction]
    split
    · rfl
    · rfl
  · rintro v rfl
    rfl
  · rintro v rfl
    rfl
  · rintro a b rfl hidle hfits
    have hexists : pixExists { s with inbox := rest } a = true := pixExists_eq_true hfits
    refine ⟨State.pokePix a b { s with inbox := rest }, ?_, ?_, fun a' ha' => ?_, rfl⟩
    · simp only [hostAction, hidle, hexists, Bool.false_eq_true, if_false, if_true, runAction_become]
    · rw [pixByte_pokePix, if_pos rfl]
    · rw [pixByte_pokePix, if_neg ha']
      rfl

/-- Settles O40: the step is the reset. -/
theorem hardwareResetAbandonsTheCall : Obligations.HardwareResetAbandonsTheCall := fun s rest hinbox =>
  ⟨State.hardReset { s with inbox := rest }, step_of_move hinbox, rfl, rfl, rfl, rfl, rfl, rfl, rfl, rfl, rfl, rfl, rfl,
    rfl, rfl⟩

/-! STATUS. -/

theorem statusWord_phase (s : State) : (statusWord s).extractLsb' 0 3 = s.phase.code := by
  rw [statusWord, BitVec.extractLsb'_append_eq_right]

theorem statusWord_err (s : State) : (statusWord s).extractLsb' 3 3 = s.err.code := by
  rw [statusWord, BitVec.extractLsb'_append_eq_of_le (by omega), BitVec.extractLsb'_append_eq_right]

theorem statusWord_cause (s : State) : (statusWord s).extractLsb' 6 4 = s.cause.code := by
  rw [statusWord, BitVec.extractLsb'_append_eq_of_le (by omega), BitVec.extractLsb'_append_eq_left]

/-- Settles O41: the tables are evaluated, the fields are the parts of the word. -/
theorem statusHoldsItsFields : Obligations.StatusHoldsItsFields := by
  refine ⟨rfl, rfl, rfl, rfl, fun s =>
    ⟨statusWord s, rfl, statusWord_phase s, statusWord_err s, statusWord_cause s, fun hphase hcause herr => ?_⟩⟩
  rw [statusWord, hphase, hcause, herr]
  rfl

end Sys2Proof.Machine
end

/-! PROOFS. The whole machine: what every instruction leaves alone, and which instructions end a call in Error. -/
section

namespace Sys2Proof.Machine

/-- What no instruction writes: WIDTH, HEIGHT, PIX, the parameters and the host's moves (R21 to R23, R38, R39). -/
def SameInputs (s t : State) : Prop :=
  t.width = s.width ∧ t.height = s.height ∧ t.pix = s.pix ∧ t.pixGen = s.pixGen ∧ t.outCap = s.outCap ∧
    t.maxPixels = s.maxPixels ∧ t.inbox = s.inbox

theorem hdr_frame {s u : State} (h : outAppendAll (encodeHeader s.width s.height) s = .ok u) :
    ({ u with y := 0, phase := .classify } : State) =
      { s with out := u.out, outLen := u.outLen, y := 0, phase := .classify } := by
  obtain ⟨hframe, _⟩ := outAppendAll_frame h
  rw [hframe]

/-- An instruction writes no input, and leaves the decoder or all but the decoder alone. -/
theorem Effect.apart {i : Instr} {s t : State} (h : Effect s i t) :
    SameInputs s t ∧ (t.dec = s.dec ∨ t = { s with dec := t.dec }) := by
  have same : ∀ {u : State}, SameInputs s u → u.dec = s.dec →
      SameInputs s u ∧ (u.dec = s.dec ∨ u = { s with dec := u.dec }) := fun h1 h2 => ⟨h1, .inl h2⟩
  have refl : SameInputs s s := ⟨rfl, rfl, rfl, rfl, rfl, rfl, rfl⟩
  cases h with
  | decoder _ => exact ⟨refl, .inr rfl⟩
  | startIgnored _ => exact same refl rfl
  | startBegins _ | startRaises _ _ | full _ | rix _ | cls _ | clsg | fin => exact same refl rfl
  | hdr h =>
    rw [hdr_frame h]
    exact same refl rfl
  | ldg =>
    rw [loadGroup_frame]
    exact same refl rfl
  | grp h =>
    obtain ⟨hframe, _⟩ := grouped_packerFrame h
    rw [hframe]
    exact same refl rfl
  | packer _ h =>
    obtain ⟨hframe, _⟩ := h
    rw [hframe]
    exact same refl rfl

/-- Settles O42: by what an instruction can do. -/
theorem inputsAreNeverWritten : Obligations.InputsAreNeverWritten := fun _ _ _ h => (exec_effect h).apart.1

/-- Settles O44: by what an instruction can do. -/
theorem blockAndDecoderAreApart : Obligations.BlockAndDecoderAreApart := fun _ _ _ h => (exec_effect h).apart.2

/-! Errors. -/

/-- An instruction that ends a call in Error raises: START for its two causes, else OutputFull. -/
theorem Effect.raises {i : Instr} {s t : State} (h : Effect s i t) (hs : s.phase ≠ .error) (ht : t.phase = .error) :
    ∃ c, t = raise c s ∧ ((i = .start ∧ (c = .negativeDimension ∨ c = .rasterTooLarge)) ∨
      (appends i = true ∧ c = .outputFull)) := by
  cases h with
  | startRaises _ hc => exact ⟨_, rfl, .inl ⟨rfl, hc⟩⟩
  | full hi => exact ⟨_, rfl, .inr ⟨hi, rfl⟩⟩
  | decoder _ | startIgnored _ | rix _ | cls _ | clsg => exact absurd ht hs
  | startBegins _ | hdr _ | fin => exact absurd ht nofun
  | ldg =>
    rw [loadGroup_frame] at ht
    exact absurd ht hs
  | grp h =>
    obtain ⟨hframe, _⟩ := grouped_packerFrame h
    rw [hframe] at ht
    exact absurd ht hs
  | packer _ h => exact absurd (h.phase ▸ ht) hs

theorem appends_iff {i : Instr} : appends i = true ↔
    (i = .hdr ∨ i = .rix ∨ i = .pad ∨ i = .emw ∨ i = .emk ∨ i = .emm ∨ i = .grp ∨ i = .flush ∨
      (∃ v n, i = .put v n) ∨ (∃ b, i = .putbit b)) := by
  cases i <;> simp [appends]

theorem hostReadOut_of_error {s : State} (h : s.phase = .error) (a : Nat) : hostReadOut s a = none :=
  if_neg (by simp [h])

/-- Settles O43: the state is the raised one. -/
theorem errorsDiscardTheCall : Obligations.ErrorsDiscardTheCall := by
  intro i s t h hs ht
  obtain ⟨c, rfl, hcause⟩ := (exec_effect h).raises hs ht
  refine ⟨rfl, rfl, rfl, rfl, rfl, hostReadOut_of_error rfl, ?_⟩
  rw [← appends_iff]
  exact hcause

/-! Within a call. -/

/-- What an instruction other than START that raises nothing does to OUT, VAR and RP (R26, R34, R55). -/
theorem Effect.within_call {i : Instr} {s t : State} (h : Effect s i t) (hi : i ≠ .start) (ht : t.phase ≠ .error) :
    (s.outLen ≤ t.outLen ∧ OutKept s t) ∧ (i ≠ .clsg → i ≠ .grp → t.var = s.var) ∧ (i ≠ .cls → t.rp = s.rp) := by
  have refl : s.outLen ≤ s.outLen ∧ OutKept s s := ⟨le_rfl, OutKept.refl s⟩
  cases h with
  | startIgnored _ | startBegins _ | startRaises _ _ => exact absurd rfl hi
  | full _ => exact absurd rfl ht
  | decoder _ | fin => exact ⟨refl, fun _ _ => rfl, fun _ => rfl⟩
  | cls _ => exact ⟨refl, fun _ _ => rfl, fun h => absurd rfl h⟩
  | clsg => exact ⟨refl, fun h => absurd rfl h, fun _ => rfl⟩
  | rix _ =>
    exact ⟨⟨Nat.le_succ _, outKept_appended { s with rixb := rowIndexByte s } _⟩, fun _ _ => rfl, fun _ => rfl⟩
  | hdr h =>
    obtain ⟨_, hlen, hkept, _⟩ := outAppendAll_frame h
    rw [hdr_frame h]
    exact ⟨⟨hlen, hkept⟩, fun _ _ => rfl, fun _ => rfl⟩
  | ldg =>
    rw [loadGroup_frame]
    exact ⟨refl, fun _ _ => rfl, fun _ => rfl⟩
  | grp h =>
    obtain ⟨hframe, hlen, hkept, _⟩ := grouped_packerFrame h
    exact ⟨⟨hlen, hkept⟩, fun _ h => absurd rfl h, fun _ => by rw [hframe]⟩
  | packer _ h =>
    obtain ⟨hframe, hlen, hkept, _⟩ := h
    exact ⟨⟨hlen, hkept⟩, fun _ _ => by rw [hframe], fun _ => by rw [hframe]⟩

/-- Settles O45: by what an instruction can do within a call. -/
theorem outputIsAppendOnly : Obligations.OutputIsAppendOnly := fun _ _ _ h hi _ ht =>
  ((exec_effect h).within_call hi ht).1

/-- Settles O46: by what an instruction can do within a call. -/
theorem predicatesHaveOneWriter : Obligations.PredicatesHaveOneWriter := fun _ _ _ h hi _ ht =>
  ((exec_effect h).within_call hi ht).2

end Sys2Proof.Machine
end

/-! PROOFS. The invariants of the block: memories, STATUS, packer and OUT, kept by every step (R24 to R37). -/
section

namespace Sys2Proof.Machine

/-! One step of the decoder. -/

/-- A step of the decoder changes the decoder only (R20, R181). -/
theorem runAction_decAction {u t : State} (hrun : u.dec.phase.running = true)
    (h : runAction (decAction u) = .next t) : ∃ d, t = { u with dec := d } := by
  rcases decAction_cases hrun h with ⟨_, h⟩ | ⟨_, h⟩ | ⟨_, _, rfl⟩ | ⟨_, _, _, h⟩ |
    ⟨_, _, _, hx, ⟨i, r, hword, h⟩ | rfl⟩ | ⟨_, _, _, _, rfl⟩
  · obtain ⟨d, rfl, _⟩ := Res.finishDec_eq_next.mp h
    exact ⟨d, rfl⟩
  · obtain ⟨d, rfl, _⟩ := Res.finishDec_eq_next.mp h
    exact ⟨d, rfl⟩
  · exact ⟨_, rfl⟩
  · obtain ⟨d, rfl, _⟩ := Res.finishDec_eq_next.mp h
    exact ⟨d, rfl⟩
  · obtain rfl := Host.Outcome.next.inj ((exec_of_decodeWord hx hword).symm.trans h)
    exact ⟨_, rfl⟩
  · exact ⟨_, rfl⟩
  · exact ⟨_, rfl⟩

/-! The induction over a step, packaged once. -/

/-- `P` is kept by everything a step is made of: the host's moves, the decoder's changes, the instructions (run by a
busy block, or START), and the rows of R161 that perform none. -/
structure KeptByParts (P : State → Prop) : Prop where
  inbox : ∀ s l, P s → P { s with inbox := l }
  dec : ∀ s d, P s → P { s with dec := d }
  width : ∀ s v, P s → P { s with width := v }
  height : ∀ s v, P s → P { s with height := v }
  poke : ∀ s a b, P s → P (State.pokePix a b s)
  reset : ∀ s, P s → P s.hardReset
  effect : ∀ s i t, s.phase.busy = true ∨ i = .start → Effect s i t → P s → P t
  row : ∀ s y x kidx p, s.phase.busy = true → p.busy = true → P s →
    P { s with y := y, x := x, kidx := kidx, phase := p }

/-- What is kept by the parts of a step is kept by a row of the transition table. -/
theorem KeptByParts.blockAction {P : State → Prop} (hP : KeptByParts P) {s t : State} (hbusy : s.phase.busy = true)
    (h : runAction (blockAction s) = .next t) (hs : P s) : P t := by
  have heffect : ∀ {i}, exec i s = .next t → P t := fun h => hP.effect _ _ _ (.inl hbusy) (exec_effect h) hs
  rcases blockAction_cases hbusy h with ⟨_, h⟩ | ⟨_, _, h⟩ | ⟨_, _, rfl⟩ | ⟨_, _, h⟩ | ⟨_, _, rfl⟩ | ⟨_, _, rfl⟩ |
    ⟨hp, _, _, rfl⟩ | ⟨_, _, _, _, h⟩ | ⟨hp, _, _, _, rfl⟩ | ⟨_, rfl | ⟨v, hv, rfl⟩⟩
  · exact heffect h
  · exact heffect h
  · exact hP.row s _ _ _ _ hbusy rfl hs
  · exact heffect h
  · exact hP.row s _ _ _ _ hbusy rfl hs
  · exact hP.row s _ _ _ _ hbusy rfl hs
  · exact hP.row s _ _ _ s.phase hbusy hbusy hs
  · exact heffect h
  · exact hP.row s _ _ _ s.phase hbusy hbusy hs
  · exact hP.effect s .flush _ (.inl hbusy) (.full rfl) hs
  · have hflushed : P v := hP.effect s .flush v (.inl hbusy) (.packer rfl hv) hs
    exact hP.effect v .fin _ (.inl (hv.phase ▸ hbusy)) .fin hflushed

/-- What is kept by the parts of a step is kept by every step. -/
theorem KeptByParts.step {P : State → Prop} (hP : KeptByParts P) {s t : State} (h : step s = .next t) (hs : P s) :
    P t := by
  obtain ⟨u, rfl, h⟩ := step_cases h
  have hu := hP.inbox s s.inbox.tail hs
  rcases h with rfl | h | ⟨_, v, rfl⟩ | ⟨_, v, rfl⟩ | ⟨a, b, rfl⟩ | rfl | ⟨bs, rfl⟩ | ⟨hbusy, h⟩ | ⟨_, hrun, h⟩
  · exact hu
  · exact hP.effect _ _ _ (.inr rfl) (exec_effect h) hu
  · exact hP.width _ _ hu
  · exact hP.height _ _ hu
  · exact hP.poke _ _ _ hu
  · exact hP.reset _ hu
  · exact hP.dec _ _ hu
  · exact hP.blockAction hbusy h hu
  · obtain ⟨d, rfl⟩ := runAction_decAction hrun h
    exact hP.dec _ _ hu

/-! Canonical memory. -/

theorem memoryCanonical_effect {i : Instr} {s t : State} (h : Effect s i t) (hs : s.memoryCanonical) :
    t.memoryCanonical := by
  obtain ⟨hpix, hrp, hout⟩ := hs
  cases h with
  | decoder _ | startIgnored _ | clsg | fin => exact ⟨hpix, hrp, hout⟩
  | startBegins _ | startRaises _ _ | full _ => exact ⟨hpix, Memory.wf_nil, Memory.wf_nil⟩
  | rix _ => exact ⟨hpix, hrp, Memory.wf_write _ _ hout⟩
  | cls _ => exact ⟨hpix, Memory.wf_write _ _ hrp, hout⟩
  | hdr h =>
    obtain ⟨_, _, _, _, hwf, _⟩ := outAppendAll_frame h
    rw [hdr_frame h]
    exact ⟨hpix, hrp, hwf hout⟩
  | ldg =>
    rw [loadGroup_frame]
    exact ⟨hpix, hrp, hout⟩
  | grp h =>
    obtain ⟨hframe, _, _, _, hwf, _⟩ := grouped_packerFrame h
    rw [hframe]
    exact ⟨hpix, hrp, hwf hout⟩
  | packer _ h =>
    obtain ⟨hframe, _, _, _, hwf, _⟩ := h
    rw [hframe]
    exact ⟨hpix, hrp, hwf hout⟩

theorem memoryCanonical_kept : KeptByParts State.memoryCanonical where
  inbox _ _ h := h
  dec _ _ h := h
  width _ _ h := h
  height _ _ h := h
  poke _ _ _ := fun ⟨hpix, hrp, hout⟩ => ⟨Memory.wf_write _ _ hpix, hrp, hout⟩
  reset _ _ := ⟨Memory.wf_nil, Memory.wf_nil, Memory.wf_nil⟩
  effect _ _ _ _ := memoryCanonical_effect
  row _ _ _ _ _ _ _ h := h

/-- Settles O47: a write keeps the canonical form, and nothing else touches a memory but to empty it. -/
theorem memoryStaysCanonical : Obligations.MemoryStaysCanonical := fun _ _ hs h => memoryCanonical_kept.step h hs

/-! STATUS. -/

theorem Phase.ne_error_of_busy {p : Phase} (h : p.busy = true) : p ≠ .error := by
  rintro rfl
  cases h

theorem statusConsistent_raise (c : Cause) (hc : c ≠ .noCause) (s : State) : (raise c s).statusConsistent := by
  refine ⟨⟨fun _ => rfl, fun _ => ?_⟩, rfl⟩
  cases c with
  | noCause => exact absurd rfl hc
  | _ => nofun

/-- Outside Error, STATUS stays consistent where ERR and CAUSE are unchanged and Error is not entered. -/
theorem statusConsistent_of_same {s t : State} (hs : s.statusConsistent) (hps : s.phase ≠ .error) (herr : t.err = s.err)
    (hcause : t.cause = s.cause) (hpt : t.phase ≠ .error) : t.statusConsistent := by
  obtain ⟨hiff, hkind⟩ := hs
  have hnone : ¬ s.err ≠ .none := fun h => hps (hiff.mp h)
  simp only [State.statusConsistent, herr, hcause]
  exact ⟨iff_of_false hnone hpt, hkind⟩

theorem statusConsistent_effect {i : Instr} {s t : State} (hrun : s.phase.busy = true ∨ i = .start)
    (h : Effect s i t) (hs : s.statusConsistent) : t.statusConsistent := by
  have hp : ∀ {j}, i = j → j ≠ .start → s.phase ≠ .error := fun hij hj =>
    Phase.ne_error_of_busy (hrun.resolve_right fun hi => hj (hij.symm.trans hi))
  cases h with
  | decoder _ | startIgnored _ | clsg => exact hs
  | startBegins _ => exact ⟨iff_of_false (fun h => h rfl) nofun, rfl⟩
  | startRaises _ hc =>
    rcases hc with rfl | rfl
    · exact statusConsistent_raise .negativeDimension nofun s
    · exact statusConsistent_raise .rasterTooLarge nofun s
  | full _ => exact statusConsistent_raise .outputFull nofun s
  | rix _ | cls _ => exact hs
  | fin => exact statusConsistent_of_same hs (hp rfl nofun) rfl rfl nofun
  | hdr h =>
    rw [hdr_frame h]
    exact statusConsistent_of_same hs (hp rfl nofun) rfl rfl nofun
  | ldg =>
    rw [loadGroup_frame]
    exact hs
  | grp h =>
    obtain ⟨hframe, _⟩ := grouped_packerFrame h
    rw [hframe]
    exact hs
  | packer _ h =>
    obtain ⟨hframe, _⟩ := h
    rw [hframe]
    exact hs

theorem statusConsistent_kept : KeptByParts State.statusConsistent where
  inbox _ _ h := h
  dec _ _ h := h
  width _ _ h := h
  height _ _ h := h
  poke _ _ _ h := h
  reset _ _ := ⟨iff_of_false (fun h => h rfl) nofun, rfl⟩
  effect _ _ _ := statusConsistent_effect
  row _ _ _ _ _ hbusy hp h :=
    statusConsistent_of_same h (Phase.ne_error_of_busy hbusy) rfl rfl (Phase.ne_error_of_busy hp)

/-- Settles O48: Error is entered by `raise` only, and left by START and reset only. -/
theorem statusStaysConsistent : Obligations.StatusStaysConsistent := fun _ _ hs h => statusConsistent_kept.step h hs

/-! The packer. -/

/-- R37 outside Error, where ACC and NBITS are unspecified. -/
def State.packerInOrder (s : State) : Prop := s.phase ≠ .error → s.packerClean

theorem packerInOrder_effect {i : Instr} {s t : State} (hrun : s.phase.busy = true ∨ i = .start)
    (h : Effect s i t) (hs : s.packerInOrder) : t.packerInOrder := by
  have hclean : ∀ {j}, i = j → j ≠ .start → s.packerClean := fun hij hj =>
    hs (Phase.ne_error_of_busy (hrun.resolve_right fun hi => hj (hij.symm.trans hi)))
  cases h with
  | decoder _ | startIgnored _ | clsg | rix _ | cls _ => exact hs
  | startBegins _ => exact fun _ => packerClean_of_zero rfl
  | startRaises _ _ | full _ => exact fun h => absurd rfl h
  | fin => exact fun _ => hclean rfl nofun
  | hdr h =>
    rw [hdr_frame h]
    exact fun _ => hclean rfl nofun
  | ldg =>
    rw [loadGroup_frame]
    exact hs
  | grp h =>
    obtain ⟨_, _, _, _, _, hkeeps, _⟩ := grouped_packerFrame h
    exact fun _ => hkeeps (hclean rfl nofun)
  | packer _ h =>
    obtain ⟨_, _, _, _, _, hkeeps, _⟩ := id h
    exact fun hp => hkeeps (hs (h.phase ▸ hp))

theorem packerInOrder_kept : KeptByParts State.packerInOrder where
  inbox _ _ h := h
  dec _ _ h := h
  width _ _ h := h
  height _ _ h := h
  poke _ _ _ h := h
  reset _ _ := fun _ => packerClean_of_zero rfl
  effect _ _ _ := packerInOrder_effect
  row _ _ _ _ _ hbusy _ h := fun _ => h (Phase.ne_error_of_busy hbusy)

/-- Settles O49: the packer's operations keep it clean, and START and reset empty it. -/
theorem packerStaysClean : Obligations.PackerStaysClean := fun _ _ hs h => packerInOrder_kept.step h hs

/-! OUT. -/

theorem outDense_of_empty {s : State} (hout : s.out = []) (hlen : s.outLen = 0) : s.outDense := by
  rw [State.outDense, hout, hlen]
  rfl

theorem outWithinCap_of_empty {s : State} (hlen : s.outLen = 0) : s.outWithinCap := by
  intro cap _
  rw [hlen]
  exact Nat.zero_le cap

/-- What an instruction does to OUT keeps it dense, and keeps OUT_LEN within OUT_CAP. -/
theorem Effect.keepsOut {i : Instr} {s t : State} (h : Effect s i t) :
    (s.outDense → t.outDense) ∧ (s.outWithinCap → t.outWithinCap) := by
  cases h with
  | decoder _ | startIgnored _ | clsg | cls _ | fin => exact ⟨id, id⟩
  | startBegins _ | startRaises _ _ | full _ =>
    exact ⟨fun _ => outDense_of_empty rfl rfl, fun _ => outWithinCap_of_empty rfl⟩
  | rix h => exact ⟨fun hs => outDense_appended (s := { s with rixb := rowIndexByte s }) hs _, fun _ => h⟩
  | hdr h =>
    obtain ⟨_, _, _, hdense, _, hcap⟩ := outAppendAll_frame h
    exact ⟨hdense, hcap⟩
  | ldg =>
    rw [loadGroup_frame]
    exact ⟨id, id⟩
  | grp h =>
    obtain ⟨_, _, _, hdense, _, _, hcap⟩ := grouped_packerFrame h
    exact ⟨hdense, hcap⟩
  | packer _ h =>
    obtain ⟨_, _, _, hdense, _, _, hcap⟩ := h
    exact ⟨hdense, hcap⟩

theorem outDense_kept : KeptByParts State.outDense where
  inbox _ _ h := h
  dec _ _ h := h
  width _ _ h := h
  height _ _ h := h
  poke _ _ _ h := h
  reset _ _ := outDense_of_empty rfl rfl
  effect _ _ _ _ h := h.keepsOut.1
  row _ _ _ _ _ _ _ h := h

theorem outWithinCap_kept : KeptByParts State.outWithinCap where
  inbox _ _ h := h
  dec _ _ h := h
  width _ _ h := h
  height _ _ h := h
  poke _ _ _ h := h
  reset _ _ := outWithinCap_of_empty rfl
  effect _ _ _ _ h := h.keepsOut.2
  row _ _ _ _ _ _ _ h := h

/-- Settles O50: an append keeps OUT dense and within OUT_CAP, and nothing else touches OUT but to empty it. -/
theorem outputStaysDense : Obligations.OutputStaysDense := fun _ _ hdense hcap h =>
  ⟨outDense_kept.step h hdense, outWithinCap_kept.step h hcap⟩

end Sys2Proof.Machine
end

/-! PROOFS. The counters: their ranges, and a busy block always takes a step (R27 to R29, R161, R162). -/
section

namespace Sys2Proof.Machine

/-! How the rows of the table move the counters. -/

/-- PHASE, Y, X and KIDX after a row of R161, under the row's condition; where the call ends the counters are open. -/
inductive CounterMove (s : State) : Phase → Nat → Nat → Nat → Prop
  | ended {p y x kidx} (hp : p = .done ∨ p = .error) : CounterMove s p y x kidx
  | header (hp : s.phase = .header) : CounterMove s .classify 0 s.x s.kidx
  | classify (hp : s.phase = .classify) (hy : s.y < dim s.height) : CounterMove s .classify (s.y + 1) s.x s.kidx
  | classified (hp : s.phase = .classify) (hy : s.y = dim s.height) : CounterMove s .rowIndex s.y s.x 0
  | rowIndex (hp : s.phase = .rowIndex) (hk : s.kidx < ceilDiv8 (dim s.height)) :
      CounterMove s .rowIndex s.y s.x (s.kidx + 1)
  | indexed (hp : s.phase = .rowIndex) (hk : s.kidx = ceilDiv8 (dim s.height)) : CounterMove s .payload 0 0 s.kidx
  | absent (hp : s.phase = .payload) (hy : s.y < dim s.height) : CounterMove s .payload (s.y + 1) s.x s.kidx
  | group (hp : s.phase = .payload) (hy : s.y < dim s.height) (hx : s.x < dim s.width) :
      CounterMove s .payload s.y (s.x + 4) s.kidx
  | rowEnd (hp : s.phase = .payload) (hy : s.y < dim s.height) (hx : dim s.width ≤ s.x) :
      CounterMove s .payload (s.y + 1) 0 s.kidx
  | encoded (hp : s.phase = .payload) (hy : s.y = dim s.height) : CounterMove s .flush s.y s.x s.kidx

theorem Effect.counterMove_hdr {s t : State} (h : Effect s .hdr t) (hp : s.phase = .header) :
    CounterMove s t.phase t.y t.x t.kidx := by
  cases h with
  | decoder hi | packer hi _ => cases hi
  | full _ => exact .ended (.inr rfl)
  | hdr h =>
    rw [hdr_frame h]
    exact .header hp

theorem Effect.counterMove_cls {s t : State} (h : Effect s .cls t) (hp : s.phase = .classify) :
    CounterMove s t.phase t.y t.x t.kidx := by
  cases h with
  | decoder hi | packer hi _ | full hi => cases hi
  | cls hy =>
    simp only [hp]
    exact .classify hp hy

theorem Effect.counterMove_rix {s t : State} (h : Effect s .rix t) (hp : s.phase = .rowIndex)
    (hk : s.kidx < ceilDiv8 (dim s.height)) : CounterMove s t.phase t.y t.x t.kidx := by
  cases h with
  | decoder hi | packer hi _ => cases hi
  | full _ => exact .ended (.inr rfl)
  | rix _ =>
    have hphase : s.rowIndexed.phase = .rowIndex := hp
    rw [hphase]
    exact .rowIndex hp hk

theorem Effect.counterMove_grp {s t : State} (h : Effect s .grp t) (hp : s.phase = .payload)
    (hy : s.y < dim s.height) (hx : s.x < dim s.width) : CounterMove s t.phase t.y t.x t.kidx := by
  cases h with
  | decoder hi | packer hi _ => cases hi
  | full _ => exact .ended (.inr rfl)
  | grp h =>
    obtain ⟨hframe, _⟩ := grouped_packerFrame h
    rw [hframe]
    simp only [hp]
    exact .group hp hy hx

/-- A row of R161 moves the counters as `CounterMove` says and leaves the inputs alone. -/
theorem counterMove_of_blockAction {s t : State} (hbusy : s.phase.busy = true)
    (h : runAction (blockAction s) = .next t) : CounterMove s t.phase t.y t.x t.kidx ∧ SameInputs s t := by
  have same : SameInputs s s := ⟨rfl, rfl, rfl, rfl, rfl, rfl, rfl⟩
  rcases blockAction_cases hbusy h with ⟨hp, h⟩ | ⟨hp, _, h⟩ | ⟨hp, hy, rfl⟩ | ⟨hp, hk, h⟩ | ⟨hp, hk, rfl⟩ |
    ⟨hp, hy, rfl⟩ | ⟨hp, hy, _, rfl⟩ | ⟨hp, hy, _, hx, h⟩ | ⟨hp, hy, _, hx, rfl⟩ | ⟨_, rfl | ⟨v, hv, rfl⟩⟩
  · exact ⟨(exec_effect h).counterMove_hdr hp, (exec_effect h).apart.1⟩
  · exact ⟨(exec_effect h).counterMove_cls hp, (exec_effect h).apart.1⟩
  · exact ⟨.classified hp hy, same⟩
  · exact ⟨(exec_effect h).counterMove_rix hp hk, (exec_effect h).apart.1⟩
  · exact ⟨.indexed hp hk, same⟩
  · exact ⟨.encoded hp hy, same⟩
  · exact ⟨hp ▸ .absent hp hy, same⟩
  · exact ⟨(exec_effect h).counterMove_grp hp hy hx, (exec_effect h).apart.1⟩
  · exact ⟨hp ▸ .rowEnd hp hy hx, same⟩
  · exact ⟨.ended (.inr rfl), same⟩
  · obtain ⟨hframe, _⟩ := hv
    exact ⟨.ended (.inl rfl), by rw [hframe]; exact same⟩

/-! The ranges. -/

/-- `P` speaks of the counters of a busy block, holds where a call begins, and is kept by every row of R161. -/
structure KeptByRows (P : State → Prop) : Prop where
  congr : ∀ s t, t.phase = s.phase → t.y = s.y → t.x = s.x → t.kidx = s.kidx → t.width = s.width →
    t.height = s.height → P s → P t
  idle : ∀ s, s.phase.busy = false → P s
  begun : ∀ s, s.phase = .header → s.y = 0 → s.x = 0 → s.kidx = 0 → P s
  move : ∀ s t, CounterMove s t.phase t.y t.x t.kidx → t.width = s.width → t.height = s.height →
    s.phase.busy = true → P s → P t

theorem KeptByRows.start {P : State → Prop} (hP : KeptByRows P) {s t : State} (h : Effect s .start t) (hs : P s) :
    P t := by
  cases h with
  | decoder hi | packer hi _ | full hi => cases hi
  | startIgnored _ => exact hs
  | startBegins _ => exact hP.begun _ rfl rfl rfl rfl
  | startRaises _ _ => exact hP.idle _ rfl

/-- What is kept by the rows of R161 is kept by every step: only a call that is not running is reset or resized. -/
theorem KeptByRows.step {P : State → Prop} (hP : KeptByRows P) {s t : State} (h : step s = .next t) (hs : P s) :
    P t := by
  obtain ⟨u, hinbox, h⟩ := step_cases h
  have hu : P u := hinbox ▸ hP.congr s _ rfl rfl rfl rfl rfl rfl hs
  rcases h with rfl | h | ⟨hidle, v, rfl⟩ | ⟨hidle, v, rfl⟩ | ⟨a, b, rfl⟩ | rfl | ⟨bs, rfl⟩ | ⟨hbusy, h⟩ | ⟨_, hrun, h⟩
  · exact hu
  · exact hP.start (exec_effect h) hu
  · exact hP.idle _ hidle
  · exact hP.idle _ hidle
  · exact hP.congr u _ rfl rfl rfl rfl rfl rfl hu
  · exact hP.idle _ rfl
  · exact hP.congr u _ rfl rfl rfl rfl rfl rfl hu
  · obtain ⟨hmove, hw, hh, _⟩ := counterMove_of_blockAction hbusy h
    exact hP.move _ _ hmove hw hh hbusy hu
  · obtain ⟨d, rfl⟩ := runAction_decAction hrun h
    exact hP.congr u _ rfl rfl rfl rfl rfl rfl hu

theorem countersInRange_move {s t : State} (hmove : CounterMove s t.phase t.y t.x t.kidx) (hw : t.width = s.width)
    (hh : t.height = s.height) (hbusy : s.phase.busy = true) (hs : s.countersInRange) : t.countersInRange := by
  obtain ⟨hy, hk, hx, hx4⟩ := hs hbusy
  unfold State.countersInRange
  rw [hw, hh]
  generalize t.phase = p, t.y = y, t.x = x, t.kidx = k at hmove
  cases hmove with
  | ended hp => rcases hp with rfl | rfl <;> exact nofun
  | header _ => exact fun _ => ⟨Nat.zero_le _, hk, hx, hx4⟩
  | classify _ hlt | absent _ hlt => exact fun _ => ⟨hlt, hk, hx, hx4⟩
  | classified _ _ => exact fun _ => ⟨hy, Nat.zero_le _, hx, hx4⟩
  | rowIndex _ hlt => exact fun _ => ⟨hy, hlt, hx, hx4⟩
  | indexed _ _ => exact fun _ => ⟨Nat.zero_le _, hk, Nat.zero_le _, rfl⟩
  | group _ _ hlt => exact fun _ => ⟨hy, hk, by omega, by omega⟩
  | rowEnd _ hlt _ => exact fun _ => ⟨hlt, hk, Nat.zero_le _, rfl⟩
  | encoded _ _ => exact fun _ => ⟨hy, hk, hx, hx4⟩

theorem countersInRange_kept : KeptByRows State.countersInRange where
  congr _ _ hp hy hx hk hw hh h := by
    simpa only [State.countersInRange, hp, hy, hx, hk, hw, hh] using h
  idle _ hidle hbusy := absurd (hidle.symm.trans hbusy) nofun
  begun _ _ hy hx hk := by
    simp [State.countersInRange, hy, hx, hk]
  move _ _ := countersInRange_move

theorem countersFitTable_move {s t : State} (hmove : CounterMove s t.phase t.y t.x t.kidx) (hw : t.width = s.width)
    (hh : t.height = s.height) (hs : s.countersFitTable) : t.countersFitTable := by
  obtain ⟨_, _, hpayload⟩ := hs
  unfold State.countersFitTable
  rw [hw, hh]
  generalize t.phase = p, t.y = y, t.x = x, t.kidx = k at hmove
  cases hmove with
  | ended hp => rcases hp with rfl | rfl <;> exact ⟨nofun, nofun, nofun⟩
  | header _ => exact ⟨fun _ => Nat.zero_le _, nofun, nofun⟩
  | classify _ hlt => exact ⟨fun _ => hlt, nofun, nofun⟩
  | classified _ _ => exact ⟨nofun, fun _ => Nat.zero_le _, nofun⟩
  | rowIndex _ hlt => exact ⟨nofun, fun _ => hlt, nofun⟩
  | indexed _ _ => exact ⟨nofun, nofun, fun _ => ⟨Nat.zero_le _, Nat.zero_le _, rfl⟩⟩
  | absent hp hlt =>
    obtain ⟨_, hx, hx4⟩ := hpayload hp
    exact ⟨nofun, nofun, fun _ => ⟨hlt, hx, hx4⟩⟩
  | group hp _ hlt =>
    obtain ⟨hy, hx, hx4⟩ := hpayload hp
    exact ⟨nofun, nofun, fun _ => ⟨hy, by omega, by omega⟩⟩
  | rowEnd _ hlt _ => exact ⟨nofun, nofun, fun _ => ⟨hlt, Nat.zero_le _, rfl⟩⟩
  | encoded _ _ => exact ⟨nofun, nofun, nofun⟩

theorem countersFitTable_kept : KeptByRows State.countersFitTable where
  congr _ _ hp hy hx hk hw hh h := by
    simpa only [State.countersFitTable, hp, hy, hx, hk, hw, hh] using h
  idle s hidle := by
    have hne : ∀ {p : Phase}, p.busy = true → s.phase ≠ p := fun hp h => by
      rw [h, hp] at hidle
      cases hidle
    exact ⟨fun h => absurd h (hne rfl), fun h => absurd h (hne rfl), fun h => absurd h (hne rfl)⟩
  begun _ hp _ _ _ := by
    simp [State.countersFitTable, hp]
  move _ _ hmove hw hh _ := countersFitTable_move hmove hw hh

/-- Settles O51: each row keeps either form of the ranges. -/
theorem countersStayInRange : Obligations.CountersStayInRange := fun _ _ h =>
  ⟨countersInRange_kept.step h, countersFitTable_kept.step h⟩

/-! A busy block always takes a step. -/

/-- An operation within OUT_CAP goes on within OUT_CAP or raises OutputFull: it never faults and is never refused. -/
def Completes (m : Res State) : Prop := (∃ t, m = .ok t ∧ t.outWithinCap) ∨ m = .raised .outputFull

theorem Completes.bind {m : Res State} {f : State → Res State} (hm : Completes m)
    (hf : ∀ t, t.outWithinCap → Completes (f t)) : Completes (m.bind f) := by
  rcases hm with ⟨t, rfl, ht⟩ | rfl
  · exact hf t ht
  · exact .inr rfl

theorem Completes.bind_ok {m : Res State} {f : State → State} (hm : Completes m)
    (hf : ∀ t, t.outWithinCap → (f t).outWithinCap) : Completes (m.bind fun t => .ok (f t)) :=
  hm.bind fun t ht => .inl ⟨f t, rfl, hf t ht⟩

theorem Completes.finish {m : Res State} (h : Completes m) (s : State) : ∃ t, m.finish s = .next t := by
  rcases h with ⟨t, rfl, _⟩ | rfl
  · exact ⟨t, rfl⟩
  · exact ⟨_, rfl⟩

theorem outAppend_completes (v : Byte) {s : State} (h : s.outWithinCap) : Completes (outAppend v s) := by
  rcases outAppend_cases v s with ⟨_, he⟩ | ⟨hroom, he⟩ | ⟨hbeyond, _⟩
  · exact .inr he
  · exact .inl ⟨_, he, hroom⟩
  · exact absurd h hbeyond

theorem outAppendAll_completes (vs : List Byte) {s : State} (h : s.outWithinCap) : Completes (outAppendAll vs s) := by
  induction vs generalizing s with
  | nil => exact .inl ⟨s, rfl, h⟩
  | cons v vs ih => exact (outAppend_completes v h).bind fun _ => ih

theorem putBit_completes (b : Bool) {s : State} (h : s.outWithinCap) : Completes (putBit b s) := by
  by_cases h7 : s.nbits = 7
  · rw [putBit_of_eq h7]
    exact (outAppend_completes _ h).bind_ok fun _ ht => ht
  · exact .inl ⟨_, putBit_of_lt h7 b, h⟩

theorem putBits_completes (bs : Bits) {s : State} (h : s.outWithinCap) : Completes (putBits bs s) := by
  induction bs generalizing s with
  | nil => exact .inl ⟨s, rfl, h⟩
  | cons b bs ih => exact (putBit_completes b h).bind fun _ => ih

theorem flushPacker_completes {s : State} (h : s.outWithinCap) : Completes (flushPacker s) := by
  rcases flushPacker_cases s with ⟨_, he⟩ | ⟨_, he⟩
  · exact .inl ⟨s, he, h⟩
  · rw [he]
    exact (outAppend_completes _ h).bind_ok fun _ ht => ht

theorem emitRowIndex_completes {s : State} (h : s.outWithinCap) : Completes (emitRowIndex s) :=
  (outAppend_completes _ (s := { s with rixb := rowIndexByte s }) h).bind_ok fun _ ht => ht

theorem exec_grp_completes {s : State} (hy : s.y < dim s.height) (hx : s.x < dim s.width) (h : s.outWithinCap) :
    ∃ t, exec .grp s = .next t := by
  rw [exec_grp hy hx]
  refine Completes.finish (.bind_ok (putBits_completes _ (grouped_room h)) ?_) s
  exact fun _ ht => ht

/-- FLUSH and FIN, the row of phase Flush, give a next state when FLUSH does. -/
theorem step_of_flush_completes {s : State} (hquiet : s.inbox = []) (hp : s.phase = .flush) (h : s.outWithinCap) :
    ∃ t, step s = .next t := by
  obtain ⟨t, ht⟩ := (flushPacker_completes h).finish s
  rw [step_of_flush hquiet hp ht]
  split
  · exact ⟨t, rfl⟩
  · exact ⟨_, exec_fin t⟩

/-- Settles O54: each row's condition is met by some counters, and each row's operation completes. -/
theorem busyBlockIsNeverStuck : Obligations.BusyBlockIsNeverStuck := by
  intro s hbusy hquiet ⟨hclassify, hrowIndex, hpayload⟩ hcap
  cases hp : s.phase with
  | idle | done | error => cases hp ▸ hbusy
  | header =>
    rw [step_of_header hquiet hp, exec_hdr]
    refine Completes.finish (.bind_ok (outAppendAll_completes _ hcap) ?_) s
    exact fun _ ht => ht
  | classify =>
    rcases (hclassify hp).lt_or_eq with hy | hy
    · exact ⟨_, (step_of_classify_lt hquiet hp hy).trans (exec_cls hy)⟩
    · exact ⟨_, step_of_classify_eq hquiet hp hy⟩
  | rowIndex =>
    rcases (hrowIndex hp).lt_or_eq with hk | hk
    · rw [step_of_rowIndex_lt hquiet hp hk]
      exact (emitRowIndex_completes hcap).finish s
    · exact ⟨_, step_of_rowIndex_eq hquiet hp hk⟩
  | payload =>
    obtain ⟨hle, _, _⟩ := hpayload hp
    rcases hle.lt_or_eq with hy | hy
    · cases hrow : rpBit s s.y with
      | false => exact ⟨_, step_of_absentRow hquiet hp hy hrow⟩
      | true =>
        rcases lt_or_ge s.x (dim s.width) with hx | hx
        · rw [step_of_group hquiet hp hy hrow hx]
          exact exec_grp_completes hy hx hcap
        · exact ⟨_, step_of_rowEnd hquiet hp hy hrow hx⟩
    · exact ⟨_, step_of_payload_eq hquiet hp hy⟩
  | flush => exact step_of_flush_completes hquiet hp hcap

end Sys2Proof.Machine
end

/-! PROOFS. Runs, and the bound of R162: every row of the table lowers the number of rows still to come. -/
section

namespace Sys2Proof.Machine

/-! Runs. -/

theorem run_zero (s : State) : Sys2Proof.core.run 0 s = .next s := rfl

theorem run_succ {s t : State} (h : step s = .next t) (k : Nat) :
    Sys2Proof.core.run (k + 1) s = Sys2Proof.core.run k t := by
  have hstep : Sys2Proof.core.step s = .next t := h
  simp only [Host.Core.run, hstep]

/-! The rows still to come. -/

/-- The number of rows of R161 still to be taken from a phase with the counters Y, X, KIDX, at most. -/
def rowsLeft (w h : Nat) : Phase → Nat → Nat → Nat → Nat
  | .header, _, _, _ => callBound w h
  | .classify, y, _, _ => (h + 1 - y) + (ceilDiv8 h + 1) + (h * ((w + 3) / 4 + 1) + 1) + 1
  | .rowIndex, _, _, kidx => (ceilDiv8 h + 1 - kidx) + (h * ((w + 3) / 4 + 1) + 1) + 1
  | .payload, y, x, _ => ((h - y) * ((w + 3) / 4 + 1) - x / 4) + 2
  | .flush, _, _, _ => 1
  | .idle, _, _, _ | .done, _, _, _ | .error, _, _, _ => 0

/-- The rows still to come in a state. -/
def State.rowsLeft (s : State) : Nat := Machine.rowsLeft (dim s.width) (dim s.height) s.phase s.y s.x s.kidx

theorem rowsLeft_pos {p : Phase} (hp : p.busy = true) (w h y x kidx : Nat) : 0 < rowsLeft w h p y x kidx := by
  cases p with
  | idle | done | error => cases hp
  | _ => simp [rowsLeft, callBound]

/-- With `d + 1` rows of the raster left, one row less leaves `(w + 3) / 4 + 1` rows of the table less. -/
theorem rows_mul (d g : Nat) : (d + 1) * (g + 1) = d * (g + 1) + g + 1 := by ring

/-- Every row of R161 lowers the number of rows still to come. -/
theorem rowsLeft_lt {s : State} {p : Phase} {y x kidx : Nat} (hmove : CounterMove s p y x kidx)
    (hbusy : s.phase.busy = true) (hfit : s.countersFitTable) :
    rowsLeft (dim s.width) (dim s.height) p y x kidx < s.rowsLeft := by
  obtain ⟨_, _, hpayload⟩ := hfit
  cases hmove with
  | ended hend => rcases hend with rfl | rfl <;> exact rowsLeft_pos hbusy _ _ _ _ _
  | header hp =>
    simp only [State.rowsLeft, hp, rowsLeft, callBound]
    omega
  | classify hp _ | classified hp _ | rowIndex hp _ | indexed hp _ | encoded hp _ =>
    simp only [State.rowsLeft, hp, rowsLeft, Nat.sub_zero]
    omega
  | absent hp hy | group hp hy _ | rowEnd hp hy _ =>
    obtain ⟨_, hx, hx4⟩ := hpayload hp
    obtain ⟨d, hd⟩ := Nat.exists_eq_add_of_lt hy
    have hleft : dim s.height - s.y = d + 1 := by omega
    have hnext : dim s.height - (s.y + 1) = d := by omega
    simp only [State.rowsLeft, hp, rowsLeft, hleft, hnext, rows_mul]
    omega

/-- A property that every busy state's step keeps holds at the end of the call, which `rowsLeft` steps reach. -/
theorem ends_of_kept {P : State → Prop}
    (hstep : ∀ s, P s → s.inbox = [] → s.countersFitTable → s.phase.busy = true → ∃ t, step s = .next t ∧ P t)
    {s : State} (hP : P s) (hquiet : s.inbox = []) (hfit : s.countersFitTable) :
    ∃ k t, k ≤ s.rowsLeft ∧ Sys2Proof.core.run k s = .next t ∧ P t ∧ t.phase.busy = false := by
  induction hn : s.rowsLeft using Nat.strong_induction_on generalizing s with
  | _ n ih =>
    subst hn
    cases hbusy : s.phase.busy with
    | false => exact ⟨0, s, Nat.zero_le _, run_zero s, hP, hbusy⟩
    | true =>
      obtain ⟨t, ht, hPt⟩ := hstep s hP hquiet hfit hbusy
      obtain ⟨hmove, hw, hh, _, _, _, _, hinbox⟩ :=
        counterMove_of_blockAction hbusy ((step_of_busy hquiet hbusy).symm.trans ht)
      have hlt : t.rowsLeft < s.rowsLeft := by
        rw [State.rowsLeft, hw, hh]
        exact rowsLeft_lt hmove hbusy hfit
      obtain ⟨k, u, hk, hrun, hPu, hidle⟩ :=
        ih _ hlt hPt (hinbox.trans hquiet) (countersFitTable_kept.step ht hfit) rfl
      exact ⟨k + 1, u, by omega, (run_succ ht k).trans hrun, hPu, hidle⟩

/-- A block in a call: busy, or at one of the two ends of a call. -/
def State.inCall (s : State) : Prop := s.phase.busy = true ∨ s.phase = .done ∨ s.phase = .error

theorem CounterMove.inCall {s t : State} (h : CounterMove s t.phase t.y t.x t.kidx) : t.inCall := by
  unfold State.inCall
  generalize t.phase = p, t.y = y, t.x = x, t.kidx = k at h
  cases h with
  | ended hp => exact .inr hp
  | _ => exact .inl rfl

theorem inCall_step {s : State} (hcap : s.outWithinCap) (hquiet : s.inbox = []) (hfit : s.countersFitTable)
    (hbusy : s.phase.busy = true) : ∃ t, step s = .next t ∧ t.outWithinCap ∧ t.inCall := by
  obtain ⟨t, ht⟩ := busyBlockIsNeverStuck s hbusy hquiet hfit hcap
  obtain ⟨hmove, _⟩ := counterMove_of_blockAction hbusy ((step_of_busy hquiet hbusy).symm.trans ht)
  exact ⟨t, ht, outWithinCap_kept.step ht hcap, hmove.inCall⟩

theorem countersFitTable_of_header {s : State} (h : s.phase = .header) : s.countersFitTable := by
  simp [State.countersFitTable, h]

/-- Settles O55: a busy block takes a step, each of which lowers the rows still to come, `callBound` at phase Header. -/
theorem callEndsWithinTheBound : Obligations.CallEndsWithinTheBound := by
  intro s hp hquiet hcap
  have hbegun : s.outWithinCap ∧ s.inCall := ⟨hcap, .inl (by rw [hp]; rfl)⟩
  obtain ⟨k, t, hk, hrun, ⟨_, hcall⟩, hidle⟩ := ends_of_kept (P := fun s => s.outWithinCap ∧ s.inCall)
    (fun _ ⟨hcap, _⟩ => inCall_step hcap) hbegun hquiet (countersFitTable_of_header hp)
  have hbound : s.rowsLeft = callBound (dim s.width) (dim s.height) := by rw [State.rowsLeft, hp, rowsLeft]
  exact ⟨k, t, hbound ▸ hk, hrun, hcall.resolve_left (by simp [hidle])⟩

end Sys2Proof.Machine
end

/-! PROOFS. A whole call: what OUT and RP hold along it, and that it ends with the functional `encode` or in OutputFull
(R14, R165). -/
section

namespace Sys2Proof.Machine

/-! Parts of the stream. -/

/-- The codes of the first `k` groups of row `y`. -/
def groupCodes (px : Nat → Byte) (w y k : Nat) : Bits :=
  (List.range k).flatMap fun j => codeOfGroup (groupAt px w y (4 * j))

/-- The bits of row `y` in the payload: none when it is absent (R14). -/
def payloadRow (px : Nat → Byte) (w y : Nat) : Bits := if presentRow px w y then rowBits px w y else []

/-- The payload as far as column `x` of row `y`. -/
def payloadTo (px : Nat → Byte) (w y x : Nat) : Bits :=
  (List.range y).flatMap (payloadRow px w) ++ groupCodes px w y (x / 4)

theorem rowBits_eq_groupCodes (px : Nat → Byte) (w y : Nat) : rowBits px w y = groupCodes px w y ((w + 3) / 4) := by
  simp only [rowBits, groupStarts, groupCodes, List.flatMap_map]

theorem payloadTo_start (px : Nat → Byte) (w : Nat) : payloadTo px w 0 0 = [] := rfl

theorem payloadTo_end (px : Nat → Byte) (w h : Nat) : payloadTo px w h 0 = payloadBits px w h := List.append_nil _

/-- The group at column `x`, a multiple of 4, comes next. -/
theorem payloadTo_group (px : Nat → Byte) (w y : Nat) {x : Nat} (hx : x % 4 = 0) :
    payloadTo px w y (x + 4) = payloadTo px w y x ++ codeOfGroup (groupAt px w y x) := by
  have hnext : (x + 4) / 4 = x / 4 + 1 := by omega
  have hcol : 4 * (x / 4) = x := by omega
  simp only [payloadTo, groupCodes, hnext, List.range_succ, List.flatMap_append, List.flatMap_singleton, hcol,
    List.append_assoc]

theorem payloadTo_nextRow (px : Nat → Byte) (w y : Nat) :
    payloadTo px w (y + 1) 0 = payloadTo px w y 0 ++ payloadRow px w y := by
  simp [payloadTo, groupCodes, List.range_succ, List.flatMap_append]

theorem payloadTo_absent {px : Nat → Byte} {w y : Nat} (h : presentRow px w y = false) :
    payloadTo px w (y + 1) 0 = payloadTo px w y 0 := by
  rw [payloadTo_nextRow, payloadRow, h, if_neg Bool.false_ne_true, List.append_nil]

/-- A present row ends at its first group column at or above the width. -/
theorem payloadTo_rowEnd {px : Nat → Byte} {w y x : Nat} (h : presentRow px w y = true) (hle : w ≤ x)
    (hlt : x ≤ w + 3) (hx : x % 4 = 0) : payloadTo px w (y + 1) 0 = payloadTo px w y x := by
  have hcol : x / 4 = (w + 3) / 4 := by omega
  rw [payloadTo_nextRow, payloadRow, if_pos h, rowBits_eq_groupCodes, payloadTo, payloadTo, hcol]
  simp [groupCodes]

theorem flatMap_range_length_mono {α : Type} (f : Nat → List α) {a b : Nat} (h : a ≤ b) :
    ((List.range a).flatMap f).length ≤ ((List.range b).flatMap f).length := by
  obtain ⟨c, rfl⟩ := Nat.exists_eq_add_of_le h
  rw [List.range_add, List.flatMap_append, List.length_append]
  exact Nat.le_add_right _ _

/-- The payload as far as any column of a present row is no longer than the payload. -/
theorem payloadTo_length_le {px : Nat → Byte} {w h y x : Nat} (hy : y < h) (hrow : presentRow px w y = true)
    (hx : x ≤ w + 3) : (payloadTo px w y x).length ≤ (payloadBits px w h).length := by
  have hgroups : (groupCodes px w y (x / 4)).length ≤ (payloadRow px w y).length := by
    rw [payloadRow, if_pos hrow, rowBits_eq_groupCodes]
    exact flatMap_range_length_mono _ (by omega)
  have hrows : (payloadTo px w (y + 1) 0).length ≤ (payloadBits px w h).length := by
    simp only [payloadTo, Nat.zero_div, groupCodes, List.range_zero, List.flatMap_nil, List.append_nil]
    exact flatMap_range_length_mono (payloadRow px w) hy
  have hparts : (payloadTo px w (y + 1) 0).length = (payloadTo px w y 0).length + (payloadRow px w y).length := by
    rw [payloadTo_nextRow, List.length_append]
  have hcodes : (payloadTo px w y x).length = (payloadTo px w y 0).length + (groupCodes px w y (x / 4)).length := by
    simp [payloadTo, groupCodes]
  omega

/-- Row-index byte `k` of the functional definition (R14). -/
def rowIndexItem (px : Nat → Byte) (w h k : Nat) : Byte :=
  encodePresence (fun j => decide (8 * k + j < h) && presentRow px w (8 * k + j)) 8

/-- The first `k` row-index bytes. -/
def rowIndexTo (px : Nat → Byte) (w h k : Nat) : List Byte := (List.range k).map (rowIndexItem px w h)

theorem rowIndexTo_succ (px : Nat → Byte) (w h k : Nat) :
    rowIndexTo px w h (k + 1) = rowIndexTo px w h k ++ [rowIndexItem px w h k] := by
  simp [rowIndexTo, List.range_succ]

theorem rowIndexTo_end (px : Nat → Byte) (w h : Nat) : rowIndexTo px w h (ceilDiv8 h) = rowIndexBytes px w h := rfl

theorem rowIndexTo_length (px : Nat → Byte) (w h k : Nat) : (rowIndexTo px w h k).length = k := by
  simp [rowIndexTo]

theorem rowIndexBytes_length (px : Nat → Byte) (w h : Nat) : (rowIndexBytes px w h).length = ceilDiv8 h :=
  rowIndexTo_length px w h _

/-- The header and row index of the stream of a raster. -/
def rasterHead (w h : Word) (px : Nat → Byte) : List Byte :=
  encodeHeader w h ++ rowIndexBytes px (dim w) (dim h)

theorem rasterHead_length (w h : Word) (px : Nat → Byte) : (rasterHead w h px).length = 8 + ceilDiv8 (dim h) := by
  rw [rasterHead, List.length_append, encodeHeader_length, rowIndexBytes_length]

theorem encodeRaster_eq (w h : Word) (px : Nat → Byte) :
    encodeRaster w h px = rasterHead w h px ++ pack (payloadBits px (dim w) (dim h)) := rfl

/-! Where a call stands. -/

/-- RP holds the presence of the first `n` rows. -/
def State.rowsClassified (s₀ s : State) (n : Nat) : Prop :=
  ∀ i < n, rpBit s i = presentRow (pixByte s₀) (dim s₀.width) i

/-- The header and row index of the call's stream. -/
def State.streamHead (s₀ : State) : List Byte := rasterHead s₀.width s₀.height (pixByte s₀)

/-- The call's stream, `encode(w, h, pix)`. -/
def State.stream (s₀ : State) : List Byte := encodeRaster s₀.width s₀.height (pixByte s₀)

theorem State.stream_eq (s₀ : State) : s₀.stream =
    s₀.streamHead ++ pack (payloadBits (pixByte s₀) (dim s₀.width) (dim s₀.height)) := encodeRaster_eq _ _ _

theorem State.streamHead_length (s₀ : State) : s₀.streamHead.length = 8 + ceilDiv8 (dim s₀.height) :=
  rasterHead_length _ _ _

theorem State.stream_length (s₀ : State) : s₀.stream.length = 8 + ceilDiv8 (dim s₀.height) +
    ((payloadBits (pixByte s₀) (dim s₀.width) (dim s₀.height)).length + 7) / 8 := by
  rw [State.stream_eq, List.length_append, State.streamHead_length, pack_length]

/-- `Progress s₀ s`: what the call that began in `s₀` has written when it stands in `s`, phase by phase; or it has ended
in OutputFull, its stream longer than OUT_CAP. -/
inductive Progress (s₀ s : State) : Prop
  | header (hp : s.phase = .header) (hn : s.nbits = 0) (hout : outBytes s = [])
  | classify (hp : s.phase = .classify) (hn : s.nbits = 0) (hout : outBytes s = encodeHeader s₀.width s₀.height)
      (hrp : s₀.rowsClassified s s.y)
  | rowIndex (hp : s.phase = .rowIndex) (hn : s.nbits = 0)
      (hout : outBytes s = encodeHeader s₀.width s₀.height ++
        rowIndexTo (pixByte s₀) (dim s₀.width) (dim s₀.height) s.kidx)
      (hrp : s₀.rowsClassified s (dim s₀.height))
  | payload (hp : s.phase = .payload) (hrp : s₀.rowsClassified s (dim s₀.height))
      (hrow : s.x ≠ 0 → s.y < dim s₀.height ∧ presentRow (pixByte s₀) (dim s₀.width) s.y = true)
      (hsink : s.sink = bitsOfBytes s₀.streamHead ++ payloadTo (pixByte s₀) (dim s₀.width) s.y s.x)
  | flush (hp : s.phase = .flush)
      (hsink : s.sink = bitsOfBytes s₀.streamHead ++ payloadBits (pixByte s₀) (dim s₀.width) (dim s₀.height))
  | done (hp : s.phase = .done) (hout : outBytes s = s₀.stream)
  | full (cap : Nat) (hcap : s₀.outCap = some cap) (hlt : cap < s₀.stream.length)
      (hs : ∃ u, s = raise .outputFull u)

/-- The invariant of a call that began in `s₀`. -/
structure CallState (s₀ s : State) : Prop where
  inputs : SameInputs s₀ s
  packer : s.packerInOrder
  dense : s.outDense
  cap : s.outWithinCap
  progress : Progress s₀ s

theorem SameInputs.pixByte {s t : State} (h : SameInputs s t) : pixByte t = pixByte s := by
  obtain ⟨_, _, hpix, hgen, _⟩ := h
  funext a
  simp only [Machine.pixByte, hpix, hgen]

theorem SameInputs.trans {s t u : State} (h : SameInputs s t) (k : SameInputs t u) : SameInputs s u := by
  obtain ⟨h1, h2, h3, h4, h5, h6, h7⟩ := h
  obtain ⟨k1, k2, k3, k4, k5, k6, k7⟩ := k
  exact ⟨k1.trans h1, k2.trans h2, k3.trans h3, k4.trans h4, k5.trans h5, k6.trans h6, k7.trans h7⟩

theorem room_or_full {s : State} (h : s.outWithinCap) (k : Nat) :
    s.room k ∨ ∃ cap, s.outCap = some cap ∧ s.outLen ≤ cap ∧ cap < s.outLen + k := by
  by_cases hroom : s.room k
  · exact .inl hroom
  · simp only [State.room, not_forall, not_le] at hroom
    obtain ⟨cap, hcap, hlt⟩ := hroom
    exact .inr ⟨cap, hcap, h cap hcap, hlt⟩

theorem sink_of_empty {s : State} (h : s.nbits = 0) : s.sink = bitsOfBytes (outBytes s) := by
  rw [State.sink, h]
  exact List.append_nil _

section Steps

variable {s₀ s : State} (hcall : CallState s₀ s) (hquiet : s.inbox = []) (hfit : s.countersFitTable)

include hcall

theorem CallState.outCap : s.outCap = s₀.outCap := by
  obtain ⟨_, _, _, _, hcap, _⟩ := hcall.inputs
  exact hcap

theorem CallState.width : s.width = s₀.width := by
  obtain ⟨hw, _⟩ := hcall.inputs
  exact hw

theorem CallState.height : s.height = s₀.height := by
  obtain ⟨_, hh, _⟩ := hcall.inputs
  exact hh

theorem CallState.outLen_eq : s.outLen = (outBytes s).length := (outBytes_length hcall.dense).symm

theorem CallState.sinkReady (hp : s.phase ≠ .error) : s.sinkReady := ⟨hcall.packer hp, hcall.dense⟩

/-- Where a byte completed by the next `n` bits does not fit, and those bits are the stream's or its padding, the stream
does not fit. -/
theorem CallState.stream_exceeds (hp : s.phase ≠ .error) {written : Bits} {n cap : Nat}
    (hsink : s.sink = bitsOfBytes s₀.streamHead ++ written)
    (hn : written.length + n ≤ (payloadBits (pixByte s₀) (dim s₀.width) (dim s₀.height)).length + 7)
    (hlt : cap < s.outLen + (s.nbits.val + n) / 8) : cap < s₀.stream.length := by
  obtain ⟨_, hdense⟩ := hcall.sinkReady hp
  have hbits := congrArg List.length hsink
  rw [sink_length hdense, List.length_append, bitsOfBytes_length, State.streamHead_length] at hbits
  rw [State.stream_length]
  omega

include hquiet

/-- HDR has room for its bytes, or the stream is longer than OUT_CAP. -/
theorem CallState.header_step (hp : s.phase = .header) (hn : s.nbits = 0) (hout : outBytes s = []) :
    ∃ t, step s = .next t ∧ Progress s₀ t := by
  have hlen : s.outLen = 0 := by rw [hcall.outLen_eq, hout, List.length_nil]
  rw [step_of_header hquiet hp]
  rcases room_or_full hcall.cap 8 with hroom | ⟨cap, hcap, hle, hlt⟩
  · obtain ⟨t, hexec, hbytes, _, _, _, hframe⟩ := exec_hdr_of_room hroom
    refine ⟨t, hexec, .classify (by rw [hframe]) (by rw [hframe]; exact hn) ?_ ?_⟩
    · rw [hbytes, hout, List.nil_append, hcall.width, hcall.height]
    · rw [hframe]
      exact fun i hi => absurd hi (Nat.not_lt_zero i)
  · refine ⟨_, exec_hdr_of_full hcap hle hlt, .full cap (hcall.outCap ▸ hcap) ?_ ⟨s, rfl⟩⟩
    rw [State.stream_length]
    omega

include hfit

theorem CallState.classify_step (hp : s.phase = .classify) (hn : s.nbits = 0)
    (hout : outBytes s = encodeHeader s₀.width s₀.height) (hrp : s₀.rowsClassified s s.y) :
    ∃ t, step s = .next t ∧ Progress s₀ t := by
  obtain ⟨hclassify, _⟩ := hfit
  rcases (hclassify hp).lt_or_eq with hy | hy
  · refine ⟨_, (step_of_classify_lt hquiet hp hy).trans (exec_cls hy), .classify hp hn hout fun i hi => ?_⟩
    rcases Nat.lt_succ_iff_lt_or_eq.mp hi with hlt | rfl
    · rw [← hrp i hlt]
      simp only [rpBit, Memory.read_write_other _ _ hlt.ne]
    · rw [rpBit_write s s.y _ _ rfl, hcall.inputs.pixByte, hcall.width]
  · refine ⟨_, step_of_classify_eq hquiet hp hy, .rowIndex rfl hn (hout.trans (List.append_nil _).symm) ?_⟩
    rw [hcall.height] at hy
    exact hy ▸ hrp

omit hfit hquiet in
theorem CallState.rowIndexByte_eq (hrp : s₀.rowsClassified s (dim s₀.height)) :
    rowIndexByte s = rowIndexItem (pixByte s₀) (dim s₀.width) (dim s₀.height) s.kidx := by
  unfold rowIndexByte rowIndexItem rowIndexBit
  rw [hcall.height]
  congr 1
  funext j
  by_cases hj : 8 * s.kidx + j < dim s₀.height
  · rw [hrp _ hj]
  · simp [hj]

/-- RIX appends the next row-index byte, or the stream is longer than OUT_CAP. -/
theorem CallState.rowIndex_step (hp : s.phase = .rowIndex) (hn : s.nbits = 0)
    (hout : outBytes s = encodeHeader s₀.width s₀.height ++
      rowIndexTo (pixByte s₀) (dim s₀.width) (dim s₀.height) s.kidx)
    (hrp : s₀.rowsClassified s (dim s₀.height)) : ∃ t, step s = .next t ∧ Progress s₀ t := by
  have hlen : s.outLen = 8 + s.kidx := by
    rw [hcall.outLen_eq, hout, List.length_append, encodeHeader_length, rowIndexTo_length]
  obtain ⟨_, hrowIndex, _⟩ := hfit
  rcases (hrowIndex hp).lt_or_eq with hk | hk
  · rw [step_of_rowIndex_lt hquiet hp hk]
    rcases room_or_full hcall.cap 1 with hroom | ⟨cap, hcap, hle, hlt⟩
    · refine ⟨_, exec_rix_of_room hroom, .rowIndex hp hn ?_ hrp⟩
      have hnext : s.rowIndexed.kidx = s.kidx + 1 := rfl
      rw [outBytes_rowIndexed, hout, hnext, rowIndexTo_succ, hcall.rowIndexByte_eq hrp, List.append_assoc]
    · have hfull : s.outCap = some s.outLen := by rw [hcap]; congr 1; omega
      refine ⟨_, exec_rix_of_full hfull, .full cap (hcall.outCap ▸ hcap) ?_ ⟨s, rfl⟩⟩
      rw [hcall.height] at hk
      rw [State.stream_length]
      omega
  · refine ⟨_, step_of_rowIndex_eq hquiet hp hk, .payload rfl hrp (fun h => absurd rfl h) ?_⟩
    have hsink : s.sink = bitsOfBytes s₀.streamHead := by
      rw [sink_of_empty hn, hout, hk, hcall.height, rowIndexTo_end, State.streamHead, rasterHead]
    rw [payloadTo_start, List.append_nil, ← hsink]
    rfl

/-- GRP appends the next group's code, or the stream is longer than OUT_CAP. -/
theorem CallState.group_step (hp : s.phase = .payload) (hy : s.y < dim s.height) (hrowBit : rpBit s s.y = true)
    (hx : s.x < dim s.width) (hrp : s₀.rowsClassified s (dim s₀.height))
    (hsink : s.sink = bitsOfBytes s₀.streamHead ++ payloadTo (pixByte s₀) (dim s₀.width) s.y s.x) :
    ∃ t, step s = .next t ∧ Progress s₀ t := by
  have hpe : s.phase ≠ .error := by rw [hp]; nofun
  obtain ⟨_, _, hpayload⟩ := hfit
  obtain ⟨_, _, hx4⟩ := hpayload hp
  have hpresent : presentRow (pixByte s₀) (dim s₀.width) s.y = true := by
    rw [← hrp s.y (hcall.height ▸ hy), hrowBit]
  have hcode := payloadTo_group (pixByte s₀) (dim s₀.width) s.y hx4
  rw [step_of_group hquiet hp hy hrowBit hx]
  rcases room_or_full hcall.cap
    ((s.nbits.val + (codeOfGroup (groupAt (pixByte s) (dim s.width) s.y s.x)).length) / 8) with
    hroom | ⟨cap, hcap, hle, hlt⟩
  · obtain ⟨u, hexec, hpacker, hemits, _⟩ := exec_grp_of_room hy hx (hcall.sinkReady hpe) hroom
    obtain ⟨hframe, _⟩ := grouped_packerFrame hpacker
    rw [grouped_sink, hsink, hcall.inputs.pixByte, hcall.width, List.append_assoc, ← hcode] at hemits
    have hux : u.x = s.x := by rw [hframe]
    have huy : u.y = s.y := by rw [hframe]
    refine ⟨_, hexec, .payload ?_ ?_ (fun _ => ?_) ?_⟩
    · rw [hframe]
      exact hp
    · rw [hframe]
      exact hrp
    · simp only [huy]
      exact ⟨hcall.height ▸ hy, hpresent⟩
    · simp only [hux, huy]
      exact hemits
  · refine ⟨_, exec_grp_of_full hy hx hcap hle hlt, .full cap (hcall.outCap ▸ hcap) ?_ ⟨s, rfl⟩⟩
    rw [hcall.width] at hx
    have htotal := payloadTo_length_le (x := s.x + 4) (hcall.height ▸ hy) hpresent (by omega)
    rw [hcode, List.length_append] at htotal
    rw [hcall.inputs.pixByte, hcall.width] at hlt
    exact hcall.stream_exceeds hpe hsink (htotal.trans (Nat.le_add_right _ 7)) hlt

/-- The rows of phase Payload. -/
theorem CallState.payload_step (hp : s.phase = .payload) (hrp : s₀.rowsClassified s (dim s₀.height))
    (hrow : s.x ≠ 0 → s.y < dim s₀.height ∧ presentRow (pixByte s₀) (dim s₀.width) s.y = true)
    (hsink : s.sink = bitsOfBytes s₀.streamHead ++ payloadTo (pixByte s₀) (dim s₀.width) s.y s.x) :
    ∃ t, step s = .next t ∧ Progress s₀ t := by
  obtain ⟨_, _, hpayload⟩ := id hfit
  obtain ⟨hle, hx, hx4⟩ := hpayload hp
  rcases hle.lt_or_eq with hy | hy
  · have hpresence := hrp s.y (hcall.height ▸ hy)
    cases hrowBit : rpBit s s.y with
    | false =>
      rw [hrowBit] at hpresence
      have hx0 : s.x = 0 := by
        by_contra hne
        exact absurd (hpresence.trans (hrow hne).2) Bool.false_ne_true
      refine ⟨_, step_of_absentRow hquiet hp hy hrowBit, .payload hp hrp (fun h => absurd hx0 h) ?_⟩
      rw [hx0] at hsink
      simp only [hx0, payloadTo_absent hpresence.symm]
      exact hsink
    | true =>
      rw [hrowBit] at hpresence
      rcases lt_or_ge s.x (dim s.width) with hlt | hge
      · exact hcall.group_step hquiet hfit hp hy hrowBit hlt hrp hsink
      · refine ⟨_, step_of_rowEnd hquiet hp hy hrowBit hge, .payload hp hrp (fun h => absurd rfl h) ?_⟩
        rw [hcall.width] at hge hx
        simp only [payloadTo_rowEnd hpresence.symm hge hx hx4]
        exact hsink
  · refine ⟨_, step_of_payload_eq hquiet hp hy, .flush rfl ?_⟩
    have hx0 : s.x = 0 := by
      by_contra hne
      exact absurd (hrow hne).1 (hcall.height ▸ hy.not_lt)
    rw [hy, hx0, hcall.height, payloadTo_end] at hsink
    exact hsink

omit hfit in
/-- FLUSH and FIN complete the stream, or it is longer than OUT_CAP. -/
theorem CallState.flush_step (hp : s.phase = .flush) (hsink : s.sink = bitsOfBytes s₀.streamHead ++
    payloadBits (pixByte s₀) (dim s₀.width) (dim s₀.height)) : ∃ t, step s = .next t ∧ Progress s₀ t := by
  have hpe : s.phase ≠ .error := by rw [hp]; nofun
  have hready := hcall.sinkReady hpe
  obtain ⟨hfits, hraises⟩ := emitsOrRaises_of_exec_eq_putBits (exec_pad_eq_putBits s)
  rcases room_or_full hcall.cap
    ((s.nbits.val + (List.replicate ((8 - s.nbits.val) % 8) false).length) / 8) with hroom | ⟨cap, hcap, hle, hlt⟩
  · obtain ⟨t, hexec, hemits⟩ := hfits hready hroom
    have hcount := hemits.count hready
    obtain ⟨htsink, _, _, _, hframe⟩ := hemits
    have htp : t.phase ≠ .error := by rw [hframe, hp]; nofun
    rw [exec_pad_eq_flush] at hexec
    refine ⟨_, (step_of_flush hquiet hp hexec).trans ((if_neg htp).trans (exec_fin t)), .done rfl ?_⟩
    have htn : t.nbits = 0 := by
      apply Fin.ext
      have := t.nbits.isLt
      rw [List.length_replicate] at hcount
      show t.nbits.val = 0
      omega
    have hpad : (8 - s.nbits.val) % 8 =
        (8 - (payloadBits (pixByte s₀) (dim s₀.width) (dim s₀.height)).length % 8) % 8 := by
      have hbits := congrArg List.length hsink
      rw [sink_length hready.2, List.length_append, bitsOfBytes_length] at hbits
      omega
    apply bitsOfBytes_inj
    rw [State.stream_eq, bitsOfBytes_append, bitsOfBytes_pack, ← hpad, ← List.append_assoc, ← hsink, ← htsink,
      sink_of_empty htn]
    rfl
  · have hexec := hraises cap hcap hle hlt
    rw [exec_pad_eq_flush] at hexec
    refine ⟨_, (step_of_flush hquiet hp hexec).trans (if_pos rfl), .full cap (hcall.outCap ▸ hcap) ?_ ⟨s, rfl⟩⟩
    refine hcall.stream_exceeds hpe hsink ?_ hlt
    rw [List.length_replicate]
    omega

/-- A busy block takes a step, and the call goes on as the functional definition says. -/
theorem CallState.step (hbusy : s.phase.busy = true) : ∃ t, step s = .next t ∧ CallState s₀ t := by
  obtain ⟨t, ht, hprogress⟩ : ∃ t, Machine.step s = .next t ∧ Progress s₀ t := by
    cases hcall.progress with
    | header hp hn hout => exact hcall.header_step hquiet hp hn hout
    | classify hp hn hout hrp => exact hcall.classify_step hquiet hfit hp hn hout hrp
    | rowIndex hp hn hout hrp => exact hcall.rowIndex_step hquiet hfit hp hn hout hrp
    | payload hp hrp hrow hsink => exact hcall.payload_step hquiet hfit hp hrp hrow hsink
    | flush hp hsink => exact hcall.flush_step hquiet hp hsink
    | done hp _ =>
      rw [hp] at hbusy
      cases hbusy
    | full _ _ _ hs =>
      obtain ⟨u, rfl⟩ := hs
      cases hbusy
  obtain ⟨_, hinputs⟩ := counterMove_of_blockAction hbusy ((step_of_busy hquiet hbusy).symm.trans ht)
  exact ⟨t, ht, hcall.inputs.trans hinputs, packerInOrder_kept.step ht hcall.packer, outDense_kept.step ht hcall.dense,
    outWithinCap_kept.step ht hcall.cap, hprogress⟩

end Steps

/-! The whole call. -/

theorem callState_of_begun {s : State} (h : s.callBegun) : CallState s s := by
  obtain ⟨hp, _, hlen, hout, hacc, hn⟩ := h
  refine ⟨⟨rfl, rfl, rfl, rfl, rfl, rfl, rfl⟩, fun _ => packerClean_of_zero hacc, outDense_of_empty hout hlen,
    outWithinCap_of_empty hlen, .header hp hn ?_⟩
  rw [outBytes, hlen]
  rfl

/-- A call ends in Done with the stream in OUT, or in OutputFull with a stream longer than OUT_CAP. -/
theorem call_ends {s : State} (h : s.callBegun) : ∃ k t, Sys2Proof.core.run k s = .next t ∧ CallState s t ∧
    ((t.phase = .done ∧ outBytes t = s.stream) ∨
     (∃ cap, s.outCap = some cap ∧ cap < s.stream.length ∧ ∃ u, t = raise .outputFull u)) := by
  obtain ⟨hp, hquiet, _⟩ := id h
  obtain ⟨k, t, _, hrun, hcall, hidle⟩ := ends_of_kept (P := CallState s)
    (fun _ hcall => hcall.step) (callState_of_begun h) hquiet (countersFitTable_of_header hp)
  refine ⟨k, t, hrun, hcall, ?_⟩
  cases hcall.progress with
  | done hp hout => exact .inl ⟨hp, hout⟩
  | full cap hcap hlt hs => exact .inr ⟨cap, hcap, hlt, hs⟩
  | header hp _ _ | classify hp _ _ _ | rowIndex hp _ _ _ | payload hp _ _ _ | flush hp _ =>
    rw [hp] at hidle
    cases hidle

/-- Settles O56: with room for the stream the call cannot end in OutputFull. -/
theorem sequencerComputesEncode : Obligations.SequencerComputesEncode := by
  intro s hbegun hroom
  obtain ⟨k, t, hrun, hcall, ⟨hp, hout⟩ | ⟨cap, hcap, hlt, _⟩⟩ := call_ends hbegun
  · refine ⟨k, t, hrun, hp, hout, hcall.outLen_eq.trans (congrArg List.length hout), fun a ha => ?_⟩
    rw [hostReadOut_of_done hp hcall.dense ha, hout, State.stream]
  · have hle : s.outLen + s.stream.length ≤ cap := hroom cap hcap
    omega

/-- Settles O57: in Done OUT would hold more bytes than OUT_CAP. -/
theorem sequencerReportsOutputFull : Obligations.SequencerReportsOutputFull := by
  intro s cap hbegun hcap hlt
  obtain ⟨k, t, hrun, hcall, ⟨_, hout⟩ | ⟨_, _, _, u, rfl⟩⟩ := call_ends hbegun
  · have hlen : t.outLen = s.stream.length := hcall.outLen_eq.trans (congrArg List.length hout)
    have hle : t.outLen + 0 ≤ cap := hcall.cap cap (hcall.outCap.trans hcap)
    have hlong : cap < s.stream.length := hlt
    omega
  · exact ⟨k, _, hrun, rfl, rfl, rfl, rfl⟩

end Sys2Proof.Machine
end

/-! PROOFS. The decoder's invariant, and what reset holds (R40, R181 to R193). -/
section

namespace Sys2Proof.Machine

/-! What DHDR and DRIX give. -/

theorem Dec.header_eq_ok {d d' : Dec} (h : d.header = .ok d') :
    ∃ w v rest, decodeHeader d.input = .ok ((w, v), rest) ∧ (w.msb || v.msb) = false ∧
      d' = { d with width := w, height := v, phase := .readRowIndex } := by
  unfold Dec.header at h
  split at h
  next => cases h
  next w v rest hheader =>
    split at h
    next => cases h
    next hsigns => exact ⟨w, v, rest, hheader, by simpa using hsigns, (Res.ok.inj h).symm⟩

theorem Dec.rowIndex_cases (m : Option Nat) (d : Dec) :
    (d.input.length < 8 + ceilDiv8 (dim d.height) ∧ d.rowIndex m = .raised .rowIndexTruncated) ∨
    (8 + ceilDiv8 (dim d.height) ≤ d.input.length ∧ exceedsPixels m d.width d.height = true ∧
      d.rowIndex m = .raised .rasterTooLarge) ∨
    (8 + ceilDiv8 (dim d.height) ≤ d.input.length ∧ exceedsPixels m d.width d.height = false ∧
      d.rowIndex m = .ok d.rowsBegun) := by
  rcases lt_or_ge d.input.length (8 + ceilDiv8 (dim d.height)) with hshort | hlen
  · exact .inl ⟨hshort, rowIndex_of_short hshort⟩
  · cases hlarge : exceedsPixels m d.width d.height with
    | true => exact .inr (.inl ⟨hlen, rfl, rowIndex_of_tooLarge hlen hlarge⟩)
    | false => exact .inr (.inr ⟨hlen, rfl, rowIndex_of_fits hlen hlarge⟩)

/-! The invariant, state by state. -/

/-- The decoder's invariant: it stands in order while it decodes rows, and a finished decoding is complete. -/
def Dec.inOrder (d : Dec) : Prop := d.rowsInOrder ∧ d.resultComplete

theorem Dec.inOrder_of_phase {d : Dec} (h1 : d.phase ≠ .decodeRow) (h2 : d.phase ≠ .done) : d.inOrder :=
  ⟨fun h => absurd h h1, fun h => absurd h h2⟩

theorem Dec.inOrder_of_decodeRow {d : Dec} (hp : d.phase = .decodeRow) (h : d.rowsInOrder) : d.inOrder :=
  ⟨h, fun hdone => absurd (hp.symm.trans hdone) nofun⟩

theorem Dec.inOrder_fail (c : Cause) (d : Dec) : (d.fail c).inOrder := Dec.inOrder_of_phase nofun nofun

theorem Dec.inOrder_header {d d' : Dec} (h : d.header = .ok d') : d'.inOrder := by
  obtain ⟨_, _, _, _, _, rfl⟩ := Dec.header_eq_ok h
  exact Dec.inOrder_of_phase nofun nofun

theorem Dec.inOrder_rowsBegun {d : Dec} (h : 8 + ceilDiv8 (dim d.height) ≤ d.input.length) : d.rowsBegun.inOrder :=
  Dec.inOrder_of_decodeRow rfl fun _ =>
    ⟨Nat.mul_le_mul_left 8 h, h, Nat.zero_le _, fun _ => rfl, fun _ => rfl, by simp [Dec.rowsBegun]⟩

theorem Dec.inOrder_rowIndex {m : Option Nat} {d d' : Dec} (h : d.rowIndex m = .ok d') : d'.inOrder := by
  rcases Dec.rowIndex_cases m d with ⟨_, he⟩ | ⟨_, _, he⟩ | ⟨hlen, _, he⟩
  · cases he.symm.trans h
  · cases he.symm.trans h
  · obtain rfl := Res.ok.inj (he.symm.trans h)
    exact Dec.inOrder_rowsBegun hlen

theorem Dec.inOrder_done {d : Dec} (hs : d.rowsInOrder) (hp : d.phase = .decodeRow) (hy : d.y = dim d.height) :
    ({ d with phase := .done } : Dec).inOrder := by
  obtain ⟨_, _, _, hx, _, hout⟩ := hs hp
  refine ⟨nofun, fun _ => ?_⟩
  rw [hx hy, hy, Nat.zero_min, Nat.add_zero, Nat.mul_comm] at hout
  exact hout

theorem Dec.inOrder_absent {d : Dec} (hs : d.rowsInOrder) (hp : d.phase = .decodeRow) (hy : d.y < dim d.height)
    (hrow : d.presence d.y = some false) : (d.append (List.replicate (dim d.width) 255#8)).nextRow.inOrder := by
  obtain ⟨hpos, hlen, _, _, hx, hout⟩ := hs hp
  refine Dec.inOrder_of_decodeRow hp fun _ => ⟨hpos, hlen, hy, fun _ => rfl, fun _ => rfl, ?_⟩
  simp only [Dec.append, Dec.nextRow, List.length_append, List.length_replicate, hout, hx hrow, Nat.zero_min,
    Nat.add_zero, Nat.succ_mul]

theorem Dec.inOrder_nextRow {d : Dec} (hs : d.rowsInOrder) (hp : d.phase = .decodeRow) (hy : d.y < dim d.height)
    (hx : dim d.width ≤ d.x) : d.nextRow.inOrder := by
  obtain ⟨hpos, hlen, _, _, _, hout⟩ := hs hp
  refine Dec.inOrder_of_decodeRow hp fun _ => ⟨hpos, hlen, hy, fun _ => rfl, fun _ => rfl, ?_⟩
  rw [Nat.min_eq_right hx] at hout
  simp only [Dec.nextRow, hout, Nat.zero_min, Nat.add_zero, Nat.succ_mul]

theorem wordPixels_length {n : Nat} {s r : Bits} {i : Instr} (h : decodeWord n s = .ok (i, r)) :
    (wordPixels n i).length = n := by
  obtain ⟨h1, h4, ⟨rfl, _⟩ | ⟨rfl, _⟩ | ⟨ps, rfl, hi, _⟩⟩ := decodeWord_eq_ok h
  · exact List.length_replicate
  · exact List.length_replicate
  · obtain ⟨j, hj, _, _, hpixels, _⟩ := mixedWord_some h1 h4
    obtain rfl : i = j := Option.some.inj (hi.symm.trans hj)
    rw [hpixels]

theorem Dec.inOrder_word {d : Dec} (hs : d.rowsInOrder) (hp : d.phase = .decodeRow) (hy : d.y < dim d.height)
    (hrow : d.presence d.y = some true) (hx : d.x < dim d.width) {i : Instr} {r : Bits}
    (hword : decodeWord d.groupCount d.rest = .ok (i, r)) :
    ({ d.afterWord d.groupCount i with x := d.x + 4 } : Dec).inOrder := by
  obtain ⟨_, hlen, hle, _, _, hout⟩ := hs hp
  refine Dec.inOrder_of_decodeRow hp fun _ => ⟨Dec.pos_add_wordLength_le hword, hlen, hle, fun h => absurd h hy.ne,
    fun h => absurd (hrow.symm.trans h) nofun, ?_⟩
  have hpixels : (wordPixels d.groupCount i).length = min 4 (dim d.width - d.x) := wordPixels_length hword
  simp only [Dec.afterWord, List.length_append, hout, hpixels]
  omega

/-- Every step of the decoder keeps its invariant. -/
theorem inOrder_of_decAction {u t : State} (hrun : u.dec.phase.running = true)
    (h : runAction (decAction u) = .next t) (hs : u.dec.rowsInOrder) : t.dec.inOrder := by
  rcases decAction_cases hrun h with ⟨_, h⟩ | ⟨_, h⟩ | ⟨hp, hy, rfl⟩ | ⟨hp, hy, hrow, h⟩ |
    ⟨hp, hy, hrow, hx, ⟨i, r, hword, h⟩ | rfl⟩ | ⟨hp, hy, _, hx, rfl⟩
  · obtain ⟨d, rfl, hd | ⟨c, _, rfl⟩⟩ := Res.finishDec_eq_next.mp h
    · exact Dec.inOrder_header hd
    · exact Dec.inOrder_fail _ _
  · obtain ⟨d, rfl, hd | ⟨c, _, rfl⟩⟩ := Res.finishDec_eq_next.mp h
    · exact Dec.inOrder_rowIndex hd
    · exact Dec.inOrder_fail _ _
  · exact Dec.inOrder_done hs hp hy
  · rw [exec_drow, Dec.row_of_absent hy hrow, Res.finishDec_ok] at h
    obtain rfl := Host.Outcome.next.inj h
    exact Dec.inOrder_absent hs hp hy hrow
  · rw [exec_of_decodeWord hx hword] at h
    obtain rfl := Host.Outcome.next.inj h
    exact Dec.inOrder_word hs hp hy hrow hx hword
  · exact Dec.inOrder_fail _ _
  · exact Dec.inOrder_nextRow hs hp hy hx

/-! The block leaves the decoder alone. -/

theorem Effect.dec_of_block {i : Instr} {s t : State} (h : Effect s i t) (hi : ofDecoder i = false) :
    t.dec = s.dec := by
  cases h with
  | decoder h => cases hi.symm.trans h
  | startIgnored _ | startBegins _ | startRaises _ _ | full _ | rix _ | cls _ | clsg | fin => rfl
  | hdr h => rw [hdr_frame h]
  | ldg => rw [loadGroup_frame]
  | grp h =>
    obtain ⟨hframe, _⟩ := grouped_packerFrame h
    rw [hframe]
  | packer _ h =>
    obtain ⟨hframe, _⟩ := h
    rw [hframe]

theorem dec_of_blockAction {s t : State} (hbusy : s.phase.busy = true) (h : runAction (blockAction s) = .next t) :
    t.dec = s.dec := by
  rcases blockAction_cases hbusy h with ⟨_, h⟩ | ⟨_, _, h⟩ | ⟨_, _, rfl⟩ | ⟨_, _, h⟩ | ⟨_, _, rfl⟩ |
    ⟨_, _, rfl⟩ | ⟨_, _, _, rfl⟩ | ⟨_, _, _, _, h⟩ | ⟨_, _, _, _, rfl⟩ | ⟨_, rfl | ⟨v, ⟨hframe, _⟩, rfl⟩⟩
  · exact (exec_effect h).dec_of_block rfl
  · exact (exec_effect h).dec_of_block rfl
  · rfl
  · exact (exec_effect h).dec_of_block rfl
  · rfl
  · rfl
  · rfl
  · exact (exec_effect h).dec_of_block rfl
  · rfl
  · rfl
  · rw [hframe]

/-- Settles O52: a step of the decoder keeps its invariant, a fresh decoder has it, and nothing else touches it. -/
theorem decodingStaysInOrder : Obligations.DecodingStaysInOrder := by
  intro s t hrows hresult h
  obtain ⟨u, hinbox, h⟩ := step_cases h
  have hdec : u.dec = s.dec := by rw [hinbox]
  have hu : u.dec.inOrder := hdec ▸ ⟨hrows, hresult⟩
  rcases h with rfl | h | ⟨_, v, rfl⟩ | ⟨_, v, rfl⟩ | ⟨a, b, rfl⟩ | rfl | ⟨bs, rfl⟩ | ⟨hbusy, h⟩ | ⟨_, hrun, h⟩
  · exact hu
  · rw [(exec_effect h).dec_of_block rfl]
    exact hu
  · exact hu
  · exact hu
  · exact hu
  · exact hu
  · exact Dec.inOrder_of_phase nofun nofun
  · rw [dec_of_blockAction hbusy h]
    exact hu
  · obtain ⟨hrows, _⟩ := hu
    exact inOrder_of_decAction hrun h hrows

/-! Reset. -/

/-- Settles O53: the block and the decoder are idle, the memories list nothing. -/
theorem resetMeetsTheInvariants : Obligations.ResetMeetsTheInvariants :=
  ⟨⟨rfl, rfl, rfl, rfl, rfl, rfl, rfl, rfl, rfl, rfl, rfl⟩, ⟨rfl, rfl, rfl⟩, ⟨iff_of_false (fun h => h rfl) nofun, rfl⟩,
    packerClean_of_zero rfl, rfl, outWithinCap_of_empty rfl, countersInRange_kept.idle _ rfl,
    countersFitTable_kept.idle _ rfl, Dec.inOrder_of_phase nofun nofun⟩

end Sys2Proof.Machine
end

/-! PROOFS. Rows of the decoder as functions of the bits at POS: on any input, on an encoded stream, on a cut one
(R188 to R195). -/
section

namespace Sys2Proof.Machine

/-! Code words of a row. -/

/-- Bits after a code word do not change it. -/
theorem decodeWord_append {n : Nat} {s r : Bits} {i : Instr} (h : decodeWord n s = .ok (i, r)) (t : Bits) :
    decodeWord n (s ++ t) = .ok (i, r ++ t) := by
  obtain ⟨bits, hencode, rfl, hfits⟩ := decodedWordIsItsBits n s r i h
  rw [List.append_assoc]
  exact codeWordDecodesBack i bits (r ++ t) n hencode hfits

theorem rowWords_cons_of_ok {w x : Nat} {xs : List Nat} {s r : Bits} {i : Instr} {ps : List Byte} {k : Nat}
    (hword : decodeWord (groupCount w x) s = .ok (i, r)) (hrest : rowWords w xs r = .ok (ps, k)) :
    rowWords w (x :: xs) s = .ok (wordPixels (groupCount w x) i ++ ps, wordLength i + k) := by
  simp only [rowWords, hword, hrest]

/-- What a row of words that can be read is made of. -/
theorem rowWords_cons_eq_ok {w x : Nat} {xs : List Nat} {s : Bits} {ps : List Byte} {k : Nat}
    (h : rowWords w (x :: xs) s = .ok (ps, k)) :
    ∃ i r ps' k', decodeWord (groupCount w x) s = .ok (i, r) ∧ rowWords w xs r = .ok (ps', k') ∧
      ps = wordPixels (groupCount w x) i ++ ps' ∧ k = wordLength i + k' := by
  unfold rowWords at h
  split at h
  next => cases h
  next i r hword =>
    split at h
    next => cases h
    next ps' k' hrest =>
      obtain ⟨rfl, rfl⟩ := Prod.mk.inj (Except.ok.inj h)
      exact ⟨i, r, ps', k', hword, hrest, rfl, rfl⟩

/-- Why a row of words cannot be read. -/
theorem rowWords_cons_eq_error {w x : Nat} {xs : List Nat} {s : Bits} {e : Reject}
    (h : rowWords w (x :: xs) s = .error e) :
    decodeWord (groupCount w x) s = .error e ∨
      ∃ i r, decodeWord (groupCount w x) s = .ok (i, r) ∧ rowWords w xs r = .error e := by
  unfold rowWords at h
  split at h
  next e' hword => exact .inl (hword.trans (congrArg _ (Except.error.inj h)))
  next i r hword =>
    split at h
    next e' hrest => exact .inr ⟨i, r, hword, hrest.trans (congrArg _ (Except.error.inj h))⟩
    next => cases h

/-- Bits after a row of words do not change it, and the words lie within the bits. -/
theorem rowWords_append {w : Nat} {xs : List Nat} {s : Bits} {ps : List Byte} {k : Nat}
    (h : rowWords w xs s = .ok (ps, k)) (t : Bits) : k ≤ s.length ∧ rowWords w xs (s ++ t) = .ok (ps, k) := by
  induction xs generalizing s ps k with
  | nil =>
    obtain ⟨rfl, rfl⟩ := Prod.mk.inj (Except.ok.inj h)
    exact ⟨Nat.zero_le _, rfl⟩
  | cons x xs ih =>
    obtain ⟨i, r, ps', k', hword, hrest, rfl, rfl⟩ := rowWords_cons_eq_ok h
    obtain ⟨hle, hrest'⟩ := ih hrest
    obtain ⟨_, hlen⟩ := length_of_decodeWord hword
    exact ⟨by omega, rowWords_cons_of_ok (decodeWord_append hword t) hrest'⟩

/-- The codes of the groups at the columns `xs` read back as their pixels, all of the codes read. -/
theorem rowWords_of_codes (px : Nat → Byte) {w : Nat} (y : Nat) {xs : List Nat} (hx : ∀ x ∈ xs, x < w) (r : Bits) :
    rowWords w xs ((xs.flatMap fun x => codeOfGroup (groupAt px w y x)) ++ r) =
      .ok (xs.flatMap (groupAt px w y), (xs.flatMap fun x => codeOfGroup (groupAt px w y x)).length) := by
  induction xs with
  | nil => rfl
  | cons x xs ih =>
    have hlen := groupAt_length px w y x
    obtain ⟨i, hword, hpixels, hlength⟩ := decodeWord_codeOfGroup (g := groupAt px w y x)
      (hlen ▸ groupCount_pos (hx x List.mem_cons_self)) (hlen ▸ groupCount_le w x)
      ((xs.flatMap fun x => codeOfGroup (groupAt px w y x)) ++ r)
    rw [hlen] at hword hpixels
    rw [List.flatMap_cons, List.append_assoc,
      rowWords_cons_of_ok hword (ih fun x' hx' => hx x' (List.mem_cons_of_mem x hx')), hpixels, hlength,
      List.flatMap_cons, List.length_append]

/-- The pixels of row `y`. -/
def rasterRow (px : Nat → Byte) (w y : Nat) : List Byte := (List.range w).map fun x => px (y * w + x)

theorem rowWords_of_rowBits (px : Nat → Byte) (w y : Nat) (r : Bits) :
    rowWords w (groupStarts w) (rowBits px w y ++ r) = .ok (rasterRow px w y, (rowBits px w y).length) := by
  rw [rasterRow, ← rowPixels]
  exact rowWords_of_codes px y (fun _ => lt_of_mem_groupStarts) r

/-- The bits of a row with some of them missing at the end are no row of words. -/
theorem rowWords_of_cut {px : Nat → Byte} {w y : Nat} {s t : Bits} (h : rowBits px w y = s ++ t) (ht : t ≠ []) :
    ∃ e, rowWords w (groupStarts w) s = .error e := by
  cases hwords : rowWords w (groupStarts w) s with
  | error e => exact ⟨e, rfl⟩
  | ok psk =>
    obtain ⟨ps, k⟩ := psk
    obtain ⟨hle, hwords'⟩ := rowWords_append hwords t
    have hfull := rowWords_of_rowBits px w y []
    rw [List.append_nil] at hfull
    rw [← h, hfull] at hwords'
    obtain ⟨_, hk⟩ := Prod.mk.inj (Except.ok.inj hwords')
    have hlen := congrArg List.length h
    rw [List.length_append] at hlen
    exact absurd (List.length_eq_zero_iff.mp (by omega)) ht

/-! One row, on any input. -/

/-- The decoder after a row whose words take `k` bits and give the pixels `ps`. -/
def Dec.afterRow (d : Dec) (ps : List Byte) (k : Nat) : Dec :=
  { d with pos := d.pos + k, out := d.out ++ ps, y := d.y + 1, x := 0 }

theorem Dec.row_of_words {d : Dec} {ps : List Byte} {k : Nat} (hy : d.y < dim d.height)
    (hrow : d.presence d.y = some true)
    (hwords : rowWords (dim d.width) (groupStarts (dim d.width)) d.rest = .ok (ps, k)) :
    d.row = .ok (d.afterRow ps k) := by
  rw [Dec.row_of_present hy hrow, groups_of_words hwords]
  rfl

theorem Dec.row_of_noWords {d : Dec} {e : Reject} (hy : d.y < dim d.height) (hrow : d.presence d.y = some true)
    (hwords : rowWords (dim d.width) (groupStarts (dim d.width)) d.rest = .error e) :
    d.row = .raised .payloadExhausted := by
  rw [Dec.row_of_present hy hrow, groups_of_error (fun _ => lt_of_mem_groupStarts) hwords]
  rfl

theorem Dec.row_of_absent_eq_afterRow {d : Dec} (hy : d.y < dim d.height) (hrow : d.presence d.y = some false) :
    d.row = .ok (d.afterRow (List.replicate (dim d.width) 255#8) 0) :=
  Dec.row_of_absent hy hrow

theorem Dec.presence_isSome {d : Dec} {i : Nat} (hi : i < dim d.height)
    (hlen : 8 + ceilDiv8 (dim d.height) ≤ d.input.length) : ∃ b, d.presence i = some b := by
  have hlt : 8 + i / 8 < d.input.length := by
    unfold ceilDiv8 at hlen
    omega
  exact ⟨_, Dec.presence_of_getElem? (List.getElem?_eq_getElem hlt)⟩

theorem Dec.rest_afterRow (d : Dec) (ps : List Byte) (k : Nat) : (d.afterRow ps k).rest = d.rest.drop k := by
  simp only [Dec.rest, Dec.afterRow, List.drop_drop]

/-! Rows of an encoded stream. -/

/-- The presence bits in the decoder's input are those of the raster `px`. -/
def Dec.holdsPresence (px : Nat → Byte) (d : Dec) : Prop :=
  ∀ i < dim d.height, d.presence i = some (presentRow px (dim d.width) i)

theorem rasterRow_of_absent {px : Nat → Byte} {w y : Nat} (h : presentRow px w y = false) :
    rasterRow px w y = List.replicate w 255#8 := by
  rw [List.eq_replicate_iff]
  refine ⟨by simp [rasterRow], fun p hp => ?_⟩
  obtain ⟨x, hx, rfl⟩ := List.mem_map.mp hp
  by_contra hne
  have hpresent := (presentRow_iff px w y).mpr ⟨x, List.mem_range.mp hx, hne⟩
  exact absurd (h.symm.trans hpresent) nofun

/-- Where the row's bits stand at POS, DROW gives its pixels, be it present or absent. -/
theorem Dec.row_of_payloadRow {px : Nat → Byte} {d : Dec} {r : Bits} (hy : d.y < dim d.height)
    (hpresence : d.holdsPresence px) (hrest : d.rest = payloadRow px (dim d.width) d.y ++ r) :
    d.row = .ok (d.afterRow (rasterRow px (dim d.width) d.y) (payloadRow px (dim d.width) d.y).length) := by
  have hrow := hpresence d.y hy
  cases hpresent : presentRow px (dim d.width) d.y with
  | false =>
    rw [hpresent] at hrow
    have hbits : payloadRow px (dim d.width) d.y = [] := by rw [payloadRow, hpresent, if_neg Bool.false_ne_true]
    rw [Dec.row_of_absent_eq_afterRow hy hrow, rasterRow_of_absent hpresent, hbits, List.length_nil]
  | true =>
    rw [hpresent] at hrow
    have hbits : payloadRow px (dim d.width) d.y = rowBits px (dim d.width) d.y := by
      rw [payloadRow, hpresent, if_pos rfl]
    rw [hbits] at hrest ⊢
    exact Dec.row_of_words hy hrow (hrest ▸ rowWords_of_rowBits px _ _ r)

theorem Dec.rest_after_payloadRow {px : Nat → Byte} {d : Dec} {r : Bits} (ps : List Byte)
    (hrest : d.rest = payloadRow px (dim d.width) d.y ++ r) :
    (d.afterRow ps (payloadRow px (dim d.width) d.y).length).rest = r := by
  rw [Dec.rest_afterRow, hrest, List.drop_left]

/-- The pixels of `n` rows from row `y`. -/
def rowsPixels (px : Nat → Byte) (w y n : Nat) : List Byte :=
  (List.range' y n).flatMap (rasterRow px w)

theorem rowsPixels_succ (px : Nat → Byte) (w y n : Nat) :
    rowsPixels px w y (n + 1) = rasterRow px w y ++ rowsPixels px w (y + 1) n := by
  rw [rowsPixels, List.range'_succ, List.flatMap_cons, rowsPixels]

theorem rowsPixels_all (px : Nat → Byte) (w h : Nat) : rowsPixels px w 0 h = (List.range (w * h)).map px := by
  rw [rowsPixels, ← List.range_eq_range']
  induction h with
  | zero => rfl
  | succ h ih =>
    rw [List.range_succ, List.flatMap_append, ih, Nat.mul_succ, List.range_add, List.map_append, List.map_map,
      List.flatMap_singleton, Nat.mul_comm w h]
    rfl

/-- Where the bits of the remaining rows stand at POS, DROW for each of them gives their pixels (R194). -/
theorem Dec.rows_of_payload {px : Nat → Byte} {n : Nat} {d : Dec} {r : Bits} (hy : d.y + n = dim d.height)
    (hpresence : d.holdsPresence px)
    (hrest : d.rest = (List.range' d.y n).flatMap (payloadRow px (dim d.width)) ++ r) :
    ∃ d', Dec.rows n d = .ok d' ∧ d'.width = d.width ∧ d'.height = d.height ∧
      d'.out = d.out ++ rowsPixels px (dim d.width) d.y n := by
  induction n generalizing d with
  | zero => exact ⟨d, rfl, rfl, rfl, (List.append_nil _).symm⟩
  | succ n ih =>
    rw [List.range'_succ, List.flatMap_cons, List.append_assoc] at hrest
    have hrow := Dec.row_of_payloadRow (by omega) hpresence hrest
    have hrest' := Dec.rest_after_payloadRow (rasterRow px (dim d.width) d.y) hrest
    obtain ⟨d', hrows, hw, hh, hout⟩ := ih (d := d.afterRow _ _) (by simp only [Dec.afterRow]; omega) hpresence hrest'
    refine ⟨d', by rw [Dec.rows, hrow, Res.bind_ok, hrows], hw, hh, ?_⟩
    rw [hout, rowsPixels_succ, ← List.append_assoc]
    rfl

/-- Where the bits of the remaining rows stand at POS with some missing at the end, the rows run out of bits (R195). -/
theorem Dec.rows_of_cut {px : Nat → Byte} {n : Nat} {d : Dec} {t : Bits} (hy : d.y + n = dim d.height)
    (hpresence : d.holdsPresence px)
    (hrest : d.rest ++ t = (List.range' d.y n).flatMap (payloadRow px (dim d.width))) (ht : t ≠ []) :
    Dec.rows n d = .raised .payloadExhausted := by
  induction n generalizing d with
  | zero => exact absurd (List.append_eq_nil_iff.mp hrest).2 ht
  | succ n ih =>
    rw [List.range'_succ, List.flatMap_cons] at hrest
    have hlt : d.y < dim d.height := by omega
    have goes_on : ∀ r, d.rest = payloadRow px (dim d.width) d.y ++ r →
        r ++ t = (List.range' (d.y + 1) n).flatMap (payloadRow px (dim d.width)) →
        Dec.rows (n + 1) d = .raised .payloadExhausted := by
      intro r hr hrt
      have hrow := Dec.row_of_payloadRow hlt hpresence hr
      have hrest' := Dec.rest_after_payloadRow (rasterRow px (dim d.width) d.y) hr
      rw [Dec.rows, hrow, Res.bind_ok]
      exact ih (d := d.afterRow _ _) (by simp only [Dec.afterRow]; omega) hpresence (by rw [hrest']; exact hrt)
    rcases List.append_eq_append_iff.mp hrest with ⟨cut, hcut, htail⟩ | ⟨r, hr, htail⟩
    · by_cases hnil : cut = []
      · subst hnil
        exact goes_on [] (by rw [hcut, List.append_nil, List.append_nil]) htail
      · cases hpresent : presentRow px (dim d.width) d.y with
        | false =>
          rw [payloadRow, hpresent, if_neg Bool.false_ne_true] at hcut
          exact absurd (List.append_eq_nil_iff.mp hcut.symm).2 hnil
        | true =>
          rw [payloadRow, hpresent, if_pos rfl] at hcut
          obtain ⟨e, hwords⟩ := rowWords_of_cut hcut hnil
          have hrow := Dec.row_of_noWords hlt ((hpresence d.y hlt).trans (congrArg some hpresent)) hwords
          rw [Dec.rows, hrow, Res.bind_raised]
    · exact goes_on r hr htail.symm

end Sys2Proof.Machine
end

/-! PROOFS. Decoding an encoded stream, whole and without its last byte (R194, R195). -/
section

namespace Sys2Proof.Machine

/-- Bit `i % 8` of row-index byte `i / 8` is the presence of row `i` (R73). -/
theorem rowIndexItem_getLsbD (px : Nat → Byte) {w h i : Nat} (hi : i < h) :
    (rowIndexItem px w h (i / 8)).getLsbD (i % 8) = presentRow px w i := by
  have hrow : 8 * (i / 8) + i % 8 = i := Nat.div_add_mod i 8
  rw [rowIndexItem, encodePresence_getLsbD _ _ (Nat.mod_lt i (by decide)), hrow, decide_eq_true hi, Bool.true_and]

theorem rasterHead_getElem? (w h : Word) (px : Nat → Byte) (rest : List Byte) {k : Nat} (hk : k < ceilDiv8 (dim h)) :
    (rasterHead w h px ++ rest)[8 + k]? = some (rowIndexItem px (dim w) (dim h) k) := by
  rw [List.getElem?_append_left (by rw [rasterHead_length]; omega), rasterHead,
    List.getElem?_append_right (by rw [encodeHeader_length]; omega), encodeHeader_length, Nat.add_sub_cancel_left,
    rowIndexBytes, List.getElem?_map, List.getElem?_range hk]
  rfl

/-- The decoder at the first row of a stream that begins with the header and row index of the raster. -/
def Dec.atRows (w h : Word) (px : Nat → Byte) (tail : List Byte) : Dec :=
  Dec.rowsBegun { Dec.init (rasterHead w h px ++ tail) with width := w, height := h, phase := .readRowIndex }

theorem Dec.atRows_holdsPresence (w h : Word) (px : Nat → Byte) (tail : List Byte) :
    (Dec.atRows w h px tail).holdsPresence px := by
  intro i (hi : i < dim h)
  have hk : i / 8 < ceilDiv8 (dim h) := by
    unfold ceilDiv8
    omega
  rw [Dec.presence_of_getElem? (d := Dec.atRows w h px tail) (rasterHead_getElem? w h px tail hk),
    rowIndexItem_getLsbD px hi]
  rfl

theorem Dec.atRows_rest (w h : Word) (px : Nat → Byte) (tail : List Byte) :
    (Dec.atRows w h px tail).rest = bitsOfBytes tail := by
  have hrest : (Dec.atRows w h px tail).rest =
      (bitsOfBytes (rasterHead w h px ++ tail)).drop (8 * (8 + ceilDiv8 (dim h))) := rfl
  rw [hrest, bitsOfBytes_drop, ← rasterHead_length w h px, List.drop_left]

section Stream

variable {maxPixels : Option Nat} {w h : Word} (hw : 0 ≤ w.toInt) (hh : 0 ≤ h.toInt)
  (hfits : ∀ m, maxPixels = some m → w.toNat * h.toNat ≤ m)

include hw hh

/-- DHDR on a stream that begins with the header of `w` and `h`. -/
theorem header_of_encodeHeader (rest : List Byte) : (Dec.init (encodeHeader w h ++ rest)).header =
    .ok { Dec.init (encodeHeader w h ++ rest) with width := w, height := h, phase := .readRowIndex } :=
  Dec.header_of_nonneg rfl hw hh

/-- A stream too short for its row index (R186). -/
theorem decodeStream_of_shortIndex {rest : List Byte} (hshort : rest.length < ceilDiv8 (dim h)) :
    decodeStream maxPixels (encodeHeader w h ++ rest) = .raised .rowIndexTruncated := by
  have hlen : (encodeHeader w h ++ rest).length < 8 + ceilDiv8 (dim h) := by
    rw [List.length_append, encodeHeader_length]
    omega
  rw [decodeStream, header_of_encodeHeader hw hh, Res.bind_ok, Dec.rowIndex_of_short hlen, Res.bind_raised]

include hfits

/-- A stream with the header and row index of a raster goes on to its rows. -/
theorem decodeStream_of_head (px : Nat → Byte) (tail : List Byte) :
    decodeStream maxPixels (rasterHead w h px ++ tail) =
      (Dec.rows (dim h) (Dec.atRows w h px tail)).bind fun d => .ok ⟨d.width, d.height, d.out⟩ := by
  have hlen : 8 + ceilDiv8 (dim h) ≤ (rasterHead w h px ++ tail).length := by
    rw [List.length_append, rasterHead_length]
    exact Nat.le_add_right _ _
  have hindex := Dec.rowIndex_of_fits (m := maxPixels)
    (d := { Dec.init (rasterHead w h px ++ tail) with width := w, height := h, phase := .readRowIndex }) hlen
    ((exceedsPixels_eq_false hw hh).mpr hfits)
  have hheader := header_of_encodeHeader hw hh (rowIndexBytes px (dim w) (dim h) ++ tail)
  rw [← List.append_assoc] at hheader
  rw [← rasterHead] at hheader
  rw [decodeStream, hheader, Res.bind_ok, hindex, Res.bind_ok]
  rfl

end Stream

theorem payloadBits_eq (px : Nat → Byte) (w h : Nat) :
    payloadBits px w h = (List.range' 0 h).flatMap (payloadRow px w) := by
  rw [← List.range_eq_range']
  rfl

/-- Settles O58: the rows read the payload, which the padding follows. -/
theorem decodeInvertsEncode : Obligations.DecodeInvertsEncode := by
  intro maxPixels w h px hw hh hfits
  have hrest := Dec.atRows_rest w h px (pack (payloadBits px (dim w) (dim h)))
  rw [bitsOfBytes_pack, payloadBits_eq] at hrest
  obtain ⟨d, hrows, hdw, hdh, hout⟩ := Dec.rows_of_payload (d := Dec.atRows w h px _) (Nat.zero_add (dim h))
    (Dec.atRows_holdsPresence w h px _) hrest
  have hpixels : d.out = (List.range (w.toNat * h.toNat)).map px := by
    rw [hout, ← dim_of_nonneg (toInt_nonneg.mp hw), ← dim_of_nonneg (toInt_nonneg.mp hh), ← rowsPixels_all]
    rfl
  rw [encodeRaster_eq, decodeStream_of_head hw hh hfits, payloadBits_eq, hrows, Res.bind_ok, hdw, hdh, hpixels]
  rfl

/-! Without the last byte. -/

/-- The packed bits without their last byte are short of some of the bits. -/
theorem bitsOfBytes_dropLast_pack {s : Bits} (hs : s ≠ []) :
    ∃ t, t ≠ [] ∧ bitsOfBytes (pack s).dropLast ++ t = s := by
  have hpos := List.length_pos_iff.mpr hs
  have hcut : bitsOfBytes (pack s).dropLast = s.take (8 * ((s.length + 7) / 8 - 1)) := by
    have hsplit : bitsOfBytes (pack s) =
        bitsOfBytes (pack s).dropLast ++ bitsOfBytes ((pack s).drop ((s.length + 7) / 8 - 1)) := by
      rw [← bitsOfBytes_append, List.dropLast_eq_take, pack_length, List.take_append_drop]
    have hlen : (bitsOfBytes (pack s).dropLast).length = 8 * ((s.length + 7) / 8 - 1) := by
      rw [bitsOfBytes_length, List.length_dropLast, pack_length]
    rw [bitsOfBytes_pack] at hsplit
    rw [← hlen, ← List.take_append_of_le_length (l₂ := List.replicate ((8 - s.length % 8) % 8) false) (by omega),
      hsplit, List.take_left]
  refine ⟨s.drop (8 * ((s.length + 7) / 8 - 1)), ?_, by rw [hcut, List.take_append_drop]⟩
  rw [Ne, List.drop_eq_nil_iff]
  omega

/-- Without a payload the stream is the header and the row index. -/
theorem encodeRaster_of_noPayload {w h : Word} {px : Nat → Byte} (h0 : payloadBits px (dim w) (dim h) = []) :
    encodeRaster w h px = rasterHead w h px := by
  rw [encodeRaster_eq, h0]
  exact List.append_nil _

/-- A raster with a payload has a row. -/
theorem height_pos_of_payload {px : Nat → Byte} {w h : Nat} (hpayload : payloadBits px w h ≠ []) : 0 < h := by
  by_contra hzero
  rw [Nat.eq_zero_of_not_pos hzero] at hpayload
  exact hpayload rfl

section Cut

variable {maxPixels : Option Nat} {w h : Word} {px : Nat → Byte}

/-- Without rows the header lacks a byte. -/
theorem decodeStream_cutHeader (h0 : dim h = 0) :
    decodeStream maxPixels (encodeRaster w h px).dropLast = .raised .headerTooShort := by
  have hpayload : payloadBits px (dim w) (dim h) = [] := by rw [h0]; rfl
  have hshort : (encodeRaster w h px).dropLast.length < 8 := by
    rw [encodeRaster_of_noPayload hpayload, List.length_dropLast, rasterHead_length, h0]
    decide
  rw [decodeStream, Dec.header_of_short hshort, Res.bind_raised]

variable (hw : 0 ≤ w.toInt) (hh : 0 ≤ h.toInt) (hfits : ∀ m, maxPixels = some m → w.toNat * h.toNat ≤ m)

include hw hh

/-- With rows and no payload the row index lacks a byte. -/
theorem decodeStream_cutIndex (hpos : 0 < dim h) (hpayload : payloadBits px (dim w) (dim h) = []) :
    decodeStream maxPixels (encodeRaster w h px).dropLast = .raised .rowIndexTruncated := by
  have hindex := rowIndexBytes_length px (dim w) (dim h)
  have hindexPos : 0 < ceilDiv8 (dim h) := by
    unfold ceilDiv8
    omega
  rw [encodeRaster_of_noPayload hpayload, rasterHead,
    List.dropLast_append_of_ne_nil (List.length_pos_iff.mp (hindex ▸ hindexPos))]
  exact decodeStream_of_shortIndex hw hh (by rw [List.length_dropLast, hindex]; omega)

include hfits

/-- With a payload the rows lack bits. -/
theorem decodeStream_cutPayload (hpayload : payloadBits px (dim w) (dim h) ≠ []) :
    decodeStream maxPixels (encodeRaster w h px).dropLast = .raised .payloadExhausted := by
  have hpack : pack (payloadBits px (dim w) (dim h)) ≠ [] := by
    have hbits := List.length_pos_iff.mpr hpayload
    rw [← List.length_pos_iff, pack_length]
    omega
  obtain ⟨t, ht, hcut⟩ := bitsOfBytes_dropLast_pack hpayload
  have hrows := Dec.rows_of_cut (d := Dec.atRows w h px (pack (payloadBits px (dim w) (dim h))).dropLast)
    (Nat.zero_add (dim h)) (Dec.atRows_holdsPresence w h px _)
    (by rw [Dec.atRows_rest, hcut, payloadBits_eq]; rfl) ht
  rw [encodeRaster_eq, List.dropLast_append_of_ne_nil hpack, decodeStream_of_head hw hh hfits, hrows, Res.bind_raised]

end Cut

/-- Settles O59: the missing byte is the header's, the row index's, or the payload's, each of which the decoder needs. -/
theorem truncationIsDetected : Obligations.TruncationIsDetected := by
  intro maxPixels w h px hw hh hfits
  rw [← dim_of_nonneg (toInt_nonneg.mp hh)]
  by_cases hpayload : payloadBits px (dim w) (dim h) = []
  · rcases Nat.eq_zero_or_pos (dim h) with hzero | hpos
    · exact ⟨_, decodeStream_cutHeader hzero, rfl, fun _ => rfl, fun hpos => absurd hzero hpos.ne',
        fun hne => absurd hpayload hne⟩
    · exact ⟨_, decodeStream_cutIndex hw hh hpos hpayload, rfl, fun hzero => absurd hzero hpos.ne', fun _ _ => rfl,
        fun hne => absurd hpayload hne⟩
  · exact ⟨_, decodeStream_cutPayload hw hh hfits hpayload, rfl,
      fun hzero => absurd hzero (height_pos_of_payload hpayload).ne', fun _ hnil => absurd hnil hpayload, fun _ => rfl⟩

end Sys2Proof.Machine
end

/-! PROOFS. The decoder's steps compute the functional `decode` (R192, R193). -/
section

namespace Sys2Proof.Machine

/-! Runs that change the decoder only. -/

/-- From `s`, with the decoder `d`, some number of steps reaches the same state with the decoder `d'`. -/
def DecReaches (s : State) (d d' : Dec) : Prop :=
  ∃ k, Sys2Proof.core.run k { s with dec := d } = .next { s with dec := d' }

theorem DecReaches.refl (s : State) (d : Dec) : DecReaches s d d := ⟨0, run_zero _⟩

/-- A step, and then a run. -/
theorem DecReaches.head {s : State} {d d' d'' : Dec} (h : step { s with dec := d } = .next { s with dec := d' })
    (k : DecReaches s d' d'') : DecReaches s d d'' := by
  obtain ⟨n, hn⟩ := k
  exact ⟨n + 1, (run_succ h n).trans hn⟩

theorem DecReaches.single {s : State} {d d' : Dec} (h : step { s with dec := d } = .next { s with dec := d' }) :
    DecReaches s d d' := .head h (.refl s d')

theorem run_add {s t u : State} {j k : Nat} (h : Sys2Proof.core.run j s = .next t)
    (h' : Sys2Proof.core.run k t = .next u) : Sys2Proof.core.run (j + k) s = .next u := by
  induction j generalizing s with
  | zero =>
    obtain rfl := Host.Outcome.next.inj h
    rwa [Nat.zero_add]
  | succ j ih =>
    cases hstep : Machine.step s with
    | next v =>
      rw [run_succ hstep] at h
      rw [Nat.succ_add, run_succ hstep]
      exact ih h
    | fault f =>
      have hcore : Sys2Proof.core.step s = .fault f := hstep
      simp only [Host.Core.run, hcore] at h
      cases h
    | refused r =>
      have hcore : Sys2Proof.core.step s = .refused r := hstep
      simp only [Host.Core.run, hcore] at h
      cases h

theorem DecReaches.trans {s : State} {d d' d'' : Dec} (h : DecReaches s d d') (k : DecReaches s d' d'') :
    DecReaches s d d'' := by
  obtain ⟨m, hm⟩ := h
  obtain ⟨n, hn⟩ := k
  exact ⟨m + n, run_add hm hn⟩

/-- The group columns, 4 apart from 0. -/
theorem groupStarts_eq_range' (w : Nat) : groupStarts w = List.range' 0 ((w + 3) / 4) 4 := by
  apply List.ext_getElem
  · simp [groupStarts]
  · intro i _ _
    simp [groupStarts]

theorem columns_lt_tail {x m w : Nat} (h : ∀ c ∈ List.range' x (m + 1) 4, c < w) :
    x < w ∧ ∀ c ∈ List.range' (x + 4) m 4, c < w := by
  rw [List.range'_succ] at h
  exact ⟨h x List.mem_cons_self, fun c hc => h c (List.mem_cons_of_mem x hc)⟩

section Quiet

variable {s : State} (hquiet : s.inbox = []) (hidle : s.phase.busy = false)

include hquiet hidle

/-! The words of a present row. -/

/-- The step at a word of a present row. -/
theorem DecReaches.word {d : Dec} (hp : d.phase = .decodeRow) (hy : d.y < dim d.height)
    (hrow : d.presence d.y = some true) (hx : d.x < dim d.width) {i : Instr} {r : Bits}
    (hword : decodeWord d.groupCount d.rest = .ok (i, r)) :
    DecReaches s d { d.afterWord d.groupCount i with x := d.x + 4 } := by
  have hstep := step_of_word (s := { s with dec := d }) hquiet hidle hp hy hrow hx hword
  exact .single (hstep.trans (exec_of_decodeWord hx hword))

theorem DecReaches.exhausted {d : Dec} (hp : d.phase = .decodeRow) (hy : d.y < dim d.height)
    (hrow : d.presence d.y = some true) (hx : d.x < dim d.width) {e : Reject}
    (hword : decodeWord d.groupCount d.rest = .error e) : DecReaches s d (d.fail .payloadExhausted) := by
  obtain ⟨rfl, _⟩ := decodeWord_eq_error (groupCount_pos hx) (groupCount_le _ _) hword
  exact .single (step_of_exhausted (s := { s with dec := d }) hquiet hidle hp hy hrow hx hword)

/-- Word by word the steps read the `m` groups from column x on, or run out of bits. -/
theorem DecReaches.words {m : Nat} {d : Dec} (hp : d.phase = .decodeRow) (hy : d.y < dim d.height)
    (hrow : d.presence d.y = some true) (hx : ∀ c ∈ List.range' d.x m 4, c < dim d.width) :
    (∀ ps k, rowWords (dim d.width) (List.range' d.x m 4) d.rest = .ok (ps, k) →
      DecReaches s d { d with pos := d.pos + k, out := d.out ++ ps, x := d.x + 4 * m }) ∧
    (∀ e, rowWords (dim d.width) (List.range' d.x m 4) d.rest = .error e →
      DecReaches s d (d.fail .payloadExhausted)) := by
  induction m generalizing d with
  | zero =>
    refine ⟨fun ps k h => ?_, fun e h => by cases h⟩
    obtain ⟨rfl, rfl⟩ := Prod.mk.inj (Except.ok.inj h)
    simpa using DecReaches.refl s d
  | succ m ih =>
    obtain ⟨hlt, hrest⟩ := columns_lt_tail hx
    rw [List.range'_succ]
    refine ⟨fun ps k h => ?_, fun e h => ?_⟩
    · obtain ⟨i, r, ps', k', hword, hwords, rfl, rfl⟩ := rowWords_cons_eq_ok h
      obtain ⟨_, hafter⟩ := Dec.group_of_word hword
      obtain ⟨hreach, _⟩ := ih (d := { d.afterWord d.groupCount i with x := d.x + 4 }) hp hy hrow hrest
      have hcol : d.x + 4 + 4 * m = d.x + 4 * (m + 1) := by omega
      refine (DecReaches.word hquiet hidle hp hy hrow hlt hword).trans ?_
      have hend := hreach ps' k' (hafter ▸ hwords)
      simpa only [Dec.afterWord, Dec.groupCount, Nat.add_assoc, List.append_assoc, hcol] using hend
    · rcases rowWords_cons_eq_error h with hword | ⟨i, r, hword, hwords⟩
      · exact DecReaches.exhausted hquiet hidle hp hy hrow hlt hword
      · obtain ⟨_, hafter⟩ := Dec.group_of_word hword
        obtain ⟨_, hfails⟩ := ih (d := { d.afterWord d.groupCount i with x := d.x + 4 }) hp hy hrow hrest
        exact (DecReaches.word hquiet hidle hp hy hrow hlt hword).trans (hfails e (hafter ▸ hwords))

/-! Rows. -/

/-- The step at the end of a present row. -/
theorem DecReaches.rowEnd {d : Dec} (hp : d.phase = .decodeRow) (hy : d.y < dim d.height)
    (hrow : d.presence d.y = some true) (hx : dim d.width ≤ d.x) : DecReaches s d d.nextRow :=
  .single (step_of_presentEnd (s := { s with dec := d }) hquiet hidle hp hy hrow hx)

/-- From column 0 of a row the steps do what DROW does. -/
theorem DecReaches.row {d : Dec} (hp : d.phase = .decodeRow) (hy : d.y < dim d.height) (hx : d.x = 0)
    (hlen : 8 + ceilDiv8 (dim d.height) ≤ d.input.length) :
    (∃ ps k, d.row = .ok (d.afterRow ps k) ∧ DecReaches s d (d.afterRow ps k)) ∨
    (d.row = .raised .payloadExhausted ∧ DecReaches s d (d.fail .payloadExhausted)) := by
  obtain ⟨b, hrow⟩ := Dec.presence_isSome hy hlen
  cases b with
  | false =>
    have hrowOk := Dec.row_of_absent_eq_afterRow hy hrow
    have hstep := step_of_absent (s := { s with dec := d }) hquiet hidle hp hy hrow
    rw [exec_drow, hrowOk] at hstep
    exact .inl ⟨_, _, hrowOk, .single hstep⟩
  | true =>
    have hstarts : List.range' d.x ((dim d.width + 3) / 4) 4 = groupStarts (dim d.width) := by
      rw [hx, groupStarts_eq_range']
    obtain ⟨hok, hfails⟩ := DecReaches.words hquiet hidle hp hy hrow
      (fun c hc => lt_of_mem_groupStarts (hstarts ▸ hc))
    rw [hstarts] at hok hfails
    cases hwords : rowWords (dim d.width) (groupStarts (dim d.width)) d.rest with
    | ok psk =>
      obtain ⟨ps, k⟩ := psk
      refine .inl ⟨ps, k, Dec.row_of_words hy hrow hwords, (hok ps k hwords).trans ?_⟩
      exact DecReaches.rowEnd (d := { d with pos := d.pos + k, out := d.out ++ ps, x := _ }) hquiet hidle hp hy hrow
        (by simp only [hx]; omega)
    | error e => exact .inr ⟨Dec.row_of_noWords hy hrow hwords, hfails e hwords⟩

/-- From column 0 of a row the steps do what DROW does for each of the `n` rows left, and end in Done or Error. -/
theorem DecReaches.rows {n : Nat} {d : Dec} (hp : d.phase = .decodeRow) (hy : d.y + n = dim d.height) (hx : d.x = 0)
    (hlen : 8 + ceilDiv8 (dim d.height) ≤ d.input.length) :
    (∃ d', Dec.rows n d = .ok d' ∧ DecReaches s d { d' with phase := .done }) ∨
    (Dec.rows n d = .raised .payloadExhausted ∧ DecReaches s d (d.fail .payloadExhausted)) := by
  induction n generalizing d with
  | zero => exact .inl ⟨d, rfl, .single (step_of_lastRow (s := { s with dec := d }) hquiet hidle hp hy)⟩
  | succ n ih =>
    rcases DecReaches.row hquiet hidle hp (by omega) hx hlen with ⟨ps, k, hrow, hreach⟩ | ⟨hrow, hreach⟩
    · rw [Dec.rows, hrow, Res.bind_ok]
      rcases ih (d := d.afterRow ps k) hp (by simp only [Dec.afterRow]; omega) rfl hlen with
        ⟨d', hrows, hend⟩ | ⟨hrows, hend⟩
      · exact .inl ⟨d', hrows, hreach.trans hend⟩
      · exact .inr ⟨hrows, hreach.trans hend⟩
    · rw [Dec.rows, hrow, Res.bind_raised]
      exact .inr ⟨rfl, hreach⟩

/-! The whole decoding. -/

theorem DecReaches.header {d d' : Dec} (hp : d.phase = .readHeader) (h : d.header = .ok d') : DecReaches s d d' := by
  have hstep := step_of_readHeader (s := { s with dec := d }) hquiet hidle hp
  rw [exec_dhdr, h, Res.finishDec_ok] at hstep
  exact .single hstep

theorem DecReaches.header_raised {d : Dec} {c : Cause} (hp : d.phase = .readHeader) (h : d.header = .raised c) :
    DecReaches s d (d.fail c) := by
  have hstep := step_of_readHeader (s := { s with dec := d }) hquiet hidle hp
  rw [exec_dhdr, h, Res.finishDec_raised] at hstep
  exact .single hstep

theorem DecReaches.rowIndex {d d' : Dec} (hp : d.phase = .readRowIndex) (h : d.rowIndex s.maxPixels = .ok d') :
    DecReaches s d d' := by
  have hstep := step_of_readRowIndex (s := { s with dec := d }) hquiet hidle hp
  rw [exec_drix, h, Res.finishDec_ok] at hstep
  exact .single hstep

theorem DecReaches.rowIndex_raised {d : Dec} {c : Cause} (hp : d.phase = .readRowIndex)
    (h : d.rowIndex s.maxPixels = .raised c) : DecReaches s d (d.fail c) := by
  have hstep := step_of_readRowIndex (s := { s with dec := d }) hquiet hidle hp
  rw [exec_drix, h, Res.finishDec_raised] at hstep
  exact .single hstep

/-- From DRIX on, the steps end in Done with what DRIX and the rows give, or in Error with the cause they raise. -/
theorem DecReaches.fromRowIndex {d : Dec} (hp : d.phase = .readRowIndex) :
    (∃ d', ((d.rowIndex s.maxPixels).bind fun d => Dec.rows (dim d.height) d) = .ok d' ∧
      DecReaches s d { d' with phase := .done }) ∨
    (∃ c, ((d.rowIndex s.maxPixels).bind fun d => Dec.rows (dim d.height) d) = .raised c ∧
      DecReaches s d (d.fail c)) := by
  rcases Dec.rowIndex_cases s.maxPixels d with ⟨_, h⟩ | ⟨_, _, h⟩ | ⟨hlen, _, h⟩
  · exact .inr ⟨_, by rw [h, Res.bind_raised], .rowIndex_raised hquiet hidle hp h⟩
  · exact .inr ⟨_, by rw [h, Res.bind_raised], .rowIndex_raised hquiet hidle hp h⟩
  · have hreach := DecReaches.rowIndex hquiet hidle hp h
    rw [h, Res.bind_ok]
    rcases DecReaches.rows (d := d.rowsBegun) hquiet hidle rfl (Nat.zero_add _) rfl hlen with
      ⟨d', hrows, hend⟩ | ⟨hrows, hend⟩
    · exact .inl ⟨d', hrows, hreach.trans hend⟩
    · exact .inr ⟨_, hrows, hreach.trans hend⟩

end Quiet

/-- DHDR does not read the decoder's phase. -/
theorem Dec.header_phase (d : Dec) (p : DecPhase) : ({ d with phase := p } : Dec).header = d.header := rfl

theorem Dec.header_cases (d : Dec) :
    (∃ d', d.header = .ok d' ∧ d'.phase = .readRowIndex ∧ d'.input = d.input) ∨ ∃ c, d.header = .raised c := by
  unfold Dec.header
  split
  next => exact .inr ⟨_, rfl⟩
  next =>
    split
    next => exact .inr ⟨_, rfl⟩
    next => exact .inl ⟨_, rfl, rfl, rfl⟩

/-- `decode` as DHDR, and then DRIX with the rows. -/
theorem decodeStream_eq (maxPixels : Option Nat) (bytes : List Byte) : decodeStream maxPixels bytes =
    (Dec.init bytes).header.bind fun d =>
      ((d.rowIndex maxPixels).bind fun d => Dec.rows (dim d.height) d).bind fun d =>
        .ok ⟨d.width, d.height, d.out⟩ := by
  rw [decodeStream]
  congr 1
  funext d
  exact (Res.bind_assoc _ _ _).symm

/-- Settles O60: the steps of each part end in what the part gives, a raised cause in Error. -/
theorem decoderStepsComputeDecode : Obligations.DecoderStepsComputeDecode := by
  intro s bytes hquiet hidle hdec
  have finish : ∀ d : Dec, DecReaches s { Dec.init bytes with phase := .readHeader } d →
      ∃ k, Sys2Proof.core.run k s = .next { s with dec := d } := by
    rintro d ⟨k, hk⟩
    rw [← hdec] at hk
    exact ⟨k, hk⟩
  rw [decodeStream_eq]
  rcases Dec.header_cases (Dec.init bytes) with ⟨d, hheader, hp, hinput⟩ | ⟨c, hheader⟩
  · have hreach := DecReaches.header (s := s) (d := { Dec.init bytes with phase := .readHeader }) hquiet hidle rfl
      ((Dec.header_phase _ _).trans hheader)
    rw [hheader, Res.bind_ok]
    rcases DecReaches.fromRowIndex hquiet hidle hp with ⟨d', hrows, hend⟩ | ⟨c, hrows, hend⟩
    · obtain ⟨k, hk⟩ := finish _ (hreach.trans hend)
      exact ⟨k, _, hk, .inl ⟨_, by rw [hrows, Res.bind_ok], rfl, rfl, rfl, rfl⟩⟩
    · obtain ⟨k, hk⟩ := finish _ (hreach.trans hend)
      exact ⟨k, _, hk, .inr ⟨c, by rw [hrows, Res.bind_raised], rfl, rfl, rfl, rfl⟩⟩
  · have hreach := DecReaches.header_raised (s := s) (d := { Dec.init bytes with phase := .readHeader }) hquiet hidle
      rfl ((Dec.header_phase _ _).trans hheader)
    obtain ⟨k, hk⟩ := finish _ hreach
    exact ⟨k, _, hk, .inr ⟨c, by rw [hheader, Res.bind_raised], rfl, rfl, rfl, rfl⟩⟩

end Sys2Proof.Machine
end
